-- ==== Sys2Proof/Word.lean ====
section
/-! DEFINITION. The word types of the block: one name for each width the spec gives an item, a register or a field (00_scope.md R6, R8). -/

namespace Sys2Proof

/-- SAMPLE_W = 8: a pixel sample, and one byte of the code stream (R6, R94). -/
abbrev Byte := BitVec 8

/-- SYM_W = 9: a residual symbol as a two's complement pattern (R6, R102). -/
abbrev Sym := BitVec 9

/-- CODE_W = 16: a code (R6, R103). -/
abbrev Code := BitVec 16

/-- DIM_W = 16: each of ROWS, COLS, CHANS and of the walker's ROW, COL, CH (R6, R23, R30). -/
abbrev Dim := BitVec 16

/-- COUNT_W = 48: COUNT and OUT_CNT (R6, R29, R35). -/
abbrev Count := BitVec 48

/-- CMD_W = 32: a command word (R6, R91). -/
abbrev CmdWord := BitVec 32

/-- RSP_W = 16: a read response (R6, R101). -/
abbrev Response := BitVec 16

/-- A 9-bit item with a one-bit flag over a byte: CODE_IN, CODE_OUT and PIX_OUT (R96, R99, R100). -/
abbrev FlagByte := BitVec 9

/-- A 10-bit item with a one-bit flag over a symbol: RES_E (R97). -/
abbrev FlagSym := BitVec 10

end Sys2Proof
end

