-- ==== Sys2Proof/Config.lean ====
section
/-! DEFINITION. What is fixed for the block: the parameters of 00_scope.md R6 at their defaults, and the free values, which are those of the open interleaving (R11, 70_reset_and_hazards.md R249). -/

namespace Sys2Proof.Config

/-- NSEED: preloaded dictionary entries, fixed by D0 (R6, R61). -/
def nSeed : Nat := 511

/-- DICT_CAP: the most entries the dictionary can have, fixed by D0 (R6, R65). -/
def dictCap : Nat := 65536

/-- LEFT has 65535 cells, numbered 0..65534 (R67). -/
def leftCells : Nat := 65535

/-- DESIGN CHOICE (log 1), safe. Which of several enabled agents steps next is not determined (R11, R75).
It is a FREE VALUE: an opaque constant applied to the counter `pick` of State. -/
opaque freePick : Nat → Nat

/-- DESIGN CHOICE (log 1), safe. An agent that stays enabled eventually steps (R249, D25), and how long it is passed over is
not determined. It is a FREE VALUE: `freeGap k` is how many picks are free before the k-th pick at which an agent has its turn. -/
opaque freeGap : Nat → Nat

end Sys2Proof.Config
end

