-- ==== Sys2Proof/Syntax.lean ====
section
/-! DEFINITION. The transactions of the block, one constructor per row of spec/opcode_table.json (30_encoding.md R90, R109), the channels they arrive on and the items that carry them. -/

namespace Sys2Proof

/-- The five input channels an agent of the block pops (R90). -/
inductive Channel where
  | cmd | pixIn | codeIn | resE | resD
  deriving DecidableEq, Repr

/-- One item of an input channel, at the width of its format (R90, R106). -/
inductive Item where
  | cmd (w : CmdWord)
  | pixIn (w : Byte)
  | codeIn (w : FlagByte)
  | resE (w : FlagSym)
  | resD (w : Sym)
  deriving DecidableEq, Repr

/-- The transactions: the 17 rows of the opcode table. -/
inductive Instr where
  /-- NOP (R121) -/
  | nop
  /-- WR ROWS, n (R122) -/
  | wrRows (n : Dim)
  /-- WR COLS, n (R122) -/
  | wrCols (n : Dim)
  /-- WR CHANS, n (R122) -/
  | wrChans (n : Dim)
  /-- RD ROWS (R123) -/
  | rdRows
  /-- RD COLS (R123) -/
  | rdCols
  /-- RD CHANS (R123) -/
  | rdChans
  /-- RD STATUS (R123) -/
  | rdStatus
  /-- RD DNEXT (R123) -/
  | rdDnext
  /-- START_ENC (R125) -/
  | startEnc
  /-- START_DEC (R129) -/
  | startDec
  /-- ABORT (R127) -/
  | abort
  /-- PIX s (R141) -/
  | pix (s : Byte)
  /-- BYTE n (R166) -/
  | byte (n : Byte)
  /-- EOS (R176); the byte field is ignored (R96), so there is no operand -/
  | eos
  /-- RES {last, sym} (R154) -/
  | res (last : Bool) (sym : Sym)
  /-- RESD sym (R186) -/
  | resd (sym : Sym)
  deriving DecidableEq, Repr

end Sys2Proof
end

