-- ==== Sys2Proof/WellFormed.lean ====
section
/-! DEFINITION. Well-formedness checks: a raw item fits the one width of its channel (30_encoding.md R90, R106), a pattern is a symbol (R102), a register number is one that WR or RD accepts (R93). The operands of `Instr` are typed at their field's width, so every `Instr` is well formed by its type; what can be ill formed is the raw material a decoder is given. -/

namespace Sys2Proof

/-- The item width of a channel (R90). -/
def Channel.width : Channel → Nat
  | .cmd => 32
  | .pixIn => 8
  | .codeIn => 9
  | .resE => 10
  | .resD => 9

/-- The channel of an item: a decoder tells the format by it (R90). -/
def Item.channel : Item → Channel
  | .cmd _ => .cmd
  | .pixIn _ => .pixIn
  | .codeIn _ => .codeIn
  | .resE _ => .resE
  | .resD _ => .resD

/-- The item read as an unsigned number, bit 0 the least significant (R8). -/
def Item.value : Item → Nat
  | .cmd w => w.toNat
  | .pixIn w => w.toNat
  | .codeIn w => w.toNat
  | .resE w => w.toNat
  | .resD w => w.toNat

/-- Every item of a channel has the one fixed width of R90: a raw value is an item of the channel only if it fits. -/
def rawItemWellFormed (c : Channel) (w : Nat) : Bool := decide (w < 2 ^ c.width)

/-- R102: the pattern 0x100 (-256) is not a symbol; every other 9-bit pattern is. -/
def isSymbol (p : Sym) : Bool := decide (p ≠ 0x100#9)

/-- R93, R92: the register numbers WR accepts. -/
def wrRegister (r : BitVec 4) : Bool := decide (r.toNat ≤ 2)

/-- R93, R92: the register numbers RD accepts. -/
def rdRegister (r : BitVec 4) : Bool := decide (r.toNat ≤ 4)

/-- The channel whose agent executes the transaction (R90). -/
def Instr.channel : Instr → Channel
  | .nop => .cmd
  | .wrRows _ => .cmd
  | .wrCols _ => .cmd
  | .wrChans _ => .cmd
  | .rdRows => .cmd
  | .rdCols => .cmd
  | .rdChans => .cmd
  | .rdStatus => .cmd
  | .rdDnext => .cmd
  | .startEnc => .cmd
  | .startDec => .cmd
  | .abort => .cmd
  | .pix _ => .pixIn
  | .byte _ => .codeIn
  | .eos => .codeIn
  | .res _ _ => .resE
  | .resd _ => .resD

end Sys2Proof
end

