-- ==== Sys2Proof/Decode.lean ====
section
/-! DEFINITION. The decoder (30_encoding.md R90 to R98, R105), total on every item and on every raw value, refusing by name; then the encoder, written from the field layouts; then the host's table-word reading. -/

namespace Sys2Proof

/-- Why the decoder gives no transaction. -/
inductive Reject where
  /-- The command word matches no row of R92 (R105, first row); what the block does with it is R128. -/
  | illegalCommand
  /-- The raw value does not fit the channel's item width (R90). -/
  | itemTooWide
  deriving DecidableEq, Repr

/-! ### The decoder -/

/-- One row of the command map R92: a word is the row's transaction exactly when `word AND mask = pattern`. -/
structure CommandRow where
  pattern : CmdWord
  mask : CmdWord
  build : BitVec 16 → Instr

/-- The command map, R92, row for row. -/
def commandRows : List CommandRow :=
  [ ⟨0x00000000#32, 0xFFFFFFFF#32, fun _ => .nop⟩,
    ⟨0x10000000#32, 0xFFFF0000#32, .wrRows⟩,
    ⟨0x11000000#32, 0xFFFF0000#32, .wrCols⟩,
    ⟨0x12000000#32, 0xFFFF0000#32, .wrChans⟩,
    ⟨0x20000000#32, 0xFFFFFFFF#32, fun _ => .rdRows⟩,
    ⟨0x21000000#32, 0xFFFFFFFF#32, fun _ => .rdCols⟩,
    ⟨0x22000000#32, 0xFFFFFFFF#32, fun _ => .rdChans⟩,
    ⟨0x23000000#32, 0xFFFFFFFF#32, fun _ => .rdStatus⟩,
    ⟨0x24000000#32, 0xFFFFFFFF#32, fun _ => .rdDnext⟩,
    ⟨0x30000000#32, 0xFFFFFFFF#32, fun _ => .startEnc⟩,
    ⟨0x40000000#32, 0xFFFFFFFF#32, fun _ => .startDec⟩,
    ⟨0x50000000#32, 0xFFFFFFFF#32, fun _ => .abort⟩ ]

/-- R92: does the word match the row? -/
def CommandRow.accepts (r : CommandRow) (w : CmdWord) : Bool := decide (w &&& r.mask = r.pattern)

/-- R91, R93: the data field, bits 15:0, of a command word. -/
def dataField (w : CmdWord) : BitVec 16 := w.extractLsb' 0 16

/-- Format CMD: strict decoding by R92, every other word illegal (R105). -/
def decodeCommand (w : CmdWord) : Except Reject Instr :=
  match commandRows.find? (fun r => r.accepts w) with
  | some r => .ok (r.build (dataField w))
  | none => .error .illegalCommand

/-- Format PIX: every 8-bit value is PIX (R95). -/
def decodePix (w : Byte) : Instr := .pix w

/-- Format CIN: bit 8 is `eos`; with it set the byte field is ignored (R96, R105). -/
def decodeCin (w : FlagByte) : Instr :=
  if w &&& 0x100#9 = 0x000#9 then .byte (w.extractLsb' 0 8) else .eos

/-- Format RESE: bit 9 is `last`, bits 8:0 are `sym`; every value is RES (R97). -/
def decodeRese (w : FlagSym) : Instr := .res (w.getLsbD 9) (w.extractLsb' 0 9)

/-- Format RESD: every 9-bit value is RESD (R98). -/
def decodeResd (w : Sym) : Instr := .resd w

/-- R90: the format is told by the channel the item came from. -/
def decode : Item → Except Reject Instr
  | .cmd w => decodeCommand w
  | .pixIn w => .ok (decodePix w)
  | .codeIn w => .ok (decodeCin w)
  | .resE w => .ok (decodeRese w)
  | .resD w => .ok (decodeResd w)

/-- A raw value on a channel, as an item of that channel's width. -/
def Item.ofRaw (c : Channel) (w : Nat) : Except Reject Item :=
  if rawItemWellFormed c w then
    .ok (match c with
      | .cmd => .cmd (BitVec.ofNat 32 w)
      | .pixIn => .pixIn (BitVec.ofNat 8 w)
      | .codeIn => .codeIn (BitVec.ofNat 9 w)
      | .resE => .resE (BitVec.ofNat 10 w)
      | .resD => .resD (BitVec.ofNat 9 w))
  else .error .itemTooWide

/-- The decoder on any raw value of any channel. -/
def decodeRaw (c : Channel) (w : Nat) : Except Reject Instr :=
  match Item.ofRaw c w with
  | .ok item => decode item
  | .error e => .error e

/-! ### The encoder -/

/-- R91: the command word {op, reg, zero, data}. -/
def commandWord (op reg : BitVec 4) (data : BitVec 16) : CmdWord := op ++ reg ++ 0#8 ++ data

/-- The item of a transaction, from the field layouts R91, R95 to R98. EOS carries a byte field of 0 (R96). -/
def encode : Instr → Item
  | .nop => .cmd (commandWord 0x0#4 0#4 0#16)
  | .wrRows n => .cmd (commandWord 0x1#4 0#4 n)
  | .wrCols n => .cmd (commandWord 0x1#4 1#4 n)
  | .wrChans n => .cmd (commandWord 0x1#4 2#4 n)
  | .rdRows => .cmd (commandWord 0x2#4 0#4 0#16)
  | .rdCols => .cmd (commandWord 0x2#4 1#4 0#16)
  | .rdChans => .cmd (commandWord 0x2#4 2#4 0#16)
  | .rdStatus => .cmd (commandWord 0x2#4 3#4 0#16)
  | .rdDnext => .cmd (commandWord 0x2#4 4#4 0#16)
  | .startEnc => .cmd (commandWord 0x3#4 0#4 0#16)
  | .startDec => .cmd (commandWord 0x4#4 0#4 0#16)
  | .abort => .cmd (commandWord 0x5#4 0#4 0#16)
  | .pix s => .pixIn s
  | .byte n => .codeIn (0#1 ++ n)
  | .eos => .codeIn (1#1 ++ 0#8)
  | .res last sym => .resE (BitVec.ofBool last ++ sym)
  | .resd sym => .resD sym

/-! ### The host's table words -/

/-- DESIGN CHOICE (log 9): the channel a table word of `nbits` bits is read on, since the opcode table says the
channel only by the row. 32 bits is CMD, 8 is PIX_IN, 10 is RES_E, 9 is CODE_IN; of 16 bits (a 9-bit or 10-bit
item in whole bytes) a word of at most 9 bits is read on CODE_IN and a wider one on RES_E. -/
def tableChannel (nbits w : Nat) : Option Channel :=
  if nbits = 32 then some .cmd
  else if nbits = 8 then some .pixIn
  else if nbits = 9 then some .codeIn
  else if nbits = 10 then some .resE
  else if nbits = 16 then (if w < 512 then some .codeIn else some .resE)
  else none

/-- The item a table word stands for, by `tableChannel`. -/
def tableItem (nbits w : Nat) : Option Item :=
  match tableChannel nbits w with
  | none => none
  | some c =>
    match Item.ofRaw c w with
    | .ok item => some item
    | .error _ => none

/-- The transaction the decoder reads from a table word (none where it refuses). -/
def decodeTableWord (nbits w : Nat) : Option Instr :=
  match tableItem nbits w with
  | none => none
  | some item =>
    match decode item with
    | .ok i => some i
    | .error _ => none

end Sys2Proof
end

