-- ==== Sys2Proof/Machine/State.lean ====
section
/-! DEFINITION. The state of the block as plain data (10_state.md R20 to R39, 20_memory.md R60, R67, R72), its reset (R42), and the reasons a step can stop. -/

namespace Sys2Proof.Machine

/-- The five agents (R11). -/
inductive Agent where
  | ctrl | pred | enc | dec | recon
  deriving DecidableEq, Repr

/-- STATE, the job sequencer (R24). The values 5, 6 and 7 are never taken, so they have no constructor (log 14). -/
inductive JobState where
  | idle | enc | dec | done | error
  deriving DecidableEq, Repr

/-- ERR (R25, R200). The values 8 to 15 are never produced, so they have no constructor (log 14). -/
inductive ErrCode where
  | noFault | cmd | busy | cfg | sym | badCode | short | overrun
  deriving DecidableEq, Repr

/-- JOB: the kind of the most recent accepted START (R26). -/
inductive JobKind where
  | enc | dec
  deriving DecidableEq, Repr

/-- One row of DICT: {root, prefix, sym}, 1 + 16 + 9 = 26 bits (R60). -/
structure DictRow where
  root : Bool
  prefixCode : Code
  sym : Sym
  deriving DecidableEq, Repr

/-- LEFT: cells of one byte, in the canonical form of `Memory.wf` (R67). -/
abbrev Memory := List Host.Cell

/-- DICT: the written rows, in the canonical form of `Dict.wf` (R60). -/
abbrev Dict := List (Nat × DictRow)

/-- The complete state of the block (R20), the external channels of R72 (log 3), and the model's own two
fields of the open interleaving (log 1). In a channel the head of the list is the oldest item (R70). -/
structure State where
  /-- ROWS, register 0 (R23) -/
  rows : Dim
  /-- COLS, register 1 (R23) -/
  cols : Dim
  /-- CHANS, register 2 (R23) -/
  chans : Dim
  /-- STATE (R24) -/
  state : JobState
  /-- ERR (R25) -/
  err : ErrCode
  /-- JOB (R26) -/
  job : JobKind
  /-- COUNT (R29) -/
  count : Count
  /-- ROW of the raster walker (R30) -/
  row : Dim
  /-- COL of the raster walker (R30) -/
  col : Dim
  /-- CH of the raster walker (R30) -/
  ch : Dim
  /-- LEFT (R37, R67) -/
  left : Memory
  /-- S_EMPTY (R32) -/
  sEmpty : Bool
  /-- S_CODE (R32) -/
  sCode : Code
  /-- NEXT (R33) -/
  next : BitVec 17
  /-- DICT (R38, R60) -/
  dict : Dict
  /-- HI_VALID (R34) -/
  hiValid : Bool
  /-- HI_BYTE (R34) -/
  hiByte : Byte
  /-- OUT_CNT (R35) -/
  outCnt : Count
  /-- D_DRAIN (R35) -/
  dDrain : Bool
  /-- D_FIN (R35) -/
  dFin : Bool
  /-- RES_E, PRED to ENC (R39, R71, R97) -/
  resE : List FlagSym
  /-- RES_D, DEC to REC (R39, R71, R98) -/
  resD : List Sym
  /-- CMD, host to CTRL (R72) -/
  cmd : List CmdWord
  /-- RSP, CTRL to host (R72, R101) -/
  rsp : List Response
  /-- PIX_IN, host to PRED (R72, R95) -/
  pixIn : List Byte
  /-- CODE_OUT, ENC to host (R72, R99) -/
  codeOut : List FlagByte
  /-- CODE_IN, host to DEC (R72, R96) -/
  codeIn : List FlagByte
  /-- PIX_OUT, REC to host (R72, R100) -/
  pixOut : List FlagByte
  /-- the model's own: whom the interleaving picks, while the list lasts (R11, log 1) -/
  sched : List Agent
  /-- the model's own: the counter `Config.freePick` and `Config.freeGap` are applied to (R11, R249, log 1) -/
  pick : Nat
  deriving DecidableEq, Repr

/-- Why the machine stops. The spec's own faults (R200) are no stops: they are next states with STATE = ERROR.
Both reasons here need a state that no run reaches (R43). -/
inductive Fault where
  /-- PIX or RESD with CH = 65535: LEFT has cells 0..65534 only (R67). Safe (log 6). -/
  | leftCellAbsent
  /-- The BYTE that completes a code, where `seq` of that code, or of S_CODE, is undefined (R62). Safe (log 7). -/
  | sequenceUndefined
  deriving DecidableEq, Repr

/-- Why the machine gives an instruction no meaning. -/
inductive Refusal where
  /-- The arm of `exec` has no meaning yet; raised by `exec` alone. Safe. -/
  | notModelled (mnemonic : String)
  deriving DecidableEq, Repr

/-- The result of a step. -/
abbrev Result := Host.Outcome State Fault Refusal

/-- The state after reset (R42). LEFT and DICT list nothing: what R42 leaves unspecified reads as zero (log 4,
log 5). The external channels are empty (log 3); `sched` and `pick` are the model's own (log 1). -/
def State.reset : State where
  rows := 0
  cols := 0
  chans := 1
  state := .idle
  err := .noFault
  job := .enc
  count := 0
  row := 0
  col := 0
  ch := 0
  left := []
  sEmpty := true
  sCode := 0
  next := 511
  dict := []
  hiValid := false
  hiByte := 0
  outCnt := 0
  dDrain := false
  dFin := false
  resE := []
  resD := []
  cmd := []
  rsp := []
  pixIn := []
  codeOut := []
  codeIn := []
  pixOut := []
  sched := []
  pick := 0

end Sys2Proof.Machine
end

