-- ==== Sys2Proof/Machine/Operands.lean ====
section
/-! DEFINITION. Operand forms and value conversions: sym9 and int9 (00_scope.md R9), the item layouts the units push (30_encoding.md R97, R99, R100), bytes of a code (R73, R103), the 26-bit row layout (20_memory.md R60). -/

namespace Sys2Proof.Machine

/-- R9: the 9-bit pattern `v mod 512`. -/
def sym9 (v : Int) : Sym := BitVec.ofInt 9 v

/-- R9: `p` if p < 256, else p - 512. -/
def int9 (p : Sym) : Int := if p.toNat < 256 then (p.toNat : Int) else (p.toNat : Int) - 512

/-- R186: the low 8 bits of an integer, `v mod 256`. -/
def mod256 (v : Int) : Byte := BitVec.ofInt 8 v

/-- R61, R103: the seed code of a symbol, `v + 255`. -/
def seedCode (v : Int) : Code := BitVec.ofInt 16 (v + 255)

/-- R73, R166: the code of a byte pair, most significant byte first: `hi x 256 + lo`. -/
def codeOfBytes (hi lo : Byte) : Code := BitVec.ofNat 16 (hi.toNat * 256 + lo.toNat)

/-- R73: `c[15:8]`. -/
def codeHigh (c : Code) : Byte := c.extractLsb' 8 8

/-- R73: `c[7:0]`. -/
def codeLow (c : Code) : Byte := c.extractLsb' 0 8

/-- R99, R100: an output item {last, byte}. -/
def flagByte (l : Bool) (b : Byte) : FlagByte := BitVec.ofBool l ++ b

/-- R97: a RES_E item {last, sym}. -/
def flagSym (l : Bool) (p : Sym) : FlagSym := BitVec.ofBool l ++ p

/-- R60: the 26 bits of a row, root in bit 25, prefix in 24:9, sym in 8:0. -/
def DictRow.toBits (r : DictRow) : BitVec 26 := BitVec.ofBool r.root ++ r.prefixCode ++ r.sym

/-- R60: the row of 26 bits. -/
def DictRow.ofBits (w : BitVec 26) : DictRow where
  root := w.getLsbD 25
  prefixCode := w.extractLsb' 9 16
  sym := w.extractLsb' 0 9

end Sys2Proof.Machine
end

