-- ==== Sys2Proof/Machine/Flags.lean ====
section
/-! DEFINITION. Encodings of STATE, ERR and JOB, the flag computations, the composed registers STATUS and DNEXT (10_state.md R24 to R28, R36) and the status lines (60_exceptions.md R214). -/

namespace Sys2Proof.Machine

/-- R24: the value of STATE. -/
def JobState.bits : JobState → BitVec 3
  | .idle => 0
  | .enc => 1
  | .dec => 2
  | .done => 3
  | .error => 4

/-- R200: the value of ERR. -/
def ErrCode.bits : ErrCode → BitVec 4
  | .noFault => 0
  | .cmd => 1
  | .busy => 2
  | .cfg => 3
  | .sym => 4
  | .badCode => 5
  | .short => 6
  | .overrun => 7

/-- R26: 0 for START_ENC, 1 for START_DEC. -/
def JobKind.bits : JobKind → BitVec 1
  | .enc => 0
  | .dec => 1

/-- R27, R36: STATUS.FULL, computed as NEXT = 65536. -/
def State.full (s : State) : Bool := decide (s.next.toNat = Config.dictCap)

/-- R27, R123: STATUS, {0b0000000, FULL, ERR, JOB, STATE}. -/
def State.status (s : State) : Response :=
  0#7 ++ BitVec.ofBool s.full ++ s.err.bits ++ s.job.bits ++ s.state.bits

/-- R28, R123: DNEXT, `NEXT[15:0]`. -/
def State.dnext (s : State) : Response := s.next.extractLsb' 0 16

/-- R214: the line busy. -/
def State.busy (s : State) : Bool := decide (s.state = .enc ∨ s.state = .dec)

/-- R214: the line done. -/
def State.doneLine (s : State) : Bool := decide (s.state = .done)

/-- R214: the line error. -/
def State.errorLine (s : State) : Bool := decide (s.state = .error)

/-- R124, check 4: ROWS = 0 or COLS = 0 or CHANS = 0. -/
def State.zeroDimension (s : State) : Bool := decide (s.rows = 0 ∨ s.cols = 0 ∨ s.chans = 0)

/-- R31: `at_last()`, evaluated before `advance()`. -/
def State.atLast (s : State) : Bool :=
  decide (s.row.toNat + 1 = s.rows.toNat ∧ s.col.toNat + 1 = s.cols.toNat ∧ s.ch.toNat + 1 = s.chans.toNat)

/-- R131: REC has handled every position. -/
def State.walkDone (s : State) : Bool := decide (s.row = s.rows)

end Sys2Proof.Machine
end

