-- ==== Sys2Proof/Machine/Ops.lean ====
section
/-! DEFINITION. The shared operations: the two memories in canonical form (20_memory.md R60 to R67), the raster walker (10_state.md R31), the dictionary's seq, first, len, lookup and insert (R62, R64, R65), the output pushes (42_encoder.md R152), init_job (40_control.md R126), the fault entry `raise` (60_exceptions.md R210) and ABORT, the way back from ERROR (R127, R216). -/

namespace Sys2Proof.Machine

/-! ### Sparse memories in canonical form -/

/-- What a memory holds at an address: the listed value, else what an unlisted address reads as. -/
def tableRead {α : Type} (d : Nat → α) : List (Nat × α) → Nat → α
  | [], a => d a
  | (b, v) :: rest, a => if a = b then v else tableRead d rest a

/-- Write one address, keeping the list sorted and without entries equal to what an unlisted address reads as. -/
def tableWrite {α : Type} [DecidableEq α] (d : Nat → α) : List (Nat × α) → Nat → α → List (Nat × α)
  | [], a, v => if v = d a then [] else [(a, v)]
  | (b, w) :: rest, a, v =>
    if a < b then (if v = d a then (b, w) :: rest else (a, v) :: (b, w) :: rest)
    else if a = b then (if v = d a then rest else (a, v) :: rest)
    else (b, w) :: tableWrite d rest a v

/-- The canonical form: addresses strictly rising and in lo ≤ a < hi, no entry equal to what an unlisted address reads as. -/
def tableWf {α : Type} [DecidableEq α] (d : Nat → α) (lo hi : Nat) : List (Nat × α) → Bool
  | [] => true
  | (a, v) :: rest =>
    decide (lo ≤ a) && decide (a < hi) && decide (v ≠ d a) && rest.all (fun c => decide (a < c.1)) && tableWf d lo hi rest

/-! ### LEFT -/

/-- DESIGN CHOICE (log 4), unsafe: what a LEFT cell that nothing has written reads as. R37 leaves it unspecified and no
rule reads such a cell (R68); 93_implementation_defined.md I11 lets a model fix it at 0. -/
def leftDefault (_ : Nat) : Byte := 0

/-- R67: the cell LEFT[k]. -/
def Memory.read (m : Memory) (k : Nat) : Byte := tableRead leftDefault m k

/-- R67: write LEFT[k]. -/
def Memory.write (m : Memory) (k : Nat) (v : Byte) : Memory := tableWrite leftDefault m k v

/-- The canonical form of LEFT: cells 0..65534 (R67). -/
def Memory.wf (m : Memory) : Bool := tableWf leftDefault 0 Config.leftCells m

/-- R67: the cell LEFT[CH] exists: CH ≤ 65534 (log 6). -/
def State.leftCellExists (s : State) : Bool := decide (s.ch.toNat < Config.leftCells)

/-! ### DICT -/

/-- R61: the hardwired row i, 0 ≤ i ≤ 510: {root = 1, prefix = 0, sym = sym9(i - 255)}. -/
def seedRow (i : Nat) : DictRow where
  root := true
  prefixCode := 0
  sym := sym9 ((i : Int) - 255)

/-- DESIGN CHOICE (log 5), unsafe: what a row 511..65535 that nothing has written reads as. R38 leaves it unspecified and
no rule reads such a row; 93_implementation_defined.md I10 lets a model fix it at 0. -/
def dictDefault (_ : Nat) : DictRow where
  root := false
  prefixCode := 0
  sym := 0

/-- R60, R61: the row DICT[c]; rows 0..510 are hardwired. -/
def Dict.row (d : Dict) (c : Nat) : DictRow := if c < Config.nSeed then seedRow c else tableRead dictDefault d c

/-- R60, R61: write DICT[c]; rows 0..510 are never written. -/
def Dict.write (d : Dict) (c : Nat) (r : DictRow) : Dict :=
  if c < Config.nSeed then d else tableWrite dictDefault d c r

/-- The canonical form of DICT: the listed rows are among 511..65535 (R38). -/
def Dict.wf (d : Dict) : Bool := tableWf dictDefault Config.nSeed Config.dictCap d

/-- R62: `seq` by the prefix chain, as integers. The recursion ends because a prefix is smaller than its row's own number
(R43 item 4); where a row breaks that, or the bound runs out, there is no sequence. -/
def chainSeq (d : Dict) : Nat → Nat → Option (List Int)
  | 0, _ => none
  | bound + 1, c =>
    if (d.row c).root then some [int9 (d.row c).sym]
    else if (d.row c).prefixCode.toNat < c then
      (chainSeq d bound (d.row c).prefixCode.toNat).map (fun l => l ++ [int9 (d.row c).sym])
    else none

/-- R62: `first` by the prefix chain. -/
def chainFirst (d : Dict) : Nat → Nat → Option Int
  | 0, _ => none
  | bound + 1, c =>
    if (d.row c).root then some (int9 (d.row c).sym)
    else if (d.row c).prefixCode.toNat < c then chainFirst d bound (d.row c).prefixCode.toNat
    else none

/-- R62: `len` by the prefix chain. -/
def chainLen (d : Dict) : Nat → Nat → Option Nat
  | 0, _ => none
  | bound + 1, c =>
    if (d.row c).root then some 1
    else if (d.row c).prefixCode.toNat < c then (chainLen d bound (d.row c).prefixCode.toNat).map (fun n => n + 1)
    else none

/-- R33: a code is valid exactly when it is less than NEXT. -/
def State.validCode (s : State) (c : Code) : Bool := decide (c.toNat < s.next.toNat)

/-- R62: `seq(c)`; undefined for a code that is not valid. -/
def State.seq (s : State) (c : Code) : Option (List Int) :=
  if s.validCode c then chainSeq s.dict (c.toNat + 1) c.toNat else none

/-- R62: `first(c)`; undefined for a code that is not valid. -/
def State.first (s : State) (c : Code) : Option Int :=
  if s.validCode c then chainFirst s.dict (c.toNat + 1) c.toNat else none

/-- R62: `len(c)`; undefined for a code that is not valid. -/
def State.len (s : State) (c : Code) : Option Nat :=
  if s.validCode c then chainLen s.dict (c.toNat + 1) c.toNat else none

/-- R64: does row c match `lookup(e, p, b)`? -/
def rowMatches (d : Dict) (e : Bool) (p : Code) (b : Int) (c : Nat) : Bool :=
  if e then (d.row c).root && decide ((d.row c).sym = sym9 b)
  else !(d.row c).root && decide ((d.row c).prefixCode = p) && decide ((d.row c).sym = sym9 b)

/-- The lowest of the `count` numbers from `start` up that satisfies `f`. -/
def lowestFrom (f : Nat → Bool) : Nat → Nat → Option Nat
  | 0, _ => none
  | count + 1, start => if f start then some start else lowestFrom f count (start + 1)

/-- The number of rows that are valid and exist: NEXT, at most 65536 (R33, R60). -/
def State.rowCount (s : State) : Nat := min s.next.toNat Config.dictCap

/-- R64: the associative lookup over every valid row; of several matches the lowest (D26). -/
def State.lookup (s : State) (e : Bool) (p : Code) (b : Int) : Option Code :=
  (lowestFrom (rowMatches s.dict e p b) s.rowCount 0).map (BitVec.ofNat 16)

/-- R65: `insert(p, b)`; nothing when the dictionary is full. -/
def State.insert (s : State) (p : Code) (b : Int) : State :=
  { s with
    dict := if s.next.toNat < Config.dictCap then
        s.dict.write s.next.toNat { root := false, prefixCode := p, sym := sym9 b } else s.dict
    next := if s.next.toNat < Config.dictCap then s.next + 1 else s.next }

/-! ### The raster walker -/

/-- R31: CH + 1 = CHANS, the channel wraps. -/
def State.chWraps (s : State) : Bool := decide (s.ch.toNat + 1 = s.chans.toNat)

/-- R31: the channel wraps and COL + 1 = COLS, the column wraps. -/
def State.colWraps (s : State) : Bool := s.chWraps && decide (s.col.toNat + 1 = s.cols.toNat)

/-- R31: `advance()`. -/
def State.advance (s : State) : State :=
  { s with
    ch := if s.chWraps then 0 else s.ch + 1
    col := if s.colWraps then 0 else if s.chWraps then s.col + 1 else s.col
    row := if s.colWraps then s.row + 1 else s.row }

/-! ### Output -/

/-- R152: `emit16(c, l)`, most significant byte first, `last` on the second item only. -/
def State.emit16 (s : State) (c : Code) (l : Bool) : State :=
  { s with codeOut := s.codeOut ++ [flagByte false (codeHigh c), flagByte l (codeLow c)] }

/-- R123: push a value on RSP. -/
def State.respond (s : State) (v : Response) : State := { s with rsp := s.rsp ++ [v] }

/-! ### Jobs, faults and the way back -/

/-- R126: `init_job()`. DICT rows and LEFT cells are not cleared. -/
def State.initJob (s : State) : State :=
  { s with
    count := BitVec.ofNat 48 (s.rows.toNat * s.cols.toNat * s.chans.toNat)
    row := 0, col := 0, ch := 0
    next := 511
    sEmpty := true, sCode := 0
    hiValid := false, hiByte := 0
    outCnt := 0, dDrain := false, dFin := false
    resE := [], resD := []
    err := .noFault }

/-- R125, R129: `init_job()`, then JOB and STATE. -/
def State.startEncode (s : State) : State := { s.initJob with job := .enc, state := .enc }

/-- R129. -/
def State.startDecode (s : State) : State := { s.initJob with job := .dec, state := .dec }

/-- TAKING A FAULT, R210: the item stays popped, every other effect of the step is undone, STATE and ERR are written.
`s` is the state just after the pop, so nothing of the step's is left to undo. -/
def State.raise (s : State) (e : ErrCode) : State := { s with state := .error, err := e }

/-- THE WAY BACK, R127, R216: ABORT. ROWS, COLS, CHANS and JOB keep their values. -/
def State.abortJob (s : State) : State :=
  { s with
    state := .idle
    err := .noFault
    row := 0, col := 0, ch := 0, count := 0
    next := 511, sEmpty := true, sCode := 0
    hiValid := false, hiByte := 0
    outCnt := 0, dDrain := false, dFin := false
    resE := [], resD := [] }

/-- R124 for a WR: discarded in ERROR, ERR_BUSY during a job, else performed. -/
def State.guardWrite (s : State) (written : State) : State :=
  if s.state = .error then s else if s.busy then s.raise .busy else written

/-- R124 for a START: discarded in ERROR, ERR_BUSY during a job, ERR_CFG on a zero dimension, else performed. -/
def State.guardStart (s : State) (started : State) : State :=
  if s.state = .error then s else if s.busy then s.raise .busy
  else if s.zeroDimension then s.raise .cfg else started

end Sys2Proof.Machine
end

