-- ==== Sys2Proof/Machine/Agents.lean ====
section
/-! DEFINITION. The agents: when each is enabled (R120, R140, R150, R165, R185), which one steps next (R11, R75, log 1) under weak fairness (R249), and the pop of its item (R70). Then the placing of one item where the next step takes it (log 10). -/

namespace Sys2Proof.Machine

/-- When an agent may step: CTRL R120, PRED R140, ENC R150, DEC R165, REC R185. -/
def Agent.enabled (a : Agent) (s : State) : Bool :=
  match a with
  | .ctrl => !s.cmd.isEmpty
  | .pred => decide (s.state = .enc) && decide (s.row.toNat < s.rows.toNat) && !s.pixIn.isEmpty
  | .enc => decide (s.state = .enc) && !s.resE.isEmpty
  | .dec => decide (s.state = .dec) && !s.dFin && !s.codeIn.isEmpty
  | .recon => decide (s.state = .dec) && decide (s.row.toNat < s.rows.toNat) && !s.resD.isEmpty

/-- The enabled agents. -/
def State.enabledAgents (s : State) : List Agent :=
  [Agent.ctrl, .pred, .enc, .dec, .recon].filter (fun a => a.enabled s)

/-- The turns of weak fairness (R249, log 1): (k, w) says that at this pick k turns have been given and the next comes after
w more picks; that number is free again after each turn. -/
def turnAt : Nat → Nat × Nat
  | 0 => (0, Config.freeGap 0)
  | n + 1 =>
    match turnAt n with
    | (k, 0) => (k + 1, Config.freeGap (k + 1))
    | (k, w + 1) => (k, w)

/-- The agents have their turns one after the other. -/
def turnAgent (k : Nat) : Agent :=
  if k % 5 = 0 then .ctrl else if k % 5 = 1 then .pred else if k % 5 = 2 then .enc else if k % 5 = 3 then .dec else .recon

/-- R249: the agent whose turn it is at this pick, if it is one of those enabled; at every other pick the free value chooses. -/
def fairAgent (pick : Nat) (among : List Agent) : Option Agent :=
  if (turnAt pick).2 = 0 ∧ turnAgent (turnAt pick).1 ∈ among then some (turnAgent (turnAt pick).1)
  else among[Config.freePick pick % among.length]?

/-- The open choice among several: the head of `sched` if it names one of them, else a fair free choice (R11, R249, log 1). -/
def State.freeAgent (s : State) (among : List Agent) : Option Agent :=
  match s.sched with
  | a :: _ => if a ∈ among then some a else fairAgent s.pick among
  | [] => fairAgent s.pick among

/-- The agent that steps next: none when none is enabled, the one enabled agent when there is one, else an open choice (R11). -/
def State.chosen (s : State) : Option Agent :=
  match s.enabledAgents with
  | [] => none
  | [a] => some a
  | a :: b :: more => s.freeAgent (a :: b :: more)

/-- `pop`: the head item of the agent's channel, and the state without it (R10, R70). -/
def State.fetch (s : State) : Agent → Option (Item × State)
  | .ctrl => match s.cmd with
    | [] => none
    | w :: rest => some (.cmd w, { s with cmd := rest })
  | .pred => match s.pixIn with
    | [] => none
    | w :: rest => some (.pixIn w, { s with pixIn := rest })
  | .enc => match s.resE with
    | [] => none
    | w :: rest => some (.resE w, { s with resE := rest })
  | .dec => match s.codeIn with
    | [] => none
    | w :: rest => some (.codeIn w, { s with codeIn := rest })
  | .recon => match s.resD with
    | [] => none
    | w :: rest => some (.resD w, { s with resD := rest })

/-- The model's own two fields move on at every step: one entry of `sched` is used up and `pick` is counted (log 1). -/
def State.nextPick (s : State) : State := { s with sched := s.sched.tail, pick := s.pick + 1 }

/-- The agent that owns an item's channel (R90). -/
def itemAgent : Item → Agent
  | .cmd _ => .ctrl
  | .pixIn _ => .pred
  | .codeIn _ => .dec
  | .resE _ => .enc
  | .resD _ => .recon

/-- A dimension a START accepts: 1 in place of 0 (R124). -/
def nonZeroDim (n : Dim) : Dim := if n = 0 then 1 else n

/-- The dimensions made acceptable to a START. -/
def State.withDims (s : State) : State :=
  { s with rows := nonZeroDim s.rows, cols := nonZeroDim s.cols, chans := nonZeroDim s.chans }

/-- A state in which the item's agent is enabled once the item is on its channel: `s` itself if it is one, else `s` with
the job started that the agent works in (R125, R129, log 10). -/
def State.readyFor (s : State) : Item → State
  | .cmd _ => s
  | .pixIn _ => if s.state = .enc ∧ s.row.toNat < s.rows.toNat then s else s.withDims.startEncode
  | .resE _ => if s.state = .enc then s else s.withDims.startEncode
  | .codeIn _ => if s.state = .dec ∧ s.dFin = false then s else s.withDims.startDecode
  | .resD _ => if s.state = .dec ∧ s.row.toNat < s.rows.toNat then s else s.withDims.startDecode

/-- The item at the head of its channel. -/
def State.putFirst (s : State) : Item → State
  | .cmd w => { s with cmd := w :: s.cmd }
  | .pixIn w => { s with pixIn := w :: s.pixIn }
  | .codeIn w => { s with codeIn := w :: s.codeIn }
  | .resE w => { s with resE := w :: s.resE }
  | .resD w => { s with resD := w :: s.resD }

/-- The state in which the very next step takes exactly this item: it is first on its channel, its agent is enabled, and
the schedule names that agent. -/
def State.withItem (s : State) (item : Item) : State :=
  { (s.readyFor item).putFirst item with sched := itemAgent item :: s.sched }

end Sys2Proof.Machine
end

