-- ==== Sys2Proof/Machine/Control.lean ====
section
/-! DEFINITION. The meanings of the CMD transactions NOP, WR, RD, START_ENC, START_DEC, ABORT, and of an illegal command word (40_control.md R120 to R129). The state given is the state just after the word was popped. -/

namespace Sys2Proof.Machine

/-- R121: NOP does nothing, in every STATE. -/
def execNop (s : State) : Result := .next s

/-- R122: WR ROWS, n. -/
def execWrRows (n : Dim) (s : State) : Result := .next (s.guardWrite { s with rows := n })

/-- R122: WR COLS, n. -/
def execWrCols (n : Dim) (s : State) : Result := .next (s.guardWrite { s with cols := n })

/-- R122: WR CHANS, n. -/
def execWrChans (n : Dim) (s : State) : Result := .next (s.guardWrite { s with chans := n })

/-- R123: RD ROWS, allowed in every STATE. -/
def execRdRows (s : State) : Result := .next (s.respond s.rows)

/-- R123: RD COLS, allowed in every STATE. -/
def execRdCols (s : State) : Result := .next (s.respond s.cols)

/-- R123: RD CHANS, allowed in every STATE. -/
def execRdChans (s : State) : Result := .next (s.respond s.chans)

/-- R123, R27: RD STATUS, allowed in every STATE, the value at the instant of the step. -/
def execRdStatus (s : State) : Result := .next (s.respond s.status)

/-- R123, R28: RD DNEXT, allowed in every STATE, the value at the instant of the step. -/
def execRdDnext (s : State) : Result := .next (s.respond s.dnext)

/-- R125: START_ENC. -/
def execStartEnc (s : State) : Result := .next (s.guardStart s.startEncode)

/-- R129: START_DEC. -/
def execStartDec (s : State) : Result := .next (s.guardStart s.startDecode)

/-- R127: ABORT, allowed in every STATE. -/
def execAbort (s : State) : Result := .next s.abortJob

/-- R128, R124: an illegal command word raises ERR_CMD, or is discarded in ERROR. -/
def illegalCommand (s : State) : Result := .next (if s.state = .error then s else s.raise .cmd)

end Sys2Proof.Machine
end

