-- ==== Sys2Proof/Machine/Decoder.lean ====
section
/-! DEFINITION. The meanings of BYTE and EOS (43_decoder.md R166, R167, R176). The state given is the state just after the item was popped; when DEC may pop is R165 (`Agent.enabled`, log 11). -/

namespace Sys2Proof.Machine

/-- What R167 makes of a code: FIRST, KNOWN or SPECIAL. -/
inductive CodeKind where
  | first | known | special
  deriving DecidableEq, Repr

/-- R167 step 1: classify; none is ERR_BADCODE (R173). -/
def State.classify (s : State) (k : Code) : Option CodeKind :=
  if s.sEmpty then (if s.validCode k then some .first else none)
  else if s.validCode k then some .known
  else if k.toNat = s.next.toNat then some .special
  else none

/-- R167 step 2: the length of the sequence T of the code. -/
def State.codeLength (s : State) (k : Code) : CodeKind → Option Nat
  | .first => s.len k
  | .known => s.len k
  | .special => (s.len s.sCode).map (fun n => n + 1)

/-- R167 step 3: the dictionary update. -/
def State.codeUpdate (s : State) (k : Code) : CodeKind → Option State
  | .first => some s
  | .known => (s.first k).map (fun b => s.insert s.sCode b)
  | .special => (s.first s.sCode).map (fun b => s.insert s.sCode b)

/-- R167 steps 4 and 5: output T, count it, remember the code as S, and drain once the count is reached (R172). -/
def State.output (s : State) (k : Code) (n : Nat) (t : List Int) : State :=
  { s with
    resD := s.resD ++ t.map sym9
    outCnt := BitVec.ofNat 48 (s.outCnt.toNat + n)
    sEmpty := false
    sCode := k
    dDrain := s.dDrain || decide (s.outCnt.toNat + n = s.count.toNat) }

/-- R167: `process_code(k)`, run in the state `s` just after the pop. On success HI_VALID is cleared too (R166); on a
fault it keeps its value (R166, R210). A sequence that R62 does not define stops the machine (log 7). -/
def State.processCode (s : State) (k : Code) : Result :=
  match s.classify k with
  | none => .next (s.raise .badCode)
  | some kind =>
    match s.codeLength k kind with
    | none => .fault .sequenceUndefined
    | some n =>
      if s.count.toNat < s.outCnt.toNat + n then .next (s.raise .overrun)
      else
        match s.codeUpdate k kind with
        | none => .fault .sequenceUndefined
        | some u =>
          match u.seq k with
          | none => .fault .sequenceUndefined
          | some t => .next ({ u with hiValid := false }.output k n t)

/-- R166: BYTE n. -/
def execByte (n : Byte) (s : State) : Result :=
  if s.dDrain then .next s
  else if s.hiValid then s.processCode (codeOfBytes s.hiByte n)
  else .next { s with hiByte := n, hiValid := true }

/-- R176: EOS. -/
def execEos (s : State) : Result :=
  if s.dDrain then .next { s with dFin := true, state := if s.walkDone then .done else s.state }
  else .next (s.raise .short)

end Sys2Proof.Machine
end

