-- ==== Sys2Proof/Machine/Encoder.lean ====
section
/-! DEFINITION. The meaning of RES (42_encoder.md R154 to R158). The state given is the state just after the item was popped; when ENC may pop is R150 (`Agent.enabled`, log 11). -/

namespace Sys2Proof.Machine

/-- R154, the case of the lookup: extend S on a hit; on a miss emit S, insert the candidate, restart S at [b]. -/
def State.matchSymbol (s : State) (b : Int) : State :=
  match s.lookup s.sEmpty s.sCode b with
  | some c => { s with sEmpty := false, sCode := c }
  | none => { (s.emit16 s.sCode false).insert s.sCode b with sCode := seedCode b }

/-- R155: on the last residual the code of S is emitted with `last` and the job completes. -/
def State.finishEncode (s : State) (last : Bool) : State :=
  { s with
    codeOut := if last then (s.emit16 s.sCode true).codeOut else s.codeOut
    state := if last then .done else s.state }

/-- R154, R156: RES {last, sym}. -/
def execRes (last : Bool) (sym : Sym) (s : State) : Result :=
  if sym = 0x100#9 then .next (s.raise .sym)
  else .next ((s.matchSymbol (int9 sym)).finishEncode last)

end Sys2Proof.Machine
end

