-- ==== Sys2Proof/Machine/Predictor.lean ====
section
/-! DEFINITION. The meaning of PIX (41_predictor.md R141). The state given is the state just after the sample was popped; when PRED may pop is R140 (`Agent.enabled`, log 11). -/

namespace Sys2Proof.Machine

/-- R141, R142: the residual of sample x, plain integer subtraction; the raw sample at column 0. -/
def State.residual (s : State) (x : Byte) : Int :=
  if s.col = 0 then (x.toNat : Int) else (x.toNat : Int) - ((s.left.read s.ch.toNat).toNat : Int)

/-- R141: PIX x. A cell LEFT[CH] that does not exist stops the machine (log 6). -/
def execPix (x : Byte) (s : State) : Result :=
  if s.leftCellExists then
    .next ({ s with
      left := s.left.write s.ch.toNat x
      resE := s.resE ++ [flagSym s.atLast (sym9 (s.residual x))] }).advance
  else .fault .leftCellAbsent

end Sys2Proof.Machine
end

