-- ==== Sys2Proof/Machine/Reconstructor.lean ====
section
/-! DEFINITION. The meaning of RESD (44_reconstructor.md R186). The state given is the state just after the item was popped; when REC may pop is R185 (`Agent.enabled`, log 11). -/

namespace Sys2Proof.Machine

/-- R186, R188: the sample of residual r, modulo 256; at column 0 the residual itself modulo 256. -/
def State.sample (s : State) (r : Int) : Byte :=
  if s.col = 0 then mod256 r else mod256 (((s.left.read s.ch.toNat).toNat : Int) + r)

/-- R131: the decode job completes when every position is handled and EOS has been consumed. -/
def State.finishDecode (s : State) : State :=
  { s with state := if s.walkDone && s.dFin then .done else s.state }

/-- R186: RESD sym. A cell LEFT[CH] that does not exist stops the machine (log 6). -/
def execResd (sym : Sym) (s : State) : Result :=
  if s.leftCellExists then
    .next ({ s with
      left := s.left.write s.ch.toNat (s.sample (int9 sym))
      pixOut := s.pixOut ++ [flagByte s.atLast (s.sample (int9 sym))] }).advance.finishDecode
  else .fault .leftCellAbsent

end Sys2Proof.Machine
end

