-- ==== Sys2Proof/Machine/Dispatch.lean ====
section
/-! DEFINITION. The meaning of each transaction, one arm per constructor of Instr. -/

namespace Sys2Proof.Machine

def exec (i : Instr) (s : State) : Host.Outcome State Fault Refusal :=
  match i with
  | .nop => Sys2Proof.Machine.execNop s
  | .wrRows n => Sys2Proof.Machine.execWrRows n s
  | .wrCols n => Sys2Proof.Machine.execWrCols n s
  | .wrChans n => Sys2Proof.Machine.execWrChans n s
  | .rdRows => Sys2Proof.Machine.execRdRows s
  | .rdCols => Sys2Proof.Machine.execRdCols s
  | .rdChans => Sys2Proof.Machine.execRdChans s
  | .rdStatus => Sys2Proof.Machine.execRdStatus s
  | .rdDnext => Sys2Proof.Machine.execRdDnext s
  | .startEnc => Sys2Proof.Machine.execStartEnc s
  | .startDec => Sys2Proof.Machine.execStartDec s
  | .abort => Sys2Proof.Machine.execAbort s
  | .pix x => Sys2Proof.Machine.execPix x s
  | .byte n => Sys2Proof.Machine.execByte n s
  | .eos => Sys2Proof.Machine.execEos s
  | .res last sym => Sys2Proof.Machine.execRes last sym s
  | .resd sym => Sys2Proof.Machine.execResd sym s

end Sys2Proof.Machine
end

