-- ==== Sys2Proof/Machine/Step.lean ====
section
/-! DEFINITION. One step of the block: one agent pops one item and performs its transaction (00_scope.md R11). -/

namespace Sys2Proof.Machine

/-- An item that has just been popped: the transaction the decoder reads from it, or the rule of an illegal word (R124). -/
def performItem (item : Item) (s : State) : Result :=
  match decode item with
  | .ok i => exec i s
  | .error _ => illegalCommand s

/-- The step of one agent: pop, then perform (R11). An agent with no item does nothing. -/
def agentStep (a : Agent) (s : State) : Result :=
  match s.fetch a with
  | none => .next s
  | some (item, t) => performItem item t.nextPick

/-- One step of the block (R11). When no agent is enabled the block waits for the host and nothing changes (R132, log 2). -/
def step (s : State) : Host.Outcome State Fault Refusal :=
  match s.chosen with
  | none => .next s
  | some a => agentStep a s

/-- `s` with a table word's item where the next step takes it (log 9, log 10); `s` itself where the word is no item. -/
def State.withFetchWord (s : State) (nbits w : Nat) : State :=
  match tableItem nbits w with
  | none => s
  | some item => s.withItem item

end Sys2Proof.Machine
end

