-- ==== Sys2Proof/Machine/HostPort.lean ====
section
/-! DEFINITION. What the host can do to the block between two steps (70_reset_and_hazards.md R230, R231, R241, R251; 20_memory.md R72), and the script notation with its pseudo-transactions (30_encoding.md R107, R108; log 15). -/

namespace Sys2Proof.Machine

/-- R230, R231: the reset event. Every register, flag and internal channel takes its value of R42; DICT, LEFT and the
external channels (R241) stay, and so do the model's own two fields. -/
def State.resetEvent (s : State) : State :=
  { State.reset with
    left := s.left, dict := s.dict
    cmd := s.cmd, rsp := s.rsp, pixIn := s.pixIn, codeOut := s.codeOut, codeIn := s.codeIn, pixOut := s.pixOut
    sched := s.sched, pick := s.pick }

/-- R70: append an item at the tail of its channel. The host pushes on CMD, PIX_IN and CODE_IN; on the internal channels
only a test harness does (95_test_vectors.md). -/
def State.push (s : State) : Item → State
  | .cmd w => { s with cmd := s.cmd ++ [w] }
  | .pixIn w => { s with pixIn := s.pixIn ++ [w] }
  | .codeIn w => { s with codeIn := s.codeIn ++ [w] }
  | .resE w => { s with resE := s.resE ++ [w] }
  | .resD w => { s with resD := s.resD ++ [w] }

/-- The moves of R251: the host pushes on three ports, takes from three, may cause reset, and removes what a job that is over
left on PIX_IN and CODE_IN (R241). -/
inductive HostMove where
  | pushCmd (w : CmdWord)
  | pushPix (w : Byte)
  | pushCode (w : FlagByte)
  | takeRsp
  | takeCodeOut
  | takePixOut
  | dropPix
  | dropCode
  | reset
  deriving DecidableEq, Repr

/-- R241, R233: the host removes a sample left over on PIX_IN. DESIGN CHOICE (log 15): it can while STATE is not ENC, since
during the job it must not pop on the block's behalf (R251). -/
def State.dropPix (s : State) : State := if s.state = .enc then s else { s with pixIn := s.pixIn.tail }

/-- R241, R233: the host removes a byte or an EOS left over on CODE_IN. DESIGN CHOICE (log 15): it can while STATE is not DEC. -/
def State.dropCode (s : State) : State := if s.state = .dec then s else { s with codeIn := s.codeIn.tail }

/-- A host move, between two steps. Taking or removing from an empty port does nothing. -/
def State.hostMove (s : State) : HostMove → State
  | .pushCmd w => s.push (.cmd w)
  | .pushPix w => s.push (.pixIn w)
  | .pushCode w => s.push (.codeIn w)
  | .takeRsp => { s with rsp := s.rsp.tail }
  | .takeCodeOut => { s with codeOut := s.codeOut.tail }
  | .takePixOut => { s with pixOut := s.pixOut.tail }
  | .dropPix => s.dropPix
  | .dropCode => s.dropCode
  | .reset => s.resetEvent

/-- The lines of a script (R107). -/
inductive ScriptLine where
  /-- a transaction's line: push its item on its channel -/
  | push (i : Instr)
  /-- WORD w: push the raw word on CMD -/
  | word (w : CmdWord)
  /-- RESET: the reset event -/
  | reset
  /-- WAIT: no more pushes until no agent is enabled -/
  | wait
  deriving DecidableEq, Repr

/-- R108: DIMS r, c, k. -/
def scriptDims (r c k : Dim) : List ScriptLine := [.push (.wrRows r), .push (.wrCols c), .push (.wrChans k)]

/-- R108: CODE n, `BYTE n >> 8` then `BYTE n AND 255`. -/
def scriptCode (n : Code) : List ScriptLine := [.push (.byte (codeHigh n)), .push (.byte (codeLow n))]

/-- R108: PIXELS a b c ... -/
def scriptPixels (l : List Byte) : List ScriptLine := l.map (fun a => .push (.pix a))

/-- R108: CODES a b c ... -/
def scriptCodes : List Code → List ScriptLine
  | [] => []
  | n :: rest => scriptCode n ++ scriptCodes rest

/-- Steps until no agent is enabled, at most `bound` of them (log 15). -/
def runQuiet : Nat → State → Result
  | 0, s => .next s
  | bound + 1, s =>
    match s.chosen with
    | none => .next s
    | some a =>
      match agentStep a s with
      | .next t => runQuiet bound t
      | .fault f => .fault f
      | .refused r => .refused r

/-- A script line: a push, the reset event, or the steps of a WAIT. -/
def runLine (bound : Nat) (line : ScriptLine) (s : State) : Result :=
  match line with
  | .push i => .next (s.push (encode i))
  | .word w => .next (s.push (.cmd w))
  | .reset => .next s.resetEvent
  | .wait => runQuiet bound s

/-- So many steps of the block. -/
def runSteps : Nat → State → Result
  | 0, s => .next s
  | n + 1, s =>
    match step s with
    | .next t => runSteps n t
    | .fault f => .fault f
    | .refused r => .refused r

/-- A script, line by line, stopping where a step stops. R107 does not say how many steps the agents take between one line and
the next when no WAIT stands there (R11, R230). DESIGN CHOICE (log 15): `gaps` says it, after the first line, the second and
so on, and none are taken past its end; a claim about scripts holds for every `gaps`. -/
def runScript (bound : Nat) : List Nat → List ScriptLine → State → Result
  | _, [], s => .next s
  | gaps, line :: rest, s =>
    match runLine bound line s with
    | .next t =>
      match runSteps (gaps.headD 0) t with
      | .next u => runScript bound gaps.tail rest u
      | .fault f => .fault f
      | .refused r => .refused r
    | .fault f => .fault f
    | .refused r => .refused r

end Sys2Proof.Machine
end

