-- ==== Sys2Proof/Safety.lean ====
section
/-! DEFINITION. The terms the claims are stated in: the invariant of every reachable state (10_state.md R43 and the rules it rests on), the raster position (00_scope.md R12), what of LEFT and DICT is live (R37, R38), an encoder and a decoder in step (20_memory.md R79), a list of transactions performed one after the other, a run with the moves of the host (70_reset_and_hazards.md R249, R251). -/

namespace Sys2Proof.Machine

/-- A job runs (R24). -/
def State.Running (s : State) : Prop := s.state = .enc ∨ s.state = .dec

/-- R12: the raster position `(r x COLS + c) x CHANS + k` of the sample that comes next. -/
def State.position (s : State) : Nat :=
  (s.row.toNat * s.cols.toNat + s.col.toNat) * s.chans.toNat + s.ch.toNat

/-- R30, the walker's own invariant while a job runs. -/
structure State.WalkerLegal (s : State) : Prop where
  rowLe : s.row.toNat ≤ s.rows.toNat
  colLt : s.col.toNat < s.cols.toNat
  chLt : s.ch.toNat < s.chans.toNat
  atEnd : s.row = s.rows → s.col = 0 ∧ s.ch = 0

/-- What of the invariant the dictionary operations need: R43 items 1, 3 and 4, legal symbols (R102), and the canonical form. -/
structure State.DictLegal (s : State) : Prop where
  /-- R43.1 -/
  nextRange : 511 ≤ s.next.toNat ∧ s.next.toNat ≤ 65536
  /-- R43.3 -/
  matchValid : s.sEmpty = false → s.sCode.toNat < s.next.toNat
  /-- R43.4 -/
  rowsGrounded : ∀ c, 511 ≤ c → c < s.next.toNat → (s.dict.row c).root = false ∧ (s.dict.row c).prefixCode.toNat < c
  /-- R102 -/
  rowSymbols : ∀ c, 511 ≤ c → c < s.next.toNat → isSymbol (s.dict.row c).sym = true
  /-- the canonical form of DICT -/
  dictWf : s.dict.wf = true

/-- The invariant of every reachable state. The fields named R43.<n> are the items of that list (item 5 follows from
item 4); the others are what the rules cited say besides. -/
structure State.Inv (s : State) : Prop where
  /-- R43.1 -/
  nextRange : 511 ≤ s.next.toNat ∧ s.next.toNat ≤ 65536
  /-- R43.2 -/
  errExactly : s.err ≠ .noFault ↔ s.state = .error
  /-- R43.3 -/
  matchValid : s.sEmpty = false → s.sCode.toNat < s.next.toNat
  /-- R167: before the first code of a job, and before its first residual, the dictionary is the seeds -/
  emptyFresh : s.sEmpty = true → s.next = 511
  /-- R43.4 -/
  rowsGrounded : ∀ c, 511 ≤ c → c < s.next.toNat → (s.dict.row c).root = false ∧ (s.dict.row c).prefixCode.toNat < c
  /-- R43.6 -/
  keysUnique : s.state = .enc → ∀ c x, 511 ≤ c → c < x → x < s.next.toNat →
    (s.dict.row c).prefixCode ≠ (s.dict.row x).prefixCode ∨ (s.dict.row c).sym ≠ (s.dict.row x).sym
  /-- R43.7 -/
  jobDims : s.Running → 1 ≤ s.rows.toNat ∧ 1 ≤ s.cols.toNat ∧ 1 ≤ s.chans.toNat ∧
    s.count.toNat = s.rows.toNat * s.cols.toNat * s.chans.toNat
  /-- R43.8 -/
  outCount : s.outCnt.toNat ≤ s.count.toNat ∧ (s.dDrain = true → s.outCnt = s.count) ∧ (s.dFin = true → s.dDrain = true)
  /-- R43.9 -/
  encQuiet : s.state = .enc →
    s.hiValid = false ∧ s.outCnt = 0 ∧ s.dDrain = false ∧ s.dFin = false ∧ s.resD = []
  /-- R43.9 -/
  decQuiet : s.state = .dec → s.resE = []
  /-- R35: D_DRAIN = 1 exactly when OUT_CNT = COUNT in a decode job -/
  drainExactly : s.state = .dec → (s.dDrain = true ↔ s.outCnt = s.count)
  /-- R74: HI_VALID = 1 implies D_DRAIN = 0 -/
  pairHeld : s.hiValid = true → s.dDrain = false
  /-- R30 -/
  walker : s.Running → s.WalkerLegal
  /-- R102: no dictionary row holds the pattern 0x100 -/
  rowSymbols : ∀ c, 511 ≤ c → c < s.next.toNat → isSymbol (s.dict.row c).sym = true
  /-- R143: the sym field of a RES_E item is never 0x100 -/
  resESymbols : ∀ w ∈ s.resE, isSymbol (w.extractLsb' 0 9) = true
  /-- R179 (d): the pattern 0x100 never appears on RES_D -/
  resDSymbols : ∀ p ∈ s.resD, isSymbol p = true
  /-- R97, R146 (f): only the residual of the final position carries last = 1 -/
  lastOnly : s.state = .enc → s.row.toNat < s.rows.toNat → ∀ w ∈ s.resE, w.getLsbD 9 = false
  /-- R97, R146 (f): when every sample is handled RES_E ends with the one item that carries last = 1 -/
  lastThere : s.state = .enc → s.row = s.rows →
    ∃ front w, s.resE = front ++ [w] ∧ w.getLsbD 9 = true ∧ ∀ v ∈ front, v.getLsbD 9 = false
  /-- R35, R185: the residuals pushed are those handled and those waiting -/
  resDCount : s.state = .dec → s.outCnt.toNat = s.position + s.resD.length
  /-- R132: when a job has completed the internal channels are empty -/
  doneEmpty : s.state = .done → s.resE = [] ∧ s.resD = []
  /-- the canonical form of LEFT -/
  leftWf : s.left.wf = true
  /-- the canonical form of DICT -/
  dictWf : s.dict.wf = true

/-- R173: the code k names neither an existing row nor the next one. -/
def State.badCode (s : State) (k : Code) : Prop :=
  (s.sEmpty = true ∧ s.next.toNat ≤ k.toNat) ∨ (s.sEmpty = false ∧ s.next.toNat < k.toNat)

/-- R167 step 2: n is the length of the sequence the code k stands for, one more than that of S in the special case. -/
def State.codeStandsFor (s : State) (k : Code) (n : Nat) : Prop :=
  (k.toNat < s.next.toNat ∧ s.len k = some n) ∨
  (s.sEmpty = false ∧ k.toNat = s.next.toNat ∧ ∃ m, s.len s.sCode = some m ∧ n = m + 1)

/-- R68: the LEFT cells the running job has written in the current row. -/
def State.LiveCell (s : State) (k : Nat) : Prop :=
  s.Running ∧ k < s.chans.toNat ∧ (0 < s.col.toNat ∨ k < s.ch.toNat)

/-- R37, R38, R41: the two states differ at most in LEFT cells that are not live and in DICT rows that are not valid. -/
structure LiveEq (s t : State) : Prop where
  rest : { s with left := t.left, dict := t.dict } = t
  rows : ∀ c, c < s.next.toNat → s.dict.row c = t.dict.row c
  cells : ∀ k, s.LiveCell k → s.left.read k = t.left.read k

/-- R79: an encoder `e` and a decoder `d` of the same code stream, after the decoder has processed every code the encoder
has emitted. Before the first code both hold the seeds. Later the decoder holds the encoder's rows but for the last one,
whose contents are the decoder's S extended by the first symbol of the encoder's S. -/
structure InStep (e d : State) : Prop where
  starts : d.sEmpty = true → d.next.toNat = 511 ∧ e.next.toNat = 511
  holds : d.sEmpty = false → e.sEmpty = false
  lag : d.sEmpty = false →
    (d.next.toNat < 65536 → e.next.toNat = d.next.toNat + 1) ∧ (65536 ≤ d.next.toNat → e.next.toNat = 65536)
  rows : ∀ c, c < d.next.toNat → e.dict.row c = d.dict.row c
  pending : d.sEmpty = false → d.next.toNat < 65536 →
    ∃ b, e.first e.sCode = some b ∧
      e.dict.row d.next.toNat = { root := false, prefixCode := d.sCode, sym := sym9 b }

/-- R249, R251: a run without end, of steps of the block and moves of the host in any order, the host's among those `allowed`.
The block is never held up for ever: after every point of the run comes a step. -/
structure Run (allowed : HostMove → Prop) (run : Nat → State) : Prop where
  moves : ∀ n, step (run n) = .next (run (n + 1)) ∨ ∃ m : HostMove, allowed m ∧ run (n + 1) = (run n).hostMove m
  goesOn : ∀ n, ∃ m, n ≤ m ∧ step (run m) = .next (run (m + 1))

/-- The host's moves but those that end a job from outside: reset, and the push of an ABORT. -/
def HostMove.StaysWithJob : HostMove → Prop
  | .pushCmd w => decode (.cmd w) ≠ .ok .abort
  | .pushPix _ => True
  | .pushCode _ => True
  | .takeRsp => True
  | .takeCodeOut => True
  | .takePixOut => True
  | .dropPix => True
  | .dropCode => True
  | .reset => False

/-- Transactions performed one after the other, while each answers a next state. -/
def execAll : List Instr → State → Result
  | [], s => .next s
  | i :: rest, s =>
    match exec i s with
    | .next t => execAll rest t
    | .fault f => .fault f
    | .refused r => .refused r

end Sys2Proof.Machine
end

