-- ==== Sys2Proof/Certificates/Slice0/Obligations.lean ====
section
/-! DEFINITION. The statements for the provers, taken from the numbered rules of spec/. A docstring names the rule; where a clause is the model's own choice it names the log entry. -/

open Sys2Proof Sys2Proof.Machine

/-! ### Encodings -/

/-- R90 to R98: no bit of an encoding is dropped, for every transaction and every operand value, through the typed decoder
and through the one on raw values; and the item is on the channel of the transaction's format. -/
def Obligations.DecodeOfEncodeIsTheTransaction : Prop :=
  ∀ i : Instr, decode (encode i) = .ok i ∧ decodeRaw i.channel (encode i).value = .ok i ∧ (encode i).channel = i.channel

/-- R92, R96, R105: every item but an EOS is the one encoding of its transaction; the EOS items are those with bit 8 set,
whatever the byte. -/
def Obligations.AcceptedItemIsTheEncoding : Prop :=
  (∀ (item : Item) (i : Instr), decode item = .ok i → i ≠ .eos → encode i = item) ∧
  (∀ item : Item, decode item = .ok .eos ↔ ∃ b : Byte, item = .codeIn (1#1 ++ b))

/-- R91, R92, R93, R105: the legal command words by their fields; every other word is illegal. -/
def Obligations.LegalCommandWordsExactly : Prop :=
  ∀ w : CmdWord,
    (∃ i, decodeCommand w = .ok i) ↔
      w.extractLsb' 16 8 = 0#8 ∧
      ((w.extractLsb' 28 4 = 1#4 ∧ wrRegister (w.extractLsb' 24 4) = true) ∨
       (w.extractLsb' 0 16 = 0#16 ∧
        ((w.extractLsb' 28 4 = 2#4 ∧ rdRegister (w.extractLsb' 24 4) = true) ∨
         (w.extractLsb' 24 4 = 0#4 ∧
          (w.extractLsb' 28 4 = 0#4 ∨ w.extractLsb' 28 4 = 3#4 ∨ w.extractLsb' 28 4 = 4#4 ∨ w.extractLsb' 28 4 = 5#4)))))

/-- R92: the rows of the command map are disjoint. -/
def Obligations.NoWordMatchesTwoRows : Prop :=
  ∀ (w : CmdWord) (r q : CommandRow), r ∈ commandRows → q ∈ commandRows → r.accepts w = true → q.accepts w = true →
    r.pattern = q.pattern ∧ r.mask = q.mask

/-- R92, R95 to R98: words written out from the spec's encodings, one family each. -/
def Obligations.WrittenOutWordsDecode : Prop :=
  decode (.cmd 0x00000000#32) = .ok .nop ∧
  decode (.cmd 0x10000002#32) = .ok (.wrRows 2) ∧
  decode (.cmd 0x1200FFFF#32) = .ok (.wrChans 0xFFFF#16) ∧
  decode (.cmd 0x23000000#32) = .ok .rdStatus ∧
  decode (.cmd 0x30000000#32) = .ok .startEnc ∧
  decode (.cmd 0x50000000#32) = .ok .abort ∧
  decode (.cmd 0x60000000#32) = .error .illegalCommand ∧
  decode (.pixIn 0xC8#8) = .ok (.pix 200) ∧
  decode (.codeIn 0x0AB#9) = .ok (.byte 0xAB#8) ∧
  decode (.codeIn 0x1AB#9) = .ok .eos ∧
  decode (.resE 0x202#10) = .ok (.res true 2) ∧
  decode (.resD 0x1FE#9) = .ok (.resd 0x1FE#9)

/-! ### Control -/

/-- R121. -/
def Obligations.NopChangesNothing : Prop :=
  decode (.cmd 0x00000000#32) = .ok .nop ∧ ∀ s : State, exec .nop s = .next s

/-- R122: in IDLE and DONE the named register is written and nothing else changes; ERR_BUSY during a job; discarded in
ERROR; a WR word of any other register number is illegal, and raises ERR_CMD outside ERROR. -/
def Obligations.WrWritesTheNamedDimension : Prop :=
  (∀ (n : Dim) (s : State), s.state = .idle ∨ s.state = .done →
    exec (.wrRows n) s = .next { s with rows := n } ∧
    exec (.wrCols n) s = .next { s with cols := n } ∧
    exec (.wrChans n) s = .next { s with chans := n }) ∧
  (∀ (n : Dim) (s : State) (i : Instr), i ∈ [Instr.wrRows n, .wrCols n, .wrChans n] → s.state = .enc ∨ s.state = .dec →
    exec i s = .next { s with state := .error, err := .busy }) ∧
  (∀ (n : Dim) (s : State) (i : Instr), i ∈ [Instr.wrRows n, .wrCols n, .wrChans n] → s.state = .error →
    exec i s = .next s) ∧
  (∀ w : CmdWord, w.extractLsb' 28 4 = 1#4 → 3 ≤ (w.extractLsb' 24 4).toNat →
    decode (.cmd w) = .error .illegalCommand ∧
    ∀ s : State, s.state ≠ .error → performItem (.cmd w) s = .next { s with state := .error, err := .cmd }) ∧
  (∀ n : Dim, decode (.cmd (0x1000#16 ++ n)) = .ok (.wrRows n) ∧ decode (.cmd (0x1100#16 ++ n)) = .ok (.wrCols n) ∧
    decode (.cmd (0x1200#16 ++ n)) = .ok (.wrChans n))

/-- R123, R27, R28: in every STATE one item is pushed on RSP, the register's value at that instant, and nothing else
changes; a RD word with another register number or with data is illegal, and raises ERR_CMD outside ERROR. -/
def Obligations.RdPushesTheRegister : Prop :=
  (∀ s : State,
    exec .rdRows s = .next { s with rsp := s.rsp ++ [s.rows] } ∧
    exec .rdCols s = .next { s with rsp := s.rsp ++ [s.cols] } ∧
    exec .rdChans s = .next { s with rsp := s.rsp ++ [s.chans] } ∧
    (∃ v : Response, exec .rdStatus s = .next { s with rsp := s.rsp ++ [v] } ∧
      v.toNat =
        (match s.state with | .idle => 0 | .enc => 1 | .dec => 2 | .done => 3 | .error => 4) +
        8 * (match s.job with | .enc => 0 | .dec => 1) +
        16 * (match s.err with
          | .noFault => 0 | .cmd => 1 | .busy => 2 | .cfg => 3 | .sym => 4 | .badCode => 5 | .short => 6 | .overrun => 7) +
        256 * (if s.next.toNat = 65536 then 1 else 0)) ∧
    (∃ v : Response, exec .rdDnext s = .next { s with rsp := s.rsp ++ [v] } ∧ v.toNat = s.next.toNat % 65536)) ∧
  (∀ w : CmdWord, w.extractLsb' 28 4 = 2#4 → 5 ≤ (w.extractLsb' 24 4).toNat ∨ w.extractLsb' 0 16 ≠ 0#16 →
    decode (.cmd w) = .error .illegalCommand ∧
    ∀ s : State, s.state ≠ .error → performItem (.cmd w) s = .next { s with state := .error, err := .cmd }) ∧
  decode (.cmd 0x20000000#32) = .ok .rdRows ∧ decode (.cmd 0x21000000#32) = .ok .rdCols ∧
  decode (.cmd 0x22000000#32) = .ok .rdChans ∧ decode (.cmd 0x23000000#32) = .ok .rdStatus ∧
  decode (.cmd 0x24000000#32) = .ok .rdDnext

/-- R28: DNEXT reads 0 exactly when NEXT = 65536, which STATUS.FULL also shows. -/
def Obligations.DnextIsZeroExactlyAtTheCap : Prop :=
  ∀ s : State, s.Inv →
    (s.dnext = 0#16 ↔ s.next.toNat = 65536) ∧ (s.status.getLsbD 8 = true ↔ s.next.toNat = 65536)

/-- R125, R129, R126: an accepted START gives the job its fresh state, COUNT the exact product, and leaves the rest; a START
during a job is ERR_BUSY, with a zero dimension ERR_CFG, in ERROR discarded. After it PRED, or DEC, is enabled whenever its
port is non-empty; in IDLE and DONE neither is. -/
def Obligations.StartInitialisesTheJob : Prop :=
  (∀ s : State, s.state = .idle ∨ s.state = .done → s.rows ≠ 0 → s.cols ≠ 0 → s.chans ≠ 0 →
    ∃ c : Count, c.toNat = s.rows.toNat * s.cols.toNat * s.chans.toNat ∧
      exec .startEnc s = .next { s with
        count := c, row := 0, col := 0, ch := 0, next := 511, sEmpty := true, sCode := 0, hiValid := false, hiByte := 0
        outCnt := 0, dDrain := false, dFin := false, resE := [], resD := [], err := .noFault, job := .enc, state := .enc } ∧
      exec .startDec s = .next { s with
        count := c, row := 0, col := 0, ch := 0, next := 511, sEmpty := true, sCode := 0, hiValid := false, hiByte := 0
        outCnt := 0, dDrain := false, dFin := false, resE := [], resD := [], err := .noFault, job := .dec, state := .dec }) ∧
  (∀ (s : State) (i : Instr), i ∈ [Instr.startEnc, .startDec] → s.state = .enc ∨ s.state = .dec →
    exec i s = .next { s with state := .error, err := .busy }) ∧
  (∀ (s : State) (i : Instr), i ∈ [Instr.startEnc, .startDec] → s.state = .idle ∨ s.state = .done →
    s.rows = 0 ∨ s.cols = 0 ∨ s.chans = 0 → exec i s = .next { s with state := .error, err := .cfg }) ∧
  (∀ (s : State) (i : Instr), i ∈ [Instr.startEnc, .startDec] → s.state = .error → exec i s = .next s) ∧
  (∀ s t : State, s.state = .idle ∨ s.state = .done → s.rows ≠ 0 → s.cols ≠ 0 → s.chans ≠ 0 →
    Agent.pred.enabled s = false ∧ Agent.dec.enabled s = false ∧
    (exec .startEnc s = .next t → (Agent.pred.enabled t = true ↔ s.pixIn ≠ [])) ∧
    (exec .startDec s = .next t → (Agent.dec.enabled t = true ↔ s.codeIn ≠ []))) ∧
  decode (.cmd 0x30000000#32) = .ok .startEnc ∧ decode (.cmd 0x40000000#32) = .ok .startDec

/-- R127: the state after ABORT is the reset state except for ROWS, COLS, CHANS and JOB; the memories and the external
channels stay as they are (and the model's own `sched` and `pick`, log 1). No other command leaves ERROR. -/
def Obligations.AbortReturnsToIdle : Prop :=
  (∀ s : State, exec .abort s = .next { State.reset with
    rows := s.rows, cols := s.cols, chans := s.chans, job := s.job, left := s.left, dict := s.dict
    cmd := s.cmd, rsp := s.rsp, pixIn := s.pixIn, codeOut := s.codeOut, codeIn := s.codeIn, pixOut := s.pixOut
    sched := s.sched, pick := s.pick }) ∧
  (∀ (s t : State) (w : CmdWord), s.state = .error → performItem (.cmd w) s = .next t → t.state ≠ .error →
    decode (.cmd w) = .ok .abort) ∧
  decode (.cmd 0x50000000#32) = .ok .abort

/-- R124, R128: the order of the checks on a command word, first that applies wins. -/
def Obligations.CommandChecksInOrder : Prop :=
  (∀ (w : CmdWord) (s : State), s.state = .error →
    (∀ i, decode (.cmd w) = .ok i → i ∈ [Instr.rdRows, .rdCols, .rdChans, .rdStatus, .rdDnext, .abort] →
      performItem (.cmd w) s = exec i s) ∧
    ((∀ i, decode (.cmd w) = .ok i → i ∉ [Instr.rdRows, .rdCols, .rdChans, .rdStatus, .rdDnext, .abort]) →
      performItem (.cmd w) s = .next s)) ∧
  (∀ (w : CmdWord) (s : State), s.state ≠ .error → decode (.cmd w) = .error .illegalCommand →
    performItem (.cmd w) s = .next { s with state := .error, err := .cmd }) ∧
  (∀ (w : CmdWord) (s : State) (i : Instr), s.state = .enc ∨ s.state = .dec → decode (.cmd w) = .ok i →
    (∃ n, i ∈ [Instr.wrRows n, .wrCols n, .wrChans n, .startEnc, .startDec]) →
    performItem (.cmd w) s = .next { s with state := .error, err := .busy }) ∧
  (∀ (w : CmdWord) (s : State) (i : Instr), s.state = .idle ∨ s.state = .done → decode (.cmd w) = .ok i →
    i ∈ [Instr.startEnc, .startDec] → s.rows = 0 ∨ s.cols = 0 ∨ s.chans = 0 →
    performItem (.cmd w) s = .next { s with state := .error, err := .cfg }) ∧
  (∀ (w : CmdWord) (s : State) (i : Instr), decode (.cmd w) = .ok i → performItem (.cmd w) s = exec i s)

/-! ### The predictor -/

/-- R141, R142: the residual by plain integer subtraction, the raw sample at column 0; LEFT[CH] takes the sample; the item
carries `last` at the final position; the walker moves one position on; nothing else changes. -/
def Obligations.PixPushesTheResidual : Prop :=
  (∀ (x : Byte) (s : State), s.left.wf = true → s.ch.toNat < 65535 →
    ∃ (t : State) (item : FlagSym), exec (.pix x) s = .next t ∧
      t.resE = s.resE ++ [item] ∧
      (item.extractLsb' 0 9).toInt =
        (if s.col = 0 then (x.toNat : Int) else (x.toNat : Int) - ((s.left.read s.ch.toNat).toNat : Int)) ∧
      item.getLsbD 9 = decide
        (s.row.toNat + 1 = s.rows.toNat ∧ s.col.toNat + 1 = s.cols.toNat ∧ s.ch.toNat + 1 = s.chans.toNat) ∧
      t.left.read s.ch.toNat = x ∧ (∀ k, k ≠ s.ch.toNat → t.left.read k = s.left.read k) ∧
      t.ch = (if s.ch.toNat + 1 = s.chans.toNat then 0 else s.ch + 1) ∧
      t.col = (if s.ch.toNat + 1 = s.chans.toNat then (if s.col.toNat + 1 = s.cols.toNat then 0 else s.col + 1) else s.col) ∧
      t.row = (if s.ch.toNat + 1 = s.chans.toNat ∧ s.col.toNat + 1 = s.cols.toNat then s.row + 1 else s.row) ∧
      { t with resE := s.resE, left := s.left, row := s.row, col := s.col, ch := s.ch } = s) ∧
  (∀ x : Byte, decode (.pixIn x) = .ok (.pix x))

/-- R143: every residual PRED pushes lies in [-255, 255], in [0, 255] at column 0, so its pattern is never 0x100. -/
def Obligations.ResidualsAreSymbols : Prop :=
  ∀ (x : Byte) (s t : State), exec (.pix x) s = .next t →
    ∃ item : FlagSym, t.resE = s.resE ++ [item] ∧ item.extractLsb' 0 9 ≠ 0x100#9 ∧
      -255 ≤ (item.extractLsb' 0 9).toInt ∧ (item.extractLsb' 0 9).toInt ≤ 255 ∧
      (s.col = 0 → 0 ≤ (item.extractLsb' 0 9).toInt)

/-- Log 6, the model's choice: LEFT has no cell 65535 (R67), so PIX and RESD with CH = 65535 stop the machine. -/
def Obligations.AbsentLeftCellStops : Prop :=
  ∀ (s : State), s.ch.toNat = 65535 →
    (∀ x : Byte, exec (.pix x) s = .fault .leftCellAbsent) ∧ (∀ p : Sym, exec (.resd p) s = .fault .leftCellAbsent)

/-! ### The walker -/

/-- R12, R31: while a sample is left to handle, `advance()` goes to the next raster position and keeps the walker legal, and
`at_last()` holds exactly at the COUNT-th position. -/
def Obligations.AdvanceVisitsTheNextPosition : Prop :=
  ∀ s : State, s.WalkerLegal → s.row.toNat < s.rows.toNat →
    s.advance.WalkerLegal ∧ s.advance.position = s.position + 1 ∧
    (s.atLast = true ↔ s.position + 1 = s.rows.toNat * s.cols.toNat * s.chans.toNat)

/-- R31: after exactly COUNT calls from (0, 0, 0) the walker stands at (ROWS, 0, 0), and earlier it has ROW < ROWS. -/
def Obligations.WalkEndsAfterCountCalls : Prop :=
  ∀ s : State, s.rows ≠ 0 → s.cols ≠ 0 → s.chans ≠ 0 → s.row = 0 → s.col = 0 → s.ch = 0 →
    (∀ n, n < s.rows.toNat * s.cols.toNat * s.chans.toNat → (State.advance^[n] s).row.toNat < s.rows.toNat) ∧
    (State.advance^[s.rows.toNat * s.cols.toNat * s.chans.toNat] s).row = s.rows ∧
    (State.advance^[s.rows.toNat * s.cols.toNat * s.chans.toNat] s).col = 0 ∧
    (State.advance^[s.rows.toNat * s.cols.toNat * s.chans.toNat] s).ch = 0

/-! ### The memories -/

/-- R60, R67: what is written is read back, nothing else changes, and the canonical form is kept, for LEFT and for the
writable rows of DICT. -/
def Obligations.MemoriesReadBackWhatWasWritten : Prop :=
  (∀ (m : Memory) (k : Nat) (v : Byte), m.wf = true → k < 65535 →
    (m.write k v).read k = v ∧ (∀ j, j ≠ k → (m.write k v).read j = m.read j) ∧ (m.write k v).wf = true) ∧
  (∀ (d : Dict) (c : Nat) (r : DictRow), d.wf = true → 511 ≤ c → c < 65536 →
    (d.write c r).row c = r ∧ (∀ e, e ≠ c → (d.write c r).row e = d.row e) ∧ (d.write c r).wf = true)

/-- R61: the seeds are hardwired: row i holds {1, 0, sym9(i - 255)} whatever DICT holds, and no write changes it. -/
def Obligations.SeedRowsAreHardwired : Prop :=
  ∀ (d : Dict) (i : Nat), i ≤ 510 →
    (d.row i).root = true ∧ (d.row i).prefixCode = 0 ∧ (d.row i).sym.toInt = (i : Int) - 255 ∧
    ∀ (c : Nat) (r : DictRow), (d.write c r).row i = d.row i

/-- R62: `seq`, `first` and `len` of a valid code by the row's own fields, in every state of the invariant; none of the three
is defined for another code. -/
def Obligations.SequenceFollowsThePrefixChain : Prop :=
  (∀ (s : State) (c : Code), s.Inv → c.toNat < s.next.toNat →
    ((s.dict.row c.toNat).root = true → s.seq c = some [(s.dict.row c.toNat).sym.toInt]) ∧
    ((s.dict.row c.toNat).root = false → ∃ l, s.seq (s.dict.row c.toNat).prefixCode = some l ∧
      s.seq c = some (l ++ [(s.dict.row c.toNat).sym.toInt])) ∧
    ∃ l, s.seq c = some l ∧ s.first c = l.head? ∧ s.len c = some l.length ∧ l ≠ []) ∧
  (∀ (s : State) (c : Code), s.next.toNat ≤ c.toNat → s.seq c = none ∧ s.first c = none ∧ s.len c = none)

/-- R63: `len(c) <= c - 509` for a valid c >= 511, at most 65026 symbols for any code. -/
def Obligations.SequenceLengthIsBounded : Prop :=
  ∀ (s : State) (c : Code), s.Inv → c.toNat < s.next.toNat →
    ∃ n, s.len c = some n ∧ 1 ≤ n ∧ n ≤ 65026 ∧ (c.toNat < 511 → n = 1) ∧ (511 ≤ c.toNat → n ≤ c.toNat - 509)

/-- R64: the lookup answers the lowest valid row that matches, and misses exactly when none does; with S empty it always
hits and answers `b + 255`; in an encode job at most one row matches. -/
def Obligations.LookupFindsTheMatchingRow : Prop :=
  (∀ (s : State) (p : Code) (b : Sym) (c : Code), s.next.toNat ≤ 65536 →
    (s.lookup false p (int9 b) = some c ↔
      c.toNat < s.next.toNat ∧
      ((s.dict.row c.toNat).root = false ∧ (s.dict.row c.toNat).prefixCode = p ∧ (s.dict.row c.toNat).sym = b) ∧
      ∀ x, x < c.toNat → ¬ ((s.dict.row x).root = false ∧ (s.dict.row x).prefixCode = p ∧ (s.dict.row x).sym = b)) ∧
    (s.lookup false p (int9 b) = none ↔
      ∀ x, x < s.next.toNat → ¬ ((s.dict.row x).root = false ∧ (s.dict.row x).prefixCode = p ∧ (s.dict.row x).sym = b))) ∧
  (∀ (s : State) (p : Code) (b : Int), 511 ≤ s.next.toNat → -255 ≤ b → b ≤ 255 →
    ∃ c : Code, s.lookup true p b = some c ∧ (c.toNat : Int) = b + 255) ∧
  (∀ (s : State) (c x : Nat), s.Inv → s.state = .enc → c < s.next.toNat → x < s.next.toNat →
    (s.dict.row c).root = (s.dict.row x).root → (s.dict.row c).prefixCode = (s.dict.row x).prefixCode →
    (s.dict.row c).sym = (s.dict.row x).sym → c = x)

/-- R65: below the cap `insert(p, b)` writes row NEXT and counts it, at the cap it does nothing; every other row and
register stays. -/
def Obligations.InsertWritesTheNextRow : Prop :=
  (∀ (s : State) (p : Code) (b : Int), s.dict.wf = true → 511 ≤ s.next.toNat → s.next.toNat < 65536 →
    (s.insert p b).next.toNat = s.next.toNat + 1 ∧
    (s.insert p b).dict.row s.next.toNat = { root := false, prefixCode := p, sym := sym9 b } ∧
    (∀ c, c ≠ s.next.toNat → (s.insert p b).dict.row c = s.dict.row c) ∧
    { s.insert p b with next := s.next, dict := s.dict } = s) ∧
  (∀ (s : State) (p : Code) (b : Int), s.next.toNat = 65536 → s.insert p b = s)

/-! ### The encoder -/

/-- R154, R155, R152: RES on a hit extends S and emits nothing but, at the end of input, the code of S with `last`; on a
miss it emits the code of S, inserts the candidate unless the dictionary is full (R158), and restarts S at [b]; two byte
items a code, most significant first. Nothing else changes. The reserved symbol raises ERR_SYM. -/
def Obligations.ResExtendsOrEmits : Prop :=
  (∀ (l : Bool) (p : Sym) (s : State) (c : Code), p ≠ 0x100#9 → s.lookup s.sEmpty s.sCode (int9 p) = some c →
    exec (.res l p) s = .next { s with
      sEmpty := false, sCode := c
      codeOut := s.codeOut ++ (if l then [0#1 ++ c.extractLsb' 8 8, 1#1 ++ c.extractLsb' 0 8] else [])
      state := if l then .done else s.state }) ∧
  (∀ (l : Bool) (p : Sym) (s : State), p ≠ 0x100#9 → s.lookup s.sEmpty s.sCode (int9 p) = none →
    s.dict.wf = true → 511 ≤ s.next.toNat → s.next.toNat ≤ 65536 →
    ∃ t : State, exec (.res l p) s = .next t ∧
      (t.sCode.toNat : Int) = p.toInt + 255 ∧
      t.codeOut = s.codeOut ++ [0#1 ++ s.sCode.extractLsb' 8 8, 0#1 ++ s.sCode.extractLsb' 0 8] ++
        (if l then [0#1 ++ t.sCode.extractLsb' 8 8, 1#1 ++ t.sCode.extractLsb' 0 8] else []) ∧
      t.state = (if l then .done else s.state) ∧
      t.next.toNat = (if s.next.toNat < 65536 then s.next.toNat + 1 else 65536) ∧
      (s.next.toNat < 65536 → t.dict.row s.next.toNat = { root := false, prefixCode := s.sCode, sym := p }) ∧
      (∀ c, c ≠ s.next.toNat → t.dict.row c = s.dict.row c) ∧
      (s.next.toNat = 65536 → t.dict = s.dict) ∧
      { t with sCode := s.sCode, codeOut := s.codeOut, state := s.state, next := s.next, dict := s.dict } = s) ∧
  (∀ (l : Bool) (s : State), exec (.res l 0x100#9) s = .next { s with state := .error, err := .sym }) ∧
  (∀ w : FlagSym, decode (.resE w) = .ok (.res (w.getLsbD 9) (w.extractLsb' 0 9)))

/-- R156: the reserved symbol raises ERR_SYM, S, NEXT, DICT and CODE_OUT untouched; and no step from a state of the
invariant raises it. -/
def Obligations.ReservedSymbolFaultsAndNeverArises : Prop :=
  (∀ (l : Bool) (s : State), exec (.res l 0x100#9) s = .next { s with state := .error, err := .sym }) ∧
  (∀ s t : State, s.Inv → step s = .next t → t.err = .sym → s.err = .sym)

/-- R157: the first symbol of a job always hits its seed and emits nothing by itself; S_EMPTY never returns to 1. -/
def Obligations.FirstSymbolHitsItsSeed : Prop :=
  (∀ (l : Bool) (p : Sym) (s : State), s.sEmpty = true → 511 ≤ s.next.toNat → p ≠ 0x100#9 →
    ∃ t : State, exec (.res l p) s = .next t ∧ t.sEmpty = false ∧ (t.sCode.toNat : Int) = p.toInt + 255 ∧
      t.next = s.next ∧ t.dict = s.dict ∧ (l = false → t.codeOut = s.codeOut)) ∧
  (∀ (l : Bool) (p : Sym) (s t : State), s.sEmpty = false → exec (.res l p) s = .next t → t.sEmpty = false)

/-! ### The decoder -/

/-- R166, R175: a byte after the expected count is dropped; the byte that starts a code is only stored. -/
def Obligations.ByteIsDroppedOrHeld : Prop :=
  ∀ (n : Byte) (s : State),
    (s.dDrain = true → exec (.byte n) s = .next s) ∧
    (s.dDrain = false → s.hiValid = false → exec (.byte n) s = .next { s with hiByte := n, hiValid := true })

/-- R168, R169: the first code, and a known one: T = seq(k) is pushed; S becomes T; a known code inserts S with T's first
element appended, if capacity allows; the count is kept and D_DRAIN set when it is reached (R172). Nothing else changes. -/
def Obligations.KnownCodeOutputsItsSequence : Prop :=
  ∀ (n : Byte) (s : State) (k : Code) (b : Int) (tl : List Int), s.Inv → s.dDrain = false → s.hiValid = true →
    k.toNat = s.hiByte.toNat * 256 + n.toNat → k.toNat < s.next.toNat → s.seq k = some (b :: tl) →
    s.outCnt.toNat + (b :: tl).length ≤ s.count.toNat →
    ∃ t : State, exec (.byte n) s = .next t ∧
      t.resD = s.resD ++ (b :: tl).map sym9 ∧ t.outCnt.toNat = s.outCnt.toNat + (b :: tl).length ∧
      t.sEmpty = false ∧ t.sCode = k ∧ t.hiValid = false ∧
      (t.dDrain = true ↔ t.outCnt = s.count) ∧
      (s.sEmpty = true ∨ s.next.toNat = 65536 → t.next = s.next ∧ t.dict = s.dict) ∧
      (s.sEmpty = false → s.next.toNat < 65536 → t.next.toNat = s.next.toNat + 1 ∧
        t.dict.row s.next.toNat = { root := false, prefixCode := s.sCode, sym := sym9 b } ∧
        ∀ c, c ≠ s.next.toNat → t.dict.row c = s.dict.row c) ∧
      { t with
        resD := s.resD, outCnt := s.outCnt, sEmpty := s.sEmpty, sCode := s.sCode, hiValid := s.hiValid
        dDrain := s.dDrain, next := s.next, dict := s.dict } = s

/-- R170: the special case, k = NEXT: row k is S with S's own first element appended, and that sequence is pushed. Once
NEXT = 65536 every code is known. -/
def Obligations.SpecialCodeExtendsS : Prop :=
  (∀ (n : Byte) (s : State) (k : Code) (b : Int) (tl : List Int), s.Inv → s.dDrain = false → s.hiValid = true →
    k.toNat = s.hiByte.toNat * 256 + n.toNat → s.sEmpty = false → k.toNat = s.next.toNat →
    s.seq s.sCode = some (b :: tl) → s.outCnt.toNat + (b :: tl).length + 1 ≤ s.count.toNat →
    ∃ t : State, exec (.byte n) s = .next t ∧
      t.resD = s.resD ++ ((b :: tl) ++ [b]).map sym9 ∧ t.outCnt.toNat = s.outCnt.toNat + (b :: tl).length + 1 ∧
      t.seq k = some ((b :: tl) ++ [b]) ∧
      t.sEmpty = false ∧ t.sCode = k ∧ t.hiValid = false ∧ (t.dDrain = true ↔ t.outCnt = s.count) ∧
      t.next.toNat = k.toNat + 1 ∧ t.dict.row k.toNat = { root := false, prefixCode := s.sCode, sym := sym9 b } ∧
      (∀ c, c ≠ k.toNat → t.dict.row c = s.dict.row c) ∧
      { t with
        resD := s.resD, outCnt := s.outCnt, sEmpty := s.sEmpty, sCode := s.sCode, hiValid := s.hiValid
        dDrain := s.dDrain, next := s.next, dict := s.dict } = s) ∧
  (∀ (n : Byte) (s t : State), s.Inv → s.next.toNat = 65536 → s.err ≠ .badCode → exec (.byte n) s = .next t →
    t.err ≠ .badCode)

/-- R173, R210: a first code >= 511, or a later code > NEXT, raises ERR_BADCODE; HI_VALID and HI_BYTE keep their values. -/
def Obligations.UndecodableCodeFaults : Prop :=
  ∀ (n : Byte) (s : State) (k : Code), s.Inv → s.dDrain = false → s.hiValid = true →
    k.toNat = s.hiByte.toNat * 256 + n.toNat →
    (s.sEmpty = true ∧ 511 ≤ k.toNat) ∨ (s.sEmpty = false ∧ s.next.toNat < k.toNat) →
    exec (.byte n) s = .next { s with state := .error, err := .badCode }

/-- R174: a code whose sequence would carry the residual count past COUNT raises ERR_OVERRUN; nothing is pushed, no row is
written. -/
def Obligations.OverrunningCodeFaults : Prop :=
  ∀ (n : Byte) (s : State) (k : Code) (m : Nat), s.Inv → s.dDrain = false → s.hiValid = true →
    k.toNat = s.hiByte.toNat * 256 + n.toNat → s.codeStandsFor k m → s.count.toNat < s.outCnt.toNat + m →
    exec (.byte n) s = .next { s with state := .error, err := .overrun }

/-- Log 7, the model's choice: where R62 gives the code, or S, no sequence, the BYTE that completes the code stops the
machine. -/
def Obligations.UndefinedSequenceStops : Prop :=
  ∀ (n : Byte) (s : State) (k : Code), s.dDrain = false → s.hiValid = true → k.toNat = s.hiByte.toNat * 256 + n.toNat →
    (k.toNat < s.next.toNat ∧ s.seq k = none) ∨ (s.sEmpty = false ∧ k.toNat = s.next.toNat ∧ s.seq s.sCode = none) →
    exec (.byte n) s = .fault .sequenceUndefined

/-- R176, R131: EOS with D_DRAIN = 1 sets D_FIN and completes the job if REC has finished; before that it raises
ERR_SHORT. The corner cases of R176, in states of the invariant: an EOS with HI_VALID = 1 finds D_DRAIN = 0 and faults, and
so does one with no residual out, as the first item of a job. -/
def Obligations.EosEndsTheStream : Prop :=
  (∀ s : State,
    (s.dDrain = true → s.row ≠ s.rows → exec .eos s = .next { s with dFin := true }) ∧
    (s.dDrain = true → s.row = s.rows → exec .eos s = .next { s with dFin := true, state := .done }) ∧
    (s.dDrain = false → exec .eos s = .next { s with state := .error, err := .short })) ∧
  (∀ b : Byte, decode (.codeIn (1#1 ++ b)) = .ok .eos) ∧
  (∀ s : State, s.Inv → s.hiValid = true →
    s.dDrain = false ∧ exec .eos s = .next { s with state := .error, err := .short }) ∧
  (∀ s : State, s.Inv → s.state = .dec → s.outCnt = 0 →
    s.dDrain = false ∧ exec .eos s = .next { s with state := .error, err := .short })

/-- R177: in a decode job an EOS with OUT_CNT < COUNT raises ERR_SHORT, and the block invents neither a residual nor a
sample. -/
def Obligations.ShortStreamFaults : Prop :=
  ∀ s : State, s.Inv → s.state = .dec → s.outCnt.toNat < s.count.toNat →
    exec .eos s = .next { s with state := .error, err := .short }

/-! ### The reconstructor -/

/-- R186, R188: the sample is LEFT[CH] + r modulo 256, r modulo 256 at column 0; LEFT[CH] takes it; it is pushed with `last`
at the final position; the walker moves on; the job completes when every position is handled and EOS was consumed. -/
def Obligations.ResdPushesTheSample : Prop :=
  (∀ (p : Sym) (s : State), s.left.wf = true → s.ch.toNat < 65535 →
    ∃ (t : State) (x : Byte), exec (.resd p) s = .next t ∧
      (x.toNat : Int) = (if s.col = 0 then p.toInt else ((s.left.read s.ch.toNat).toNat : Int) + p.toInt) % 256 ∧
      t.pixOut = s.pixOut ++ [BitVec.ofBool (decide
        (s.row.toNat + 1 = s.rows.toNat ∧ s.col.toNat + 1 = s.cols.toNat ∧ s.ch.toNat + 1 = s.chans.toNat)) ++ x] ∧
      t.left.read s.ch.toNat = x ∧ (∀ k, k ≠ s.ch.toNat → t.left.read k = s.left.read k) ∧
      t.ch = (if s.ch.toNat + 1 = s.chans.toNat then 0 else s.ch + 1) ∧
      t.col = (if s.ch.toNat + 1 = s.chans.toNat then (if s.col.toNat + 1 = s.cols.toNat then 0 else s.col + 1) else s.col) ∧
      t.row = (if s.ch.toNat + 1 = s.chans.toNat ∧ s.col.toNat + 1 = s.cols.toNat then s.row + 1 else s.row) ∧
      t.state = (if t.row = s.rows ∧ s.dFin = true then .done else s.state) ∧
      { t with pixOut := s.pixOut, left := s.left, row := s.row, col := s.col, ch := s.ch, state := s.state } = s) ∧
  (∀ p : Sym, decode (.resD p) = .ok (.resd p))

/-- R187: the same sample by an 8-bit adder on LEFT[CH] and sym[7:0] with the carry dropped, for every 9-bit pattern. -/
def Obligations.ReconstructorIsAnEightBitAdder : Prop :=
  ∀ (p : Sym) (s : State), s.ch.toNat < 65535 →
    ∃ (t : State) (item : FlagByte), exec (.resd p) s = .next t ∧ t.pixOut = s.pixOut ++ [item] ∧
      item.extractLsb' 0 8 = if s.col = 0 then p.extractLsb' 0 8 else s.left.read s.ch.toNat + p.extractLsb' 0 8

/-- R189: at the same position, with the same left neighbours, RESD of the residual PIX pushes gives the sample back with
the same `last` flag, and position and left neighbours are the same again for the next sample. -/
def Obligations.ReconstructionInvertsPrediction : Prop :=
  ∀ (x : Byte) (s u : State), s.left.wf = true → u.left.wf = true → s.ch.toNat < s.chans.toNat →
    u.rows = s.rows → u.cols = s.cols → u.chans = s.chans → u.row = s.row → u.col = s.col → u.ch = s.ch →
    (∀ k, k < s.chans.toNat → s.col ≠ 0 ∨ k < s.ch.toNat → u.left.read k = s.left.read k) →
    ∃ (s' u' : State) (item : FlagSym) (o : FlagByte),
      exec (.pix x) s = .next s' ∧ s'.resE = s.resE ++ [item] ∧
      exec (.resd (item.extractLsb' 0 9)) u = .next u' ∧ u'.pixOut = u.pixOut ++ [o] ∧
      o.extractLsb' 0 8 = x ∧ o.getLsbD 8 = item.getLsbD 9 ∧
      u'.row = s'.row ∧ u'.col = s'.col ∧ u'.ch = s'.ch ∧
      (∀ k, k < s.chans.toNat → s'.col ≠ 0 ∨ k < s'.ch.toNat → u'.left.read k = s'.left.read k)

/-! ### Steps and agents -/

/-- R120, R140, R150, R165, R185: when each agent is enabled. -/
def Obligations.AgentsAreEnabledExactlyWhen : Prop :=
  ∀ s : State,
    (Agent.ctrl.enabled s = true ↔ s.cmd ≠ []) ∧
    (Agent.pred.enabled s = true ↔ s.state = .enc ∧ s.row.toNat < s.rows.toNat ∧ s.pixIn ≠ []) ∧
    (Agent.enc.enabled s = true ↔ s.state = .enc ∧ s.resE ≠ []) ∧
    (Agent.dec.enabled s = true ↔ s.state = .dec ∧ s.dFin = false ∧ s.codeIn ≠ []) ∧
    (Agent.recon.enabled s = true ↔ s.state = .dec ∧ s.row.toNat < s.rows.toNat ∧ s.resD ≠ [])

/-- R11, R75, log 1: a step is the step of an enabled agent, any enabled agent may be the one (the schedule can name it),
and when none is enabled nothing changes (log 2). -/
def Obligations.AnyEnabledAgentMayStepNext : Prop :=
  (∀ (s : State) (a : Agent) (l : List Agent), a.enabled s = true →
    step { s with sched := a :: l } = agentStep a { s with sched := a :: l }) ∧
  (∀ s : State, (∃ a : Agent, a.enabled s = true ∧ step s = agentStep a s) ∨
    ((∀ a : Agent, a.enabled s = false) ∧ step s = .next s))

/-- R11, R90, R10: the step of the chosen agent pops the head of its channel and is `exec` of the decoded transaction there,
with the model's own `sched` and `pick` moved on (log 1); an illegal command word is R128's. -/
def Obligations.StepRunsTheDecodedTransaction : Prop :=
  (∀ (s : State) (a : Agent) (item : Item) (u : State) (i : Instr), s.chosen = some a → s.fetch a = some (item, u) →
    decode item = .ok i → step s = exec i { u with sched := s.sched.tail, pick := s.pick + 1 }) ∧
  (∀ (s : State) (w : CmdWord) (rest : List CmdWord), s.cmd = w :: rest →
    s.fetch .ctrl = some (.cmd w, { s with cmd := rest })) ∧
  (∀ (s : State) (w : Byte) (rest : List Byte), s.pixIn = w :: rest →
    s.fetch .pred = some (.pixIn w, { s with pixIn := rest })) ∧
  (∀ (s : State) (w : FlagSym) (rest : List FlagSym), s.resE = w :: rest →
    s.fetch .enc = some (.resE w, { s with resE := rest })) ∧
  (∀ (s : State) (w : FlagByte) (rest : List FlagByte), s.codeIn = w :: rest →
    s.fetch .dec = some (.codeIn w, { s with codeIn := rest })) ∧
  (∀ (s : State) (w : Sym) (rest : List Sym), s.resD = w :: rest →
    s.fetch .recon = some (.resD w, { s with resD := rest }))

/-- Log 9, log 10: from every state, the very next step after `withFetchWord` runs exactly the table word's transaction. -/
def Obligations.FetchWordIsTheNextTransaction : Prop :=
  ∀ (s : State) (nbits w : Nat) (item : Item) (i : Instr), tableItem nbits w = some item → decode item = .ok i →
    decodeTableWord nbits w = some i ∧
    step (s.withFetchWord nbits w) = exec i { s.readyFor item with pick := s.pick + 1 }

/-- R75: what each unit's step writes; everything else is as it was (`sched` and `pick` are the model's own, log 1). -/
def Obligations.UnitsWriteOnlyWhatTheyOwn : Prop :=
  ∀ s t : State,
    (Agent.pred.enabled s = true → agentStep .pred s = .next t →
      { t with
        row := s.row, col := s.col, ch := s.ch, left := s.left, resE := s.resE, pixIn := s.pixIn
        sched := s.sched, pick := s.pick } = s) ∧
    (Agent.enc.enabled s = true → agentStep .enc s = .next t →
      { t with
        sEmpty := s.sEmpty, sCode := s.sCode, next := s.next, dict := s.dict, resE := s.resE, codeOut := s.codeOut
        state := s.state, err := s.err, sched := s.sched, pick := s.pick } = s) ∧
    (Agent.dec.enabled s = true → agentStep .dec s = .next t →
      { t with
        sEmpty := s.sEmpty, sCode := s.sCode, next := s.next, dict := s.dict, hiValid := s.hiValid, hiByte := s.hiByte
        outCnt := s.outCnt, dDrain := s.dDrain, dFin := s.dFin, resD := s.resD, codeIn := s.codeIn
        state := s.state, err := s.err, sched := s.sched, pick := s.pick } = s) ∧
    (Agent.recon.enabled s = true → agentStep .recon s = .next t →
      { t with
        row := s.row, col := s.col, ch := s.ch, left := s.left, resD := s.resD, pixOut := s.pixOut
        state := s.state, sched := s.sched, pick := s.pick } = s)

/-- R130, R131: the value of STATE after a step, for every agent and item; and after the reset event. -/
def Obligations.StateChangesExactlyAsListed : Prop :=
  (∀ (s t u : State) (w : CmdWord), Agent.ctrl.enabled s = true → s.fetch .ctrl = some (.cmd w, u) →
    agentStep .ctrl s = .next t →
    (decode (.cmd w) = .ok .abort → t.state = .idle) ∧
    (decode (.cmd w) ≠ .ok .abort → s.state = .error → t.state = .error) ∧
    (decode (.cmd w) = .error .illegalCommand → t.state = .error) ∧
    (∀ i n, decode (.cmd w) = .ok i → i ∈ [Instr.wrRows n, .wrCols n, .wrChans n] →
      t.state = if s.state = .enc ∨ s.state = .dec then .error else s.state) ∧
    (∀ i, decode (.cmd w) = .ok i → i ∈ [Instr.nop, .rdRows, .rdCols, .rdChans, .rdStatus, .rdDnext] → t.state = s.state) ∧
    (∀ i, decode (.cmd w) = .ok i → i ∈ [Instr.startEnc, .startDec] → s.state ≠ .error →
      t.state = if (s.state = .enc ∨ s.state = .dec) ∨ s.rows = 0 ∨ s.cols = 0 ∨ s.chans = 0 then .error
        else if i = .startEnc then .enc else .dec)) ∧
  (∀ s t : State, Agent.pred.enabled s = true → agentStep .pred s = .next t → t.state = .enc) ∧
  (∀ (s t u : State) (w : FlagSym), Agent.enc.enabled s = true → s.fetch .enc = some (.resE w, u) →
    agentStep .enc s = .next t →
    t.state = if w.extractLsb' 0 9 = 0x100#9 then .error else if w.getLsbD 9 = true then .done else .enc) ∧
  (∀ (s t u : State) (w : FlagByte), s.Inv → Agent.dec.enabled s = true → s.fetch .dec = some (.codeIn w, u) →
    agentStep .dec s = .next t →
    (w.getLsbD 8 = true → t.state = if s.dDrain = false then .error else if s.row = s.rows then .done else .dec) ∧
    (w.getLsbD 8 = false → s.dDrain = true ∨ s.hiValid = false → t.state = .dec) ∧
    (∀ k : Code, w.getLsbD 8 = false → s.dDrain = false → s.hiValid = true →
      k.toNat = s.hiByte.toNat * 256 + w.toNat % 256 →
      (t.state = .error ∧ (s.badCode k ∨ ∃ m, s.codeStandsFor k m ∧ s.count.toNat < s.outCnt.toNat + m)) ∨
      (t.state = .dec ∧ ¬ s.badCode k ∧ ∃ m, s.codeStandsFor k m ∧ s.outCnt.toNat + m ≤ s.count.toNat))) ∧
  (∀ s t : State, Agent.recon.enabled s = true → agentStep .recon s = .next t →
    t.state = if t.row = s.rows ∧ s.dFin = true then .done else .dec) ∧
  (∀ s : State, s.resetEvent.state = .idle)

/-- R210, R200: a step that enters ERROR has no effect but the pop and the writes of STATE and ERR; ERR says which agent
raised it, and PRED and REC raise none. No step in ERROR raises: ERR keeps the first fault. -/
def Obligations.FaultEntryWritesStateAndErrOnly : Prop :=
  (∀ (s t : State) (a : Agent), a.enabled s = true → agentStep a s = .next t → s.state ≠ .error → t.state = .error →
    (∃ item u, s.fetch a = some (item, u) ∧ t = { u.nextPick with state := .error, err := t.err }) ∧
    ((a = .ctrl ∧ (t.err = .cmd ∨ t.err = .busy ∨ t.err = .cfg)) ∨
     (a = .enc ∧ t.err = .sym) ∨
     (a = .dec ∧ (t.err = .badCode ∨ t.err = .short ∨ t.err = .overrun)))) ∧
  (∀ (s t : State) (a : Agent), a.enabled s = true → agentStep a s = .next t → s.state = .error → t.state = .error →
    t.err = s.err)

/-- R211, R216, R25: in ERROR no agent but CTRL is enabled, and a step either is an ABORT or changes nothing but CMD and
RSP (and the model's own `sched` and `pick`, log 1): ERR keeps the first fault. -/
def Obligations.ErrorStateIsSticky : Prop :=
  ∀ s : State, s.state = .error →
    (∀ a : Agent, a ≠ .ctrl → a.enabled s = false) ∧
    (∀ t : State, step s = .next t →
      (∃ w rest, s.cmd = w :: rest ∧ decode (.cmd w) = .ok .abort ∧ t.state = .idle) ∨
      { t with cmd := s.cmd, rsp := s.rsp, sched := s.sched, pick := s.pick } = s)

/-- R23, R26: ROWS, COLS and CHANS change only by a WR performed in IDLE or DONE, JOB only by an accepted START. -/
def Obligations.DimensionsAndJobHaveOneWriter : Prop :=
  ∀ s t : State, step s = .next t →
    (t.rows ≠ s.rows → (s.state = .idle ∨ s.state = .done) ∧
      ∃ w rest, s.cmd = w :: rest ∧ decode (.cmd w) = .ok (.wrRows t.rows)) ∧
    (t.cols ≠ s.cols → (s.state = .idle ∨ s.state = .done) ∧
      ∃ w rest, s.cmd = w :: rest ∧ decode (.cmd w) = .ok (.wrCols t.cols)) ∧
    (t.chans ≠ s.chans → (s.state = .idle ∨ s.state = .done) ∧
      ∃ w rest, s.cmd = w :: rest ∧ decode (.cmd w) = .ok (.wrChans t.chans)) ∧
    (t.job ≠ s.job → (s.state = .idle ∨ s.state = .done) ∧ ∃ w rest, s.cmd = w :: rest ∧
      (decode (.cmd w) = .ok .startEnc ∧ t.state = .enc ∧ t.job = .enc ∨
       decode (.cmd w) = .ok .startDec ∧ t.state = .dec ∧ t.job = .dec))

/-- R33, R65: a step never rewrites a valid row; NEXT stays, grows by one, or goes back to 511 by a START or an ABORT; it
is never past 65536. -/
def Obligations.ValidRowsAreNeverRewritten : Prop :=
  ∀ s t : State, s.Inv → step s = .next t →
    (∀ c, c < s.next.toNat → t.dict.row c = s.dict.row c) ∧
    (t.next = s.next ∨ t.next.toNat = s.next.toNat + 1 ∨ (t.next.toNat = 511 ∧ ∃ w rest, s.cmd = w :: rest ∧
      decode (.cmd w) ∈ [Except.ok Instr.startEnc, .ok .startDec, .ok .abort])) ∧
    t.next.toNat ≤ 65536

/-- R230, R231, R241: the reset event gives every register, flag and internal channel its value of R42 and leaves DICT,
LEFT and the external channels (and the model's own `sched` and `pick`, log 17). -/
def Obligations.ResetEventGivesTheResetValues : Prop :=
  ∀ s : State, s.resetEvent = { s with
    rows := 0, cols := 0, chans := 1, state := .idle, err := .noFault, job := .enc, count := 0, row := 0, col := 0, ch := 0
    sEmpty := true, sCode := 0, next := 511, hiValid := false, hiByte := 0, outCnt := 0, dDrain := false, dFin := false
    resE := [], resD := [] }

/-! ### Whole-machine claims -/

/-- R43 (and R30, R35, R74, R97, R102, R132, R143, R179): the invariant holds after reset. -/
def Obligations.ResetMeetsTheInvariant : Prop := State.reset.Inv

/-- R43: every step keeps the invariant. -/
def Obligations.EveryStepKeepsTheInvariant : Prop := ∀ s t : State, s.Inv → step s = .next t → t.Inv

/-- R230, R251: every move of the host keeps the invariant. R241: once the job that reads a port is over, the host can remove
all that is left on PIX_IN, or CODE_IN, and nothing else changes; during that job it has no such move (log 15). -/
def Obligations.HostMovesKeepTheInvariant : Prop :=
  (∀ (s : State) (m : HostMove), s.Inv → (s.hostMove m).Inv) ∧
  (∀ s : State, s.state ≠ .enc → (fun u : State => u.hostMove .dropPix)^[s.pixIn.length] s = { s with pixIn := [] }) ∧
  (∀ s : State, s.state ≠ .dec → (fun u : State => u.hostMove .dropCode)^[s.codeIn.length] s = { s with codeIn := [] }) ∧
  (∀ s : State, (s.state = .enc → s.hostMove .dropPix = s) ∧ (s.state = .dec → s.hostMove .dropCode = s))

/-- Log 6, log 7: from a state of the invariant the machine never stops: the stops of the model are out of reach, and no
data and no command ends a run. -/
def Obligations.NoStepStopsTheMachine : Prop := ∀ s : State, s.Inv → ∃ t : State, step s = .next t

/-- R132, R185: when a job has completed the internal channels are empty and no agent but CTRL is enabled. -/
def Obligations.CompletedJobIsQuiet : Prop :=
  ∀ s t : State, s.Inv → step s = .next t → t.state = .done → s.state ≠ .done →
    t.resE = [] ∧ t.resD = [] ∧ (∀ a : Agent, a ≠ .ctrl → a.enabled t = false) ∧
    (s.state = .dec → t.row = t.rows ∧ t.dFin = true ∧ t.outCnt = t.count)

/-- R81, R75: PRED and ENC may step in either order, and so may DEC and REC, with one and the same result, as long as
neither step faults. -/
def Obligations.UnitsCommute : Prop :=
  (∀ s a b : State, s.Inv → Agent.pred.enabled s = true → Agent.enc.enabled s = true →
    agentStep .pred s = .next a → agentStep .enc s = .next b →
    Agent.enc.enabled a = true ∧ Agent.pred.enabled b = true ∧ agentStep .enc a = agentStep .pred b) ∧
  (∀ s a b : State, s.Inv → Agent.dec.enabled s = true → Agent.recon.enabled s = true →
    agentStep .dec s = .next a → a.state ≠ .error → agentStep .recon s = .next b →
    Agent.recon.enabled a = true ∧ Agent.dec.enabled b = true ∧ agentStep .recon a = agentStep .dec b)

/-- R37, R38, R41, and 93_implementation_defined.md I10, I11: what LEFT cells outside the current row's written part and DICT
rows from NEXT up hold, reset's choice of 0 among them (log 4, log 5), has no effect on any step. -/
def Obligations.DeadMemoryHasNoEffect : Prop :=
  ∀ s t : State, s.Inv → t.Inv → LiveEq s t →
    ∃ s' t' : State, step s = .next s' ∧ step t = .next t' ∧ LiveEq s' t'

/-- R79: in step with the encoder, the decoder decodes the code of the encoder's S, whatever it is, to S's sequence, and is
in step again after the encoder's miss that emits it; a hit of the encoder leaves the two in step. -/
def Obligations.DecoderStaysInStep : Prop :=
  ∀ (e d e' : State) (p : Sym) (tl : List Int), e.DictLegal → d.DictLegal → InStep e d → e.sEmpty = false →
    p ≠ 0x100#9 → d.dDrain = false → d.hiValid = false → e.seq e.sCode = some tl →
    d.outCnt.toNat + tl.length ≤ d.count.toNat → exec (.res false p) e = .next e' →
    (e.lookup false e.sCode (int9 p) ≠ none → InStep e' d) ∧
    (e.lookup false e.sCode (int9 p) = none →
      ∃ d1 d2 : State, exec (.byte (e.sCode.extractLsb' 8 8)) d = .next d1 ∧
        exec (.byte (e.sCode.extractLsb' 0 8)) d1 = .next d2 ∧
        d2.resD = d.resD ++ tl.map sym9 ∧ InStep e' d2)

/-- R80: the code stream an encode job emits from a fresh dictionary, given unchanged to a decode job of the same COUNT,
pushes on RES_D exactly the residuals the encoder popped, in order, and they number COUNT; the encode job ends DONE, the
decode job without a fault. -/
def Obligations.DecoderInvertsEncoder : Prop :=
  ∀ (ps : List Sym) (p : Sym) (e d : State),
    e.sEmpty = true → e.next = 511 → e.dict.wf = true →
    d.sEmpty = true → d.next = 511 → d.dict.wf = true →
    d.hiValid = false → d.dDrain = false → d.outCnt = 0 → d.count.toNat = ps.length + 1 →
    (∀ q ∈ ps ++ [p], q ≠ 0x100#9) →
    ∃ (e' d' : State) (items : List FlagByte),
      execAll (ps.map (Instr.res false) ++ [.res true p]) e = .next e' ∧ e'.state = .done ∧
      e'.codeOut = e.codeOut ++ items ∧
      execAll (items.map (fun x => Instr.byte (x.extractLsb' 0 8))) d = .next d' ∧
      d'.resD = d.resD ++ ps ++ [p] ∧ d'.outCnt = d'.count ∧ d'.dDrain = true ∧ d'.state = d.state ∧ d'.err = d.err

/-- The round trip (95_test_vectors.md P1, R80, R189), unit by unit: the samples of an image, predicted, encoded, decoded and
reconstructed with the same dimensions, come back exactly, and both jobs end DONE. -/
def Obligations.RoundTripGivesTheImageBack : Prop :=
  ∀ (xs : List Byte) (s : State), s.Inv → s.state = .idle ∨ s.state = .done →
    s.rows ≠ 0 → s.cols ≠ 0 → s.chans ≠ 0 → xs.length = s.rows.toNat * s.cols.toNat * s.chans.toNat →
    ∃ (predicted encoded decoded image : State) (items : List FlagByte) (samples : List FlagByte),
      execAll (.startEnc :: xs.map Instr.pix) s = .next predicted ∧
      execAll (predicted.resE.map decodeRese) { predicted with resE := [] } = .next encoded ∧
      encoded.state = .done ∧ encoded.codeOut = s.codeOut ++ items ∧
      execAll (.startDec :: items.map (fun x => Instr.byte (x.extractLsb' 0 8)) ++ [.eos]) encoded = .next decoded ∧
      execAll (decoded.resD.map decodeResd) { decoded with resD := [] } = .next image ∧
      image.state = .done ∧ image.pixOut = s.pixOut ++ samples ∧
      samples.map (fun x => x.extractLsb' 0 8) = xs

/-- R249, and 92_eei_decisions.md D25: weak fairness. In every run, whatever the host does, an agent that stays enabled
eventually steps. -/
def Obligations.EnabledAgentEventuallySteps : Prop :=
  ∀ (run : Nat → State) (a : Agent) (n : Nat), Run (fun _ => True) run → (∀ m, n ≤ m → a.enabled (run m) = true) →
    ∃ m, n ≤ m ∧ (run m).chosen = some a ∧ step (run m) = .next (run (m + 1))

/-- R249: a job whose host supplies all its input eventually reaches DONE or ERROR: an encode job with all its samples on
PIX_IN or handled, a decode job with an EOS on CODE_IN or consumed before REC has finished. The host may do anything but
reset or push an ABORT, and no ABORT is waiting on CMD. -/
def Obligations.SuppliedJobEnds : Prop :=
  (∀ run : Nat → State, Run HostMove.StaysWithJob run → (run 0).Inv → (∀ w ∈ (run 0).cmd, decode (.cmd w) ≠ .ok .abort) →
    (run 0).state = .enc → (run 0).count.toNat ≤ (run 0).position + (run 0).pixIn.length →
    ∃ n, (run n).state = .done ∨ (run n).state = .error) ∧
  (∀ run : Nat → State, Run HostMove.StaysWithJob run → (run 0).Inv → (∀ w ∈ (run 0).cmd, decode (.cmd w) ≠ .ok .abort) →
    (run 0).state = .dec →
    ((run 0).dFin = true ∧ (run 0).row.toNat < (run 0).rows.toNat) ∨
      ((run 0).dFin = false ∧ ∃ w ∈ (run 0).codeIn, w.getLsbD 8 = true) →
    ∃ n, (run n).state = .done ∨ (run n).state = .error)
end

