-- ==== Sys2Proof/Laws/Memory.lean ====
section
/-! SUPPORT. The sparse memories: read after write, no other address changes, the canonical form is kept; then the same for LEFT and DICT (20_memory.md R60, R61, R67). -/

namespace Sys2Proof.Machine

variable {α : Type} [DecidableEq α] {d : Nat → α} {lo hi : Nat}

theorem tableRead_write_other (m : List (Nat × α)) {a b : Nat} (v : α) (h : b ≠ a) :
    tableRead d (tableWrite d m a v) b = tableRead d m b := by
  induction m with
  | nil => by_cases hv : v = d a <;> simp [tableWrite, tableRead, hv, h]
  | cons c rest ih =>
    obtain ⟨e, w⟩ := c
    simp only [tableWrite]
    split
    · split <;> simp [tableRead, h]
    · split
      · subst_vars
        split <;> simp [tableRead, h]
      · simp [tableRead, ih]

theorem tableWf_cons {a : Nat} {v : α} {rest : List (Nat × α)} :
    tableWf d lo hi ((a, v) :: rest) = true ↔
      lo ≤ a ∧ a < hi ∧ v ≠ d a ∧ (∀ c ∈ rest, a < c.1) ∧ tableWf d lo hi rest = true := by
  simp [tableWf, and_assoc]

theorem tableRead_of_lt {β : Type} {d : Nat → β} {m : List (Nat × β)} {a : Nat} (h : ∀ c ∈ m, a < c.1) : tableRead d m a = d a := by
  induction m with
  | nil => rfl
  | cons c rest ih =>
    have hc := h c (by simp)
    simp only [tableRead]
    rw [if_neg (by omega), ih (fun x hx => h x (by simp [hx]))]

theorem tableRead_write_same {m : List (Nat × α)} (a : Nat) (v : α) (h : tableWf d lo hi m = true) :
    tableRead d (tableWrite d m a v) a = v := by
  induction m with
  | nil => by_cases hv : v = d a <;> simp [tableWrite, tableRead, hv]
  | cons c rest ih =>
    obtain ⟨e, w⟩ := c
    obtain ⟨-, -, -, hlt, hrest⟩ := tableWf_cons.mp h
    simp only [tableWrite]
    split
    · rename_i hae
      split
      · rename_i hv
        rw [tableRead_of_lt, hv]
        intro x hx
        rcases List.mem_cons.mp hx with rfl | hx
        · exact hae
        · exact Nat.lt_trans hae (hlt x hx)
      · simp [tableRead]
    · split
      · subst_vars
        split
        · rename_i hv
          rw [tableRead_of_lt hlt, hv]
        · simp [tableRead]
      · rename_i hne
        simp [tableRead, hne, ih hrest]

theorem mem_tableWrite {m : List (Nat × α)} {a : Nat} {v : α} {c : Nat × α} (h : c ∈ tableWrite d m a v) :
    c ∈ m ∨ c = (a, v) := by
  induction m with
  | nil => by_cases hv : v = d a <;> simp_all [tableWrite]
  | cons e rest ih =>
    obtain ⟨e, w⟩ := e
    simp only [tableWrite] at h
    split at h
    · split at h
      · exact Or.inl h
      · rcases List.mem_cons.mp h with h | h
        · exact Or.inr h
        · exact Or.inl h
    · split at h
      · split at h
        · exact Or.inl (List.mem_cons_of_mem _ h)
        · rcases List.mem_cons.mp h with h | h
          · exact Or.inr h
          · exact Or.inl (List.mem_cons_of_mem _ h)
      · rcases List.mem_cons.mp h with rfl | h
        · simp
        · rcases ih h with h | h <;> simp [h]

theorem tableWf_write {m : List (Nat × α)} {a : Nat} {v : α} (h : tableWf d lo hi m = true) (hlo : lo ≤ a) (hhi : a < hi) :
    tableWf d lo hi (tableWrite d m a v) = true := by
  induction m with
  | nil => by_cases hv : v = d a <;> simp [tableWrite, tableWf, hv, hlo, hhi]
  | cons c rest ih =>
    obtain ⟨e, w⟩ := c
    obtain ⟨h1, h2, h3, hlt, hrest⟩ := tableWf_cons.mp h
    simp only [tableWrite]
    split
    · rename_i hae
      split
      · exact h
      · rename_i hv
        refine tableWf_cons.mpr ⟨hlo, hhi, hv, ?_, h⟩
        intro x hx
        rcases List.mem_cons.mp hx with rfl | hx
        · exact hae
        · exact Nat.lt_trans hae (hlt x hx)
    · split
      · subst_vars
        split
        · exact hrest
        · rename_i hv
          exact tableWf_cons.mpr ⟨hlo, hhi, hv, hlt, hrest⟩
      · refine tableWf_cons.mpr ⟨h1, h2, h3, ?_, ih hrest⟩
        intro x hx
        rcases mem_tableWrite hx with hx | rfl
        · exact hlt x hx
        · simp only; omega

/-! ### LEFT -/

/-- LEFT: a cell reads back what was written to it. -/
theorem Memory.read_write_same {m : Memory} (k : Nat) (v : Byte) (h : m.wf = true) : (m.write k v).read k = v :=
  tableRead_write_same k v h

/-- LEFT: a write leaves every other cell as it was. -/
theorem Memory.read_write_other (m : Memory) {k j : Nat} (v : Byte) (h : j ≠ k) : (m.write k v).read j = m.read j :=
  tableRead_write_other m v h

/-- LEFT: a write of a cell that exists keeps the canonical form. -/
theorem Memory.wf_write {m : Memory} {k : Nat} {v : Byte} (h : m.wf = true) (hk : k < 65535) :
    (m.write k v).wf = true :=
  tableWf_write h (Nat.zero_le k) hk

/-! ### DICT -/

/-- DICT: the seeds are hardwired, whatever the memory holds (R61). -/
theorem Dict.row_seed (t : Dict) {c : Nat} (h : c < 511) : t.row c = seedRow c := by
  simp [Dict.row, Config.nSeed, h]

/-- DICT: a writable row reads back what was written to it. -/
theorem Dict.row_write_same {t : Dict} {c : Nat} (r : DictRow) (h : t.wf = true) (hc : 511 ≤ c) :
    (t.write c r).row c = r := by
  have hn : ¬ c < Config.nSeed := by simp only [Config.nSeed]; omega
  unfold Dict.row Dict.write
  rw [if_neg hn, if_neg hn]
  exact tableRead_write_same c r h

/-- DICT: a write leaves every other row as it was. -/
theorem Dict.row_write_other (t : Dict) {c e : Nat} (r : DictRow) (h : e ≠ c) : (t.write c r).row e = t.row e := by
  unfold Dict.row Dict.write
  split
  · rfl
  · split
    · rfl
    · exact tableRead_write_other t r h

/-- DICT: a write keeps the canonical form. -/
theorem Dict.wf_write {t : Dict} {c : Nat} {r : DictRow} (h : t.wf = true) (hc : c < 65536) : (t.write c r).wf = true := by
  unfold Dict.write
  split
  · exact h
  · rename_i hs
    exact tableWf_write h (Nat.le_of_not_lt hs) hc

end Sys2Proof.Machine
end

