-- ==== Sys2Proof/Laws/State.lean ====
section
/-! SUPPORT. One lemma per field per update of State, true by rfl, so that no later proof unfolds a record update. -/

namespace Sys2Proof.Machine

/-! ### State.raise -/

@[simp] theorem raise_rows (s : State) (e : ErrCode) : (s.raise e).rows = s.rows := rfl
@[simp] theorem raise_cols (s : State) (e : ErrCode) : (s.raise e).cols = s.cols := rfl
@[simp] theorem raise_chans (s : State) (e : ErrCode) : (s.raise e).chans = s.chans := rfl
@[simp] theorem raise_state (s : State) (e : ErrCode) : (s.raise e).state = .error := rfl
@[simp] theorem raise_err (s : State) (e : ErrCode) : (s.raise e).err = e := rfl
@[simp] theorem raise_job (s : State) (e : ErrCode) : (s.raise e).job = s.job := rfl
@[simp] theorem raise_count (s : State) (e : ErrCode) : (s.raise e).count = s.count := rfl
@[simp] theorem raise_row (s : State) (e : ErrCode) : (s.raise e).row = s.row := rfl
@[simp] theorem raise_col (s : State) (e : ErrCode) : (s.raise e).col = s.col := rfl
@[simp] theorem raise_ch (s : State) (e : ErrCode) : (s.raise e).ch = s.ch := rfl
@[simp] theorem raise_left (s : State) (e : ErrCode) : (s.raise e).left = s.left := rfl
@[simp] theorem raise_sEmpty (s : State) (e : ErrCode) : (s.raise e).sEmpty = s.sEmpty := rfl
@[simp] theorem raise_sCode (s : State) (e : ErrCode) : (s.raise e).sCode = s.sCode := rfl
@[simp] theorem raise_next (s : State) (e : ErrCode) : (s.raise e).next = s.next := rfl
@[simp] theorem raise_dict (s : State) (e : ErrCode) : (s.raise e).dict = s.dict := rfl
@[simp] theorem raise_hiValid (s : State) (e : ErrCode) : (s.raise e).hiValid = s.hiValid := rfl
@[simp] theorem raise_hiByte (s : State) (e : ErrCode) : (s.raise e).hiByte = s.hiByte := rfl
@[simp] theorem raise_outCnt (s : State) (e : ErrCode) : (s.raise e).outCnt = s.outCnt := rfl
@[simp] theorem raise_dDrain (s : State) (e : ErrCode) : (s.raise e).dDrain = s.dDrain := rfl
@[simp] theorem raise_dFin (s : State) (e : ErrCode) : (s.raise e).dFin = s.dFin := rfl
@[simp] theorem raise_resE (s : State) (e : ErrCode) : (s.raise e).resE = s.resE := rfl
@[simp] theorem raise_resD (s : State) (e : ErrCode) : (s.raise e).resD = s.resD := rfl
@[simp] theorem raise_cmd (s : State) (e : ErrCode) : (s.raise e).cmd = s.cmd := rfl
@[simp] theorem raise_rsp (s : State) (e : ErrCode) : (s.raise e).rsp = s.rsp := rfl
@[simp] theorem raise_pixIn (s : State) (e : ErrCode) : (s.raise e).pixIn = s.pixIn := rfl
@[simp] theorem raise_codeOut (s : State) (e : ErrCode) : (s.raise e).codeOut = s.codeOut := rfl
@[simp] theorem raise_codeIn (s : State) (e : ErrCode) : (s.raise e).codeIn = s.codeIn := rfl
@[simp] theorem raise_pixOut (s : State) (e : ErrCode) : (s.raise e).pixOut = s.pixOut := rfl
@[simp] theorem raise_sched (s : State) (e : ErrCode) : (s.raise e).sched = s.sched := rfl
@[simp] theorem raise_pick (s : State) (e : ErrCode) : (s.raise e).pick = s.pick := rfl

/-! ### State.respond -/

@[simp] theorem respond_rows (s : State) (v : Response) : (s.respond v).rows = s.rows := rfl
@[simp] theorem respond_cols (s : State) (v : Response) : (s.respond v).cols = s.cols := rfl
@[simp] theorem respond_chans (s : State) (v : Response) : (s.respond v).chans = s.chans := rfl
@[simp] theorem respond_state (s : State) (v : Response) : (s.respond v).state = s.state := rfl
@[simp] theorem respond_err (s : State) (v : Response) : (s.respond v).err = s.err := rfl
@[simp] theorem respond_job (s : State) (v : Response) : (s.respond v).job = s.job := rfl
@[simp] theorem respond_count (s : State) (v : Response) : (s.respond v).count = s.count := rfl
@[simp] theorem respond_row (s : State) (v : Response) : (s.respond v).row = s.row := rfl
@[simp] theorem respond_col (s : State) (v : Response) : (s.respond v).col = s.col := rfl
@[simp] theorem respond_ch (s : State) (v : Response) : (s.respond v).ch = s.ch := rfl
@[simp] theorem respond_left (s : State) (v : Response) : (s.respond v).left = s.left := rfl
@[simp] theorem respond_sEmpty (s : State) (v : Response) : (s.respond v).sEmpty = s.sEmpty := rfl
@[simp] theorem respond_sCode (s : State) (v : Response) : (s.respond v).sCode = s.sCode := rfl
@[simp] theorem respond_next (s : State) (v : Response) : (s.respond v).next = s.next := rfl
@[simp] theorem respond_dict (s : State) (v : Response) : (s.respond v).dict = s.dict := rfl
@[simp] theorem respond_hiValid (s : State) (v : Response) : (s.respond v).hiValid = s.hiValid := rfl
@[simp] theorem respond_hiByte (s : State) (v : Response) : (s.respond v).hiByte = s.hiByte := rfl
@[simp] theorem respond_outCnt (s : State) (v : Response) : (s.respond v).outCnt = s.outCnt := rfl
@[simp] theorem respond_dDrain (s : State) (v : Response) : (s.respond v).dDrain = s.dDrain := rfl
@[simp] theorem respond_dFin (s : State) (v : Response) : (s.respond v).dFin = s.dFin := rfl
@[simp] theorem respond_resE (s : State) (v : Response) : (s.respond v).resE = s.resE := rfl
@[simp] theorem respond_resD (s : State) (v : Response) : (s.respond v).resD = s.resD := rfl
@[simp] theorem respond_cmd (s : State) (v : Response) : (s.respond v).cmd = s.cmd := rfl
@[simp] theorem respond_rsp (s : State) (v : Response) : (s.respond v).rsp = s.rsp ++ [v] := rfl
@[simp] theorem respond_pixIn (s : State) (v : Response) : (s.respond v).pixIn = s.pixIn := rfl
@[simp] theorem respond_codeOut (s : State) (v : Response) : (s.respond v).codeOut = s.codeOut := rfl
@[simp] theorem respond_codeIn (s : State) (v : Response) : (s.respond v).codeIn = s.codeIn := rfl
@[simp] theorem respond_pixOut (s : State) (v : Response) : (s.respond v).pixOut = s.pixOut := rfl
@[simp] theorem respond_sched (s : State) (v : Response) : (s.respond v).sched = s.sched := rfl
@[simp] theorem respond_pick (s : State) (v : Response) : (s.respond v).pick = s.pick := rfl

/-! ### State.emit16 -/

@[simp] theorem emit16_rows (s : State) (c : Code) (l : Bool) : (s.emit16 c l).rows = s.rows := rfl
@[simp] theorem emit16_cols (s : State) (c : Code) (l : Bool) : (s.emit16 c l).cols = s.cols := rfl
@[simp] theorem emit16_chans (s : State) (c : Code) (l : Bool) : (s.emit16 c l).chans = s.chans := rfl
@[simp] theorem emit16_state (s : State) (c : Code) (l : Bool) : (s.emit16 c l).state = s.state := rfl
@[simp] theorem emit16_err (s : State) (c : Code) (l : Bool) : (s.emit16 c l).err = s.err := rfl
@[simp] theorem emit16_job (s : State) (c : Code) (l : Bool) : (s.emit16 c l).job = s.job := rfl
@[simp] theorem emit16_count (s : State) (c : Code) (l : Bool) : (s.emit16 c l).count = s.count := rfl
@[simp] theorem emit16_row (s : State) (c : Code) (l : Bool) : (s.emit16 c l).row = s.row := rfl
@[simp] theorem emit16_col (s : State) (c : Code) (l : Bool) : (s.emit16 c l).col = s.col := rfl
@[simp] theorem emit16_ch (s : State) (c : Code) (l : Bool) : (s.emit16 c l).ch = s.ch := rfl
@[simp] theorem emit16_left (s : State) (c : Code) (l : Bool) : (s.emit16 c l).left = s.left := rfl
@[simp] theorem emit16_sEmpty (s : State) (c : Code) (l : Bool) : (s.emit16 c l).sEmpty = s.sEmpty := rfl
@[simp] theorem emit16_sCode (s : State) (c : Code) (l : Bool) : (s.emit16 c l).sCode = s.sCode := rfl
@[simp] theorem emit16_next (s : State) (c : Code) (l : Bool) : (s.emit16 c l).next = s.next := rfl
@[simp] theorem emit16_dict (s : State) (c : Code) (l : Bool) : (s.emit16 c l).dict = s.dict := rfl
@[simp] theorem emit16_hiValid (s : State) (c : Code) (l : Bool) : (s.emit16 c l).hiValid = s.hiValid := rfl
@[simp] theorem emit16_hiByte (s : State) (c : Code) (l : Bool) : (s.emit16 c l).hiByte = s.hiByte := rfl
@[simp] theorem emit16_outCnt (s : State) (c : Code) (l : Bool) : (s.emit16 c l).outCnt = s.outCnt := rfl
@[simp] theorem emit16_dDrain (s : State) (c : Code) (l : Bool) : (s.emit16 c l).dDrain = s.dDrain := rfl
@[simp] theorem emit16_dFin (s : State) (c : Code) (l : Bool) : (s.emit16 c l).dFin = s.dFin := rfl
@[simp] theorem emit16_resE (s : State) (c : Code) (l : Bool) : (s.emit16 c l).resE = s.resE := rfl
@[simp] theorem emit16_resD (s : State) (c : Code) (l : Bool) : (s.emit16 c l).resD = s.resD := rfl
@[simp] theorem emit16_cmd (s : State) (c : Code) (l : Bool) : (s.emit16 c l).cmd = s.cmd := rfl
@[simp] theorem emit16_rsp (s : State) (c : Code) (l : Bool) : (s.emit16 c l).rsp = s.rsp := rfl
@[simp] theorem emit16_pixIn (s : State) (c : Code) (l : Bool) : (s.emit16 c l).pixIn = s.pixIn := rfl
@[simp] theorem emit16_codeOut (s : State) (c : Code) (l : Bool) : (s.emit16 c l).codeOut = s.codeOut ++ [flagByte false (codeHigh c), flagByte l (codeLow c)] := rfl
@[simp] theorem emit16_codeIn (s : State) (c : Code) (l : Bool) : (s.emit16 c l).codeIn = s.codeIn := rfl
@[simp] theorem emit16_pixOut (s : State) (c : Code) (l : Bool) : (s.emit16 c l).pixOut = s.pixOut := rfl
@[simp] theorem emit16_sched (s : State) (c : Code) (l : Bool) : (s.emit16 c l).sched = s.sched := rfl
@[simp] theorem emit16_pick (s : State) (c : Code) (l : Bool) : (s.emit16 c l).pick = s.pick := rfl

/-! ### State.insert -/

@[simp] theorem insert_rows (s : State) (p : Code) (b : Int) : (s.insert p b).rows = s.rows := rfl
@[simp] theorem insert_cols (s : State) (p : Code) (b : Int) : (s.insert p b).cols = s.cols := rfl
@[simp] theorem insert_chans (s : State) (p : Code) (b : Int) : (s.insert p b).chans = s.chans := rfl
@[simp] theorem insert_state (s : State) (p : Code) (b : Int) : (s.insert p b).state = s.state := rfl
@[simp] theorem insert_err (s : State) (p : Code) (b : Int) : (s.insert p b).err = s.err := rfl
@[simp] theorem insert_job (s : State) (p : Code) (b : Int) : (s.insert p b).job = s.job := rfl
@[simp] theorem insert_count (s : State) (p : Code) (b : Int) : (s.insert p b).count = s.count := rfl
@[simp] theorem insert_row (s : State) (p : Code) (b : Int) : (s.insert p b).row = s.row := rfl
@[simp] theorem insert_col (s : State) (p : Code) (b : Int) : (s.insert p b).col = s.col := rfl
@[simp] theorem insert_ch (s : State) (p : Code) (b : Int) : (s.insert p b).ch = s.ch := rfl
@[simp] theorem insert_left (s : State) (p : Code) (b : Int) : (s.insert p b).left = s.left := rfl
@[simp] theorem insert_sEmpty (s : State) (p : Code) (b : Int) : (s.insert p b).sEmpty = s.sEmpty := rfl
@[simp] theorem insert_sCode (s : State) (p : Code) (b : Int) : (s.insert p b).sCode = s.sCode := rfl
@[simp] theorem insert_next (s : State) (p : Code) (b : Int) : (s.insert p b).next = (if s.next.toNat < Config.dictCap then s.next + 1 else s.next) := rfl
@[simp] theorem insert_dict (s : State) (p : Code) (b : Int) : (s.insert p b).dict = (if s.next.toNat < Config.dictCap then s.dict.write s.next.toNat { root := false, prefixCode := p, sym := sym9 b } else s.dict) := rfl
@[simp] theorem insert_hiValid (s : State) (p : Code) (b : Int) : (s.insert p b).hiValid = s.hiValid := rfl
@[simp] theorem insert_hiByte (s : State) (p : Code) (b : Int) : (s.insert p b).hiByte = s.hiByte := rfl
@[simp] theorem insert_outCnt (s : State) (p : Code) (b : Int) : (s.insert p b).outCnt = s.outCnt := rfl
@[simp] theorem insert_dDrain (s : State) (p : Code) (b : Int) : (s.insert p b).dDrain = s.dDrain := rfl
@[simp] theorem insert_dFin (s : State) (p : Code) (b : Int) : (s.insert p b).dFin = s.dFin := rfl
@[simp] theorem insert_resE (s : State) (p : Code) (b : Int) : (s.insert p b).resE = s.resE := rfl
@[simp] theorem insert_resD (s : State) (p : Code) (b : Int) : (s.insert p b).resD = s.resD := rfl
@[simp] theorem insert_cmd (s : State) (p : Code) (b : Int) : (s.insert p b).cmd = s.cmd := rfl
@[simp] theorem insert_rsp (s : State) (p : Code) (b : Int) : (s.insert p b).rsp = s.rsp := rfl
@[simp] theorem insert_pixIn (s : State) (p : Code) (b : Int) : (s.insert p b).pixIn = s.pixIn := rfl
@[simp] theorem insert_codeOut (s : State) (p : Code) (b : Int) : (s.insert p b).codeOut = s.codeOut := rfl
@[simp] theorem insert_codeIn (s : State) (p : Code) (b : Int) : (s.insert p b).codeIn = s.codeIn := rfl
@[simp] theorem insert_pixOut (s : State) (p : Code) (b : Int) : (s.insert p b).pixOut = s.pixOut := rfl
@[simp] theorem insert_sched (s : State) (p : Code) (b : Int) : (s.insert p b).sched = s.sched := rfl
@[simp] theorem insert_pick (s : State) (p : Code) (b : Int) : (s.insert p b).pick = s.pick := rfl

/-! ### State.advance -/

@[simp] theorem advance_rows (s : State) : (s.advance).rows = s.rows := rfl
@[simp] theorem advance_cols (s : State) : (s.advance).cols = s.cols := rfl
@[simp] theorem advance_chans (s : State) : (s.advance).chans = s.chans := rfl
@[simp] theorem advance_state (s : State) : (s.advance).state = s.state := rfl
@[simp] theorem advance_err (s : State) : (s.advance).err = s.err := rfl
@[simp] theorem advance_job (s : State) : (s.advance).job = s.job := rfl
@[simp] theorem advance_count (s : State) : (s.advance).count = s.count := rfl
@[simp] theorem advance_row (s : State) : (s.advance).row = (if s.colWraps then s.row + 1 else s.row) := rfl
@[simp] theorem advance_col (s : State) : (s.advance).col = (if s.colWraps then 0 else if s.chWraps then s.col + 1 else s.col) := rfl
@[simp] theorem advance_ch (s : State) : (s.advance).ch = (if s.chWraps then 0 else s.ch + 1) := rfl
@[simp] theorem advance_left (s : State) : (s.advance).left = s.left := rfl
@[simp] theorem advance_sEmpty (s : State) : (s.advance).sEmpty = s.sEmpty := rfl
@[simp] theorem advance_sCode (s : State) : (s.advance).sCode = s.sCode := rfl
@[simp] theorem advance_next (s : State) : (s.advance).next = s.next := rfl
@[simp] theorem advance_dict (s : State) : (s.advance).dict = s.dict := rfl
@[simp] theorem advance_hiValid (s : State) : (s.advance).hiValid = s.hiValid := rfl
@[simp] theorem advance_hiByte (s : State) : (s.advance).hiByte = s.hiByte := rfl
@[simp] theorem advance_outCnt (s : State) : (s.advance).outCnt = s.outCnt := rfl
@[simp] theorem advance_dDrain (s : State) : (s.advance).dDrain = s.dDrain := rfl
@[simp] theorem advance_dFin (s : State) : (s.advance).dFin = s.dFin := rfl
@[simp] theorem advance_resE (s : State) : (s.advance).resE = s.resE := rfl
@[simp] theorem advance_resD (s : State) : (s.advance).resD = s.resD := rfl
@[simp] theorem advance_cmd (s : State) : (s.advance).cmd = s.cmd := rfl
@[simp] theorem advance_rsp (s : State) : (s.advance).rsp = s.rsp := rfl
@[simp] theorem advance_pixIn (s : State) : (s.advance).pixIn = s.pixIn := rfl
@[simp] theorem advance_codeOut (s : State) : (s.advance).codeOut = s.codeOut := rfl
@[simp] theorem advance_codeIn (s : State) : (s.advance).codeIn = s.codeIn := rfl
@[simp] theorem advance_pixOut (s : State) : (s.advance).pixOut = s.pixOut := rfl
@[simp] theorem advance_sched (s : State) : (s.advance).sched = s.sched := rfl
@[simp] theorem advance_pick (s : State) : (s.advance).pick = s.pick := rfl

/-! ### State.initJob -/

@[simp] theorem initJob_rows (s : State) : (s.initJob).rows = s.rows := rfl
@[simp] theorem initJob_cols (s : State) : (s.initJob).cols = s.cols := rfl
@[simp] theorem initJob_chans (s : State) : (s.initJob).chans = s.chans := rfl
@[simp] theorem initJob_state (s : State) : (s.initJob).state = s.state := rfl
@[simp] theorem initJob_err (s : State) : (s.initJob).err = .noFault := rfl
@[simp] theorem initJob_job (s : State) : (s.initJob).job = s.job := rfl
@[simp] theorem initJob_count (s : State) : (s.initJob).count = BitVec.ofNat 48 (s.rows.toNat * s.cols.toNat * s.chans.toNat) := rfl
@[simp] theorem initJob_row (s : State) : (s.initJob).row = 0 := rfl
@[simp] theorem initJob_col (s : State) : (s.initJob).col = 0 := rfl
@[simp] theorem initJob_ch (s : State) : (s.initJob).ch = 0 := rfl
@[simp] theorem initJob_left (s : State) : (s.initJob).left = s.left := rfl
@[simp] theorem initJob_sEmpty (s : State) : (s.initJob).sEmpty = true := rfl
@[simp] theorem initJob_sCode (s : State) : (s.initJob).sCode = 0 := rfl
@[simp] theorem initJob_next (s : State) : (s.initJob).next = 511 := rfl
@[simp] theorem initJob_dict (s : State) : (s.initJob).dict = s.dict := rfl
@[simp] theorem initJob_hiValid (s : State) : (s.initJob).hiValid = false := rfl
@[simp] theorem initJob_hiByte (s : State) : (s.initJob).hiByte = 0 := rfl
@[simp] theorem initJob_outCnt (s : State) : (s.initJob).outCnt = 0 := rfl
@[simp] theorem initJob_dDrain (s : State) : (s.initJob).dDrain = false := rfl
@[simp] theorem initJob_dFin (s : State) : (s.initJob).dFin = false := rfl
@[simp] theorem initJob_resE (s : State) : (s.initJob).resE = [] := rfl
@[simp] theorem initJob_resD (s : State) : (s.initJob).resD = [] := rfl
@[simp] theorem initJob_cmd (s : State) : (s.initJob).cmd = s.cmd := rfl
@[simp] theorem initJob_rsp (s : State) : (s.initJob).rsp = s.rsp := rfl
@[simp] theorem initJob_pixIn (s : State) : (s.initJob).pixIn = s.pixIn := rfl
@[simp] theorem initJob_codeOut (s : State) : (s.initJob).codeOut = s.codeOut := rfl
@[simp] theorem initJob_codeIn (s : State) : (s.initJob).codeIn = s.codeIn := rfl
@[simp] theorem initJob_pixOut (s : State) : (s.initJob).pixOut = s.pixOut := rfl
@[simp] theorem initJob_sched (s : State) : (s.initJob).sched = s.sched := rfl
@[simp] theorem initJob_pick (s : State) : (s.initJob).pick = s.pick := rfl

/-! ### State.startEncode -/

@[simp] theorem startEncode_rows (s : State) : (s.startEncode).rows = s.rows := rfl
@[simp] theorem startEncode_cols (s : State) : (s.startEncode).cols = s.cols := rfl
@[simp] theorem startEncode_chans (s : State) : (s.startEncode).chans = s.chans := rfl
@[simp] theorem startEncode_state (s : State) : (s.startEncode).state = .enc := rfl
@[simp] theorem startEncode_err (s : State) : (s.startEncode).err = .noFault := rfl
@[simp] theorem startEncode_job (s : State) : (s.startEncode).job = .enc := rfl
@[simp] theorem startEncode_count (s : State) : (s.startEncode).count = BitVec.ofNat 48 (s.rows.toNat * s.cols.toNat * s.chans.toNat) := rfl
@[simp] theorem startEncode_row (s : State) : (s.startEncode).row = 0 := rfl
@[simp] theorem startEncode_col (s : State) : (s.startEncode).col = 0 := rfl
@[simp] theorem startEncode_ch (s : State) : (s.startEncode).ch = 0 := rfl
@[simp] theorem startEncode_left (s : State) : (s.startEncode).left = s.left := rfl
@[simp] theorem startEncode_sEmpty (s : State) : (s.startEncode).sEmpty = true := rfl
@[simp] theorem startEncode_sCode (s : State) : (s.startEncode).sCode = 0 := rfl
@[simp] theorem startEncode_next (s : State) : (s.startEncode).next = 511 := rfl
@[simp] theorem startEncode_dict (s : State) : (s.startEncode).dict = s.dict := rfl
@[simp] theorem startEncode_hiValid (s : State) : (s.startEncode).hiValid = false := rfl
@[simp] theorem startEncode_hiByte (s : State) : (s.startEncode).hiByte = 0 := rfl
@[simp] theorem startEncode_outCnt (s : State) : (s.startEncode).outCnt = 0 := rfl
@[simp] theorem startEncode_dDrain (s : State) : (s.startEncode).dDrain = false := rfl
@[simp] theorem startEncode_dFin (s : State) : (s.startEncode).dFin = false := rfl
@[simp] theorem startEncode_resE (s : State) : (s.startEncode).resE = [] := rfl
@[simp] theorem startEncode_resD (s : State) : (s.startEncode).resD = [] := rfl
@[simp] theorem startEncode_cmd (s : State) : (s.startEncode).cmd = s.cmd := rfl
@[simp] theorem startEncode_rsp (s : State) : (s.startEncode).rsp = s.rsp := rfl
@[simp] theorem startEncode_pixIn (s : State) : (s.startEncode).pixIn = s.pixIn := rfl
@[simp] theorem startEncode_codeOut (s : State) : (s.startEncode).codeOut = s.codeOut := rfl
@[simp] theorem startEncode_codeIn (s : State) : (s.startEncode).codeIn = s.codeIn := rfl
@[simp] theorem startEncode_pixOut (s : State) : (s.startEncode).pixOut = s.pixOut := rfl
@[simp] theorem startEncode_sched (s : State) : (s.startEncode).sched = s.sched := rfl
@[simp] theorem startEncode_pick (s : State) : (s.startEncode).pick = s.pick := rfl

/-! ### State.startDecode -/

@[simp] theorem startDecode_rows (s : State) : (s.startDecode).rows = s.rows := rfl
@[simp] theorem startDecode_cols (s : State) : (s.startDecode).cols = s.cols := rfl
@[simp] theorem startDecode_chans (s : State) : (s.startDecode).chans = s.chans := rfl
@[simp] theorem startDecode_state (s : State) : (s.startDecode).state = .dec := rfl
@[simp] theorem startDecode_err (s : State) : (s.startDecode).err = .noFault := rfl
@[simp] theorem startDecode_job (s : State) : (s.startDecode).job = .dec := rfl
@[simp] theorem startDecode_count (s : State) : (s.startDecode).count = BitVec.ofNat 48 (s.rows.toNat * s.cols.toNat * s.chans.toNat) := rfl
@[simp] theorem startDecode_row (s : State) : (s.startDecode).row = 0 := rfl
@[simp] theorem startDecode_col (s : State) : (s.startDecode).col = 0 := rfl
@[simp] theorem startDecode_ch (s : State) : (s.startDecode).ch = 0 := rfl
@[simp] theorem startDecode_left (s : State) : (s.startDecode).left = s.left := rfl
@[simp] theorem startDecode_sEmpty (s : State) : (s.startDecode).sEmpty = true := rfl
@[simp] theorem startDecode_sCode (s : State) : (s.startDecode).sCode = 0 := rfl
@[simp] theorem startDecode_next (s : State) : (s.startDecode).next = 511 := rfl
@[simp] theorem startDecode_dict (s : State) : (s.startDecode).dict = s.dict := rfl
@[simp] theorem startDecode_hiValid (s : State) : (s.startDecode).hiValid = false := rfl
@[simp] theorem startDecode_hiByte (s : State) : (s.startDecode).hiByte = 0 := rfl
@[simp] theorem startDecode_outCnt (s : State) : (s.startDecode).outCnt = 0 := rfl
@[simp] theorem startDecode_dDrain (s : State) : (s.startDecode).dDrain = false := rfl
@[simp] theorem startDecode_dFin (s : State) : (s.startDecode).dFin = false := rfl
@[simp] theorem startDecode_resE (s : State) : (s.startDecode).resE = [] := rfl
@[simp] theorem startDecode_resD (s : State) : (s.startDecode).resD = [] := rfl
@[simp] theorem startDecode_cmd (s : State) : (s.startDecode).cmd = s.cmd := rfl
@[simp] theorem startDecode_rsp (s : State) : (s.startDecode).rsp = s.rsp := rfl
@[simp] theorem startDecode_pixIn (s : State) : (s.startDecode).pixIn = s.pixIn := rfl
@[simp] theorem startDecode_codeOut (s : State) : (s.startDecode).codeOut = s.codeOut := rfl
@[simp] theorem startDecode_codeIn (s : State) : (s.startDecode).codeIn = s.codeIn := rfl
@[simp] theorem startDecode_pixOut (s : State) : (s.startDecode).pixOut = s.pixOut := rfl
@[simp] theorem startDecode_sched (s : State) : (s.startDecode).sched = s.sched := rfl
@[simp] theorem startDecode_pick (s : State) : (s.startDecode).pick = s.pick := rfl

/-! ### State.abortJob -/

@[simp] theorem abortJob_rows (s : State) : (s.abortJob).rows = s.rows := rfl
@[simp] theorem abortJob_cols (s : State) : (s.abortJob).cols = s.cols := rfl
@[simp] theorem abortJob_chans (s : State) : (s.abortJob).chans = s.chans := rfl
@[simp] theorem abortJob_state (s : State) : (s.abortJob).state = .idle := rfl
@[simp] theorem abortJob_err (s : State) : (s.abortJob).err = .noFault := rfl
@[simp] theorem abortJob_job (s : State) : (s.abortJob).job = s.job := rfl
@[simp] theorem abortJob_count (s : State) : (s.abortJob).count = 0 := rfl
@[simp] theorem abortJob_row (s : State) : (s.abortJob).row = 0 := rfl
@[simp] theorem abortJob_col (s : State) : (s.abortJob).col = 0 := rfl
@[simp] theorem abortJob_ch (s : State) : (s.abortJob).ch = 0 := rfl
@[simp] theorem abortJob_left (s : State) : (s.abortJob).left = s.left := rfl
@[simp] theorem abortJob_sEmpty (s : State) : (s.abortJob).sEmpty = true := rfl
@[simp] theorem abortJob_sCode (s : State) : (s.abortJob).sCode = 0 := rfl
@[simp] theorem abortJob_next (s : State) : (s.abortJob).next = 511 := rfl
@[simp] theorem abortJob_dict (s : State) : (s.abortJob).dict = s.dict := rfl
@[simp] theorem abortJob_hiValid (s : State) : (s.abortJob).hiValid = false := rfl
@[simp] theorem abortJob_hiByte (s : State) : (s.abortJob).hiByte = 0 := rfl
@[simp] theorem abortJob_outCnt (s : State) : (s.abortJob).outCnt = 0 := rfl
@[simp] theorem abortJob_dDrain (s : State) : (s.abortJob).dDrain = false := rfl
@[simp] theorem abortJob_dFin (s : State) : (s.abortJob).dFin = false := rfl
@[simp] theorem abortJob_resE (s : State) : (s.abortJob).resE = [] := rfl
@[simp] theorem abortJob_resD (s : State) : (s.abortJob).resD = [] := rfl
@[simp] theorem abortJob_cmd (s : State) : (s.abortJob).cmd = s.cmd := rfl
@[simp] theorem abortJob_rsp (s : State) : (s.abortJob).rsp = s.rsp := rfl
@[simp] theorem abortJob_pixIn (s : State) : (s.abortJob).pixIn = s.pixIn := rfl
@[simp] theorem abortJob_codeOut (s : State) : (s.abortJob).codeOut = s.codeOut := rfl
@[simp] theorem abortJob_codeIn (s : State) : (s.abortJob).codeIn = s.codeIn := rfl
@[simp] theorem abortJob_pixOut (s : State) : (s.abortJob).pixOut = s.pixOut := rfl
@[simp] theorem abortJob_sched (s : State) : (s.abortJob).sched = s.sched := rfl
@[simp] theorem abortJob_pick (s : State) : (s.abortJob).pick = s.pick := rfl

/-! ### State.nextPick -/

@[simp] theorem nextPick_rows (s : State) : (s.nextPick).rows = s.rows := rfl
@[simp] theorem nextPick_cols (s : State) : (s.nextPick).cols = s.cols := rfl
@[simp] theorem nextPick_chans (s : State) : (s.nextPick).chans = s.chans := rfl
@[simp] theorem nextPick_state (s : State) : (s.nextPick).state = s.state := rfl
@[simp] theorem nextPick_err (s : State) : (s.nextPick).err = s.err := rfl
@[simp] theorem nextPick_job (s : State) : (s.nextPick).job = s.job := rfl
@[simp] theorem nextPick_count (s : State) : (s.nextPick).count = s.count := rfl
@[simp] theorem nextPick_row (s : State) : (s.nextPick).row = s.row := rfl
@[simp] theorem nextPick_col (s : State) : (s.nextPick).col = s.col := rfl
@[simp] theorem nextPick_ch (s : State) : (s.nextPick).ch = s.ch := rfl
@[simp] theorem nextPick_left (s : State) : (s.nextPick).left = s.left := rfl
@[simp] theorem nextPick_sEmpty (s : State) : (s.nextPick).sEmpty = s.sEmpty := rfl
@[simp] theorem nextPick_sCode (s : State) : (s.nextPick).sCode = s.sCode := rfl
@[simp] theorem nextPick_next (s : State) : (s.nextPick).next = s.next := rfl
@[simp] theorem nextPick_dict (s : State) : (s.nextPick).dict = s.dict := rfl
@[simp] theorem nextPick_hiValid (s : State) : (s.nextPick).hiValid = s.hiValid := rfl
@[simp] theorem nextPick_hiByte (s : State) : (s.nextPick).hiByte = s.hiByte := rfl
@[simp] theorem nextPick_outCnt (s : State) : (s.nextPick).outCnt = s.outCnt := rfl
@[simp] theorem nextPick_dDrain (s : State) : (s.nextPick).dDrain = s.dDrain := rfl
@[simp] theorem nextPick_dFin (s : State) : (s.nextPick).dFin = s.dFin := rfl
@[simp] theorem nextPick_resE (s : State) : (s.nextPick).resE = s.resE := rfl
@[simp] theorem nextPick_resD (s : State) : (s.nextPick).resD = s.resD := rfl
@[simp] theorem nextPick_cmd (s : State) : (s.nextPick).cmd = s.cmd := rfl
@[simp] theorem nextPick_rsp (s : State) : (s.nextPick).rsp = s.rsp := rfl
@[simp] theorem nextPick_pixIn (s : State) : (s.nextPick).pixIn = s.pixIn := rfl
@[simp] theorem nextPick_codeOut (s : State) : (s.nextPick).codeOut = s.codeOut := rfl
@[simp] theorem nextPick_codeIn (s : State) : (s.nextPick).codeIn = s.codeIn := rfl
@[simp] theorem nextPick_pixOut (s : State) : (s.nextPick).pixOut = s.pixOut := rfl
@[simp] theorem nextPick_sched (s : State) : (s.nextPick).sched = s.sched.tail := rfl
@[simp] theorem nextPick_pick (s : State) : (s.nextPick).pick = s.pick + 1 := rfl

/-! ### State.finishEncode -/

@[simp] theorem finishEncode_rows (s : State) (l : Bool) : (s.finishEncode l).rows = s.rows := rfl
@[simp] theorem finishEncode_cols (s : State) (l : Bool) : (s.finishEncode l).cols = s.cols := rfl
@[simp] theorem finishEncode_chans (s : State) (l : Bool) : (s.finishEncode l).chans = s.chans := rfl
@[simp] theorem finishEncode_state (s : State) (l : Bool) : (s.finishEncode l).state = (if l then .done else s.state) := rfl
@[simp] theorem finishEncode_err (s : State) (l : Bool) : (s.finishEncode l).err = s.err := rfl
@[simp] theorem finishEncode_job (s : State) (l : Bool) : (s.finishEncode l).job = s.job := rfl
@[simp] theorem finishEncode_count (s : State) (l : Bool) : (s.finishEncode l).count = s.count := rfl
@[simp] theorem finishEncode_row (s : State) (l : Bool) : (s.finishEncode l).row = s.row := rfl
@[simp] theorem finishEncode_col (s : State) (l : Bool) : (s.finishEncode l).col = s.col := rfl
@[simp] theorem finishEncode_ch (s : State) (l : Bool) : (s.finishEncode l).ch = s.ch := rfl
@[simp] theorem finishEncode_left (s : State) (l : Bool) : (s.finishEncode l).left = s.left := rfl
@[simp] theorem finishEncode_sEmpty (s : State) (l : Bool) : (s.finishEncode l).sEmpty = s.sEmpty := rfl
@[simp] theorem finishEncode_sCode (s : State) (l : Bool) : (s.finishEncode l).sCode = s.sCode := rfl
@[simp] theorem finishEncode_next (s : State) (l : Bool) : (s.finishEncode l).next = s.next := rfl
@[simp] theorem finishEncode_dict (s : State) (l : Bool) : (s.finishEncode l).dict = s.dict := rfl
@[simp] theorem finishEncode_hiValid (s : State) (l : Bool) : (s.finishEncode l).hiValid = s.hiValid := rfl
@[simp] theorem finishEncode_hiByte (s : State) (l : Bool) : (s.finishEncode l).hiByte = s.hiByte := rfl
@[simp] theorem finishEncode_outCnt (s : State) (l : Bool) : (s.finishEncode l).outCnt = s.outCnt := rfl
@[simp] theorem finishEncode_dDrain (s : State) (l : Bool) : (s.finishEncode l).dDrain = s.dDrain := rfl
@[simp] theorem finishEncode_dFin (s : State) (l : Bool) : (s.finishEncode l).dFin = s.dFin := rfl
@[simp] theorem finishEncode_resE (s : State) (l : Bool) : (s.finishEncode l).resE = s.resE := rfl
@[simp] theorem finishEncode_resD (s : State) (l : Bool) : (s.finishEncode l).resD = s.resD := rfl
@[simp] theorem finishEncode_cmd (s : State) (l : Bool) : (s.finishEncode l).cmd = s.cmd := rfl
@[simp] theorem finishEncode_rsp (s : State) (l : Bool) : (s.finishEncode l).rsp = s.rsp := rfl
@[simp] theorem finishEncode_pixIn (s : State) (l : Bool) : (s.finishEncode l).pixIn = s.pixIn := rfl
@[simp] theorem finishEncode_codeOut (s : State) (l : Bool) : (s.finishEncode l).codeOut = (if l then s.codeOut ++ [flagByte false (codeHigh s.sCode), flagByte true (codeLow s.sCode)] else s.codeOut) := rfl
@[simp] theorem finishEncode_codeIn (s : State) (l : Bool) : (s.finishEncode l).codeIn = s.codeIn := rfl
@[simp] theorem finishEncode_pixOut (s : State) (l : Bool) : (s.finishEncode l).pixOut = s.pixOut := rfl
@[simp] theorem finishEncode_sched (s : State) (l : Bool) : (s.finishEncode l).sched = s.sched := rfl
@[simp] theorem finishEncode_pick (s : State) (l : Bool) : (s.finishEncode l).pick = s.pick := rfl

/-! ### State.finishDecode -/

@[simp] theorem finishDecode_rows (s : State) : (s.finishDecode).rows = s.rows := rfl
@[simp] theorem finishDecode_cols (s : State) : (s.finishDecode).cols = s.cols := rfl
@[simp] theorem finishDecode_chans (s : State) : (s.finishDecode).chans = s.chans := rfl
@[simp] theorem finishDecode_state (s : State) : (s.finishDecode).state = (if s.walkDone && s.dFin then .done else s.state) := rfl
@[simp] theorem finishDecode_err (s : State) : (s.finishDecode).err = s.err := rfl
@[simp] theorem finishDecode_job (s : State) : (s.finishDecode).job = s.job := rfl
@[simp] theorem finishDecode_count (s : State) : (s.finishDecode).count = s.count := rfl
@[simp] theorem finishDecode_row (s : State) : (s.finishDecode).row = s.row := rfl
@[simp] theorem finishDecode_col (s : State) : (s.finishDecode).col = s.col := rfl
@[simp] theorem finishDecode_ch (s : State) : (s.finishDecode).ch = s.ch := rfl
@[simp] theorem finishDecode_left (s : State) : (s.finishDecode).left = s.left := rfl
@[simp] theorem finishDecode_sEmpty (s : State) : (s.finishDecode).sEmpty = s.sEmpty := rfl
@[simp] theorem finishDecode_sCode (s : State) : (s.finishDecode).sCode = s.sCode := rfl
@[simp] theorem finishDecode_next (s : State) : (s.finishDecode).next = s.next := rfl
@[simp] theorem finishDecode_dict (s : State) : (s.finishDecode).dict = s.dict := rfl
@[simp] theorem finishDecode_hiValid (s : State) : (s.finishDecode).hiValid = s.hiValid := rfl
@[simp] theorem finishDecode_hiByte (s : State) : (s.finishDecode).hiByte = s.hiByte := rfl
@[simp] theorem finishDecode_outCnt (s : State) : (s.finishDecode).outCnt = s.outCnt := rfl
@[simp] theorem finishDecode_dDrain (s : State) : (s.finishDecode).dDrain = s.dDrain := rfl
@[simp] theorem finishDecode_dFin (s : State) : (s.finishDecode).dFin = s.dFin := rfl
@[simp] theorem finishDecode_resE (s : State) : (s.finishDecode).resE = s.resE := rfl
@[simp] theorem finishDecode_resD (s : State) : (s.finishDecode).resD = s.resD := rfl
@[simp] theorem finishDecode_cmd (s : State) : (s.finishDecode).cmd = s.cmd := rfl
@[simp] theorem finishDecode_rsp (s : State) : (s.finishDecode).rsp = s.rsp := rfl
@[simp] theorem finishDecode_pixIn (s : State) : (s.finishDecode).pixIn = s.pixIn := rfl
@[simp] theorem finishDecode_codeOut (s : State) : (s.finishDecode).codeOut = s.codeOut := rfl
@[simp] theorem finishDecode_codeIn (s : State) : (s.finishDecode).codeIn = s.codeIn := rfl
@[simp] theorem finishDecode_pixOut (s : State) : (s.finishDecode).pixOut = s.pixOut := rfl
@[simp] theorem finishDecode_sched (s : State) : (s.finishDecode).sched = s.sched := rfl
@[simp] theorem finishDecode_pick (s : State) : (s.finishDecode).pick = s.pick := rfl

/-! ### State.output -/

@[simp] theorem output_rows (s : State) (k : Code) (n : Nat) (t : List Int) : (s.output k n t).rows = s.rows := rfl
@[simp] theorem output_cols (s : State) (k : Code) (n : Nat) (t : List Int) : (s.output k n t).cols = s.cols := rfl
@[simp] theorem output_chans (s : State) (k : Code) (n : Nat) (t : List Int) : (s.output k n t).chans = s.chans := rfl
@[simp] theorem output_state (s : State) (k : Code) (n : Nat) (t : List Int) : (s.output k n t).state = s.state := rfl
@[simp] theorem output_err (s : State) (k : Code) (n : Nat) (t : List Int) : (s.output k n t).err = s.err := rfl
@[simp] theorem output_job (s : State) (k : Code) (n : Nat) (t : List Int) : (s.output k n t).job = s.job := rfl
@[simp] theorem output_count (s : State) (k : Code) (n : Nat) (t : List Int) : (s.output k n t).count = s.count := rfl
@[simp] theorem output_row (s : State) (k : Code) (n : Nat) (t : List Int) : (s.output k n t).row = s.row := rfl
@[simp] theorem output_col (s : State) (k : Code) (n : Nat) (t : List Int) : (s.output k n t).col = s.col := rfl
@[simp] theorem output_ch (s : State) (k : Code) (n : Nat) (t : List Int) : (s.output k n t).ch = s.ch := rfl
@[simp] theorem output_left (s : State) (k : Code) (n : Nat) (t : List Int) : (s.output k n t).left = s.left := rfl
@[simp] theorem output_sEmpty (s : State) (k : Code) (n : Nat) (t : List Int) : (s.output k n t).sEmpty = false := rfl
@[simp] theorem output_sCode (s : State) (k : Code) (n : Nat) (t : List Int) : (s.output k n t).sCode = k := rfl
@[simp] theorem output_next (s : State) (k : Code) (n : Nat) (t : List Int) : (s.output k n t).next = s.next := rfl
@[simp] theorem output_dict (s : State) (k : Code) (n : Nat) (t : List Int) : (s.output k n t).dict = s.dict := rfl
@[simp] theorem output_hiValid (s : State) (k : Code) (n : Nat) (t : List Int) : (s.output k n t).hiValid = s.hiValid := rfl
@[simp] theorem output_hiByte (s : State) (k : Code) (n : Nat) (t : List Int) : (s.output k n t).hiByte = s.hiByte := rfl
@[simp] theorem output_outCnt (s : State) (k : Code) (n : Nat) (t : List Int) : (s.output k n t).outCnt = BitVec.ofNat 48 (s.outCnt.toNat + n) := rfl
@[simp] theorem output_dDrain (s : State) (k : Code) (n : Nat) (t : List Int) : (s.output k n t).dDrain = (s.dDrain || decide (s.outCnt.toNat + n = s.count.toNat)) := rfl
@[simp] theorem output_dFin (s : State) (k : Code) (n : Nat) (t : List Int) : (s.output k n t).dFin = s.dFin := rfl
@[simp] theorem output_resE (s : State) (k : Code) (n : Nat) (t : List Int) : (s.output k n t).resE = s.resE := rfl
@[simp] theorem output_resD (s : State) (k : Code) (n : Nat) (t : List Int) : (s.output k n t).resD = s.resD ++ t.map sym9 := rfl
@[simp] theorem output_cmd (s : State) (k : Code) (n : Nat) (t : List Int) : (s.output k n t).cmd = s.cmd := rfl
@[simp] theorem output_rsp (s : State) (k : Code) (n : Nat) (t : List Int) : (s.output k n t).rsp = s.rsp := rfl
@[simp] theorem output_pixIn (s : State) (k : Code) (n : Nat) (t : List Int) : (s.output k n t).pixIn = s.pixIn := rfl
@[simp] theorem output_codeOut (s : State) (k : Code) (n : Nat) (t : List Int) : (s.output k n t).codeOut = s.codeOut := rfl
@[simp] theorem output_codeIn (s : State) (k : Code) (n : Nat) (t : List Int) : (s.output k n t).codeIn = s.codeIn := rfl
@[simp] theorem output_pixOut (s : State) (k : Code) (n : Nat) (t : List Int) : (s.output k n t).pixOut = s.pixOut := rfl
@[simp] theorem output_sched (s : State) (k : Code) (n : Nat) (t : List Int) : (s.output k n t).sched = s.sched := rfl
@[simp] theorem output_pick (s : State) (k : Code) (n : Nat) (t : List Int) : (s.output k n t).pick = s.pick := rfl

end Sys2Proof.Machine
end

