-- ==== Sys2Proof/Laws/Values.lean ====
section
/-! SUPPORT. The value conversions: symbols and integers (00_scope.md R9), codes and their bytes (20_memory.md R73), the fields of the items the units push (30_encoding.md R97, R99, R100). -/

namespace Sys2Proof.Machine

/-! ### Symbols -/

theorem int9_eq_toInt (p : Sym) : int9 p = p.toInt := by
  rw [BitVec.toInt_eq_toNat_cond]
  unfold int9
  have := p.isLt
  split <;> split <;> omega

@[simp] theorem sym9_int9 (p : Sym) : sym9 (int9 p) = p := by
  rw [int9_eq_toInt, sym9, BitVec.ofInt_toInt]

theorem int9_range (p : Sym) : -256 ≤ int9 p ∧ int9 p ≤ 255 := by
  have := p.isLt
  unfold int9
  split <;> omega

theorem int9_sym9 {v : Int} (h1 : -256 ≤ v) (h2 : v ≤ 255) : int9 (sym9 v) = v := by
  rw [int9_eq_toInt, sym9, BitVec.toInt_ofInt]
  exact Int.bmod_eq_of_le (by simpa using h1) (by simp; omega)

theorem isSymbol_iff (p : Sym) : isSymbol p = true ↔ -255 ≤ int9 p := by
  have := p.isLt
  unfold isSymbol int9
  rw [decide_eq_true_iff]
  constructor
  · intro h
    have : p.toNat ≠ 256 := fun e => h (BitVec.eq_of_toNat_eq (by simpa using e))
    split <;> omega
  · rintro h rfl
    simp at h

theorem isSymbol_sym9 {v : Int} (h1 : -255 ≤ v) (h2 : v ≤ 255) : isSymbol (sym9 v) = true := by
  rw [isSymbol_iff, int9_sym9 (by omega) h2]
  exact h1

theorem sym9_inj {v w : Int} (hv1 : -256 ≤ v) (hv2 : v ≤ 255) (hw1 : -256 ≤ w) (hw2 : w ≤ 255)
    (h : sym9 v = sym9 w) : v = w := by
  rw [← int9_sym9 hv1 hv2, ← int9_sym9 hw1 hw2, h]

theorem seedCode_toNat {b : Int} (h1 : -255 ≤ b) (h2 : b ≤ 255) : ((seedCode b).toNat : Int) = b + 255 := by
  unfold seedCode
  rw [BitVec.toNat_ofInt]
  omega

/-! ### Codes and bytes -/

theorem codeOfBytes_toNat (hi lo : Byte) : (codeOfBytes hi lo).toNat = hi.toNat * 256 + lo.toNat := by
  have := hi.isLt
  have := lo.isLt
  simp only [codeOfBytes, BitVec.toNat_ofNat]
  omega

theorem codeHigh_toNat (c : Code) : (codeHigh c).toNat = c.toNat / 256 := by
  have := c.isLt
  simp only [codeHigh, BitVec.extractLsb'_toNat, Nat.shiftRight_eq_div_pow]
  omega

theorem codeLow_toNat (c : Code) : (codeLow c).toNat = c.toNat % 256 := by
  simp [codeLow, BitVec.extractLsb'_toNat]

/-- A code is its two bytes, most significant first (R73). -/
@[simp] theorem codeOfBytes_high_low (c : Code) : codeOfBytes (codeHigh c) (codeLow c) = c := by
  apply BitVec.eq_of_toNat_eq
  rw [codeOfBytes_toNat, codeHigh_toNat, codeLow_toNat]
  omega

/-! ### Items -/

theorem flagByte_toNat (l : Bool) (b : Byte) : (flagByte l b).toNat = l.toNat * 256 + b.toNat := by
  rw [flagByte, BitVec.toNat_append, ← Nat.shiftLeft_add_eq_or_of_lt b.isLt, Nat.shiftLeft_eq]
  cases l <;> simp

theorem flagSym_toNat (l : Bool) (p : Sym) : (flagSym l p).toNat = l.toNat * 512 + p.toNat := by
  rw [flagSym, BitVec.toNat_append, ← Nat.shiftLeft_add_eq_or_of_lt p.isLt, Nat.shiftLeft_eq]
  cases l <;> simp

@[simp] theorem flagSym_last (l : Bool) (p : Sym) : (flagSym l p).getLsbD 9 = l := by
  have := p.isLt
  rw [BitVec.getLsbD, flagSym_toNat, Nat.testBit_eq_decide_div_mod_eq]
  cases l <;> simp <;> omega

@[simp] theorem flagSym_getElem (l : Bool) (p : Sym) : (flagSym l p)[9] = l := flagSym_last l p

@[simp] theorem flagSym_sym (l : Bool) (p : Sym) : (flagSym l p).extractLsb' 0 9 = p := by
  have := p.isLt
  apply BitVec.eq_of_toNat_eq
  rw [BitVec.extractLsb'_toNat, flagSym_toNat]
  cases l <;> simp <;> omega

@[simp] theorem flagByte_byte (l : Bool) (b : Byte) : (flagByte l b).extractLsb' 0 8 = b := by
  have := b.isLt
  apply BitVec.eq_of_toNat_eq
  rw [BitVec.extractLsb'_toNat, flagByte_toNat]
  cases l <;> simp <;> omega

@[simp] theorem flagByte_flag (l : Bool) (b : Byte) : (flagByte l b).getLsbD 8 = l := by
  have := b.isLt
  rw [BitVec.getLsbD, flagByte_toNat, Nat.testBit_eq_decide_div_mod_eq]
  cases l <;> simp <;> omega

@[simp] theorem flagByte_getElem (l : Bool) (b : Byte) : (flagByte l b)[8] = l := flagByte_flag l b

/-! ### Samples -/

theorem mod256_toNat (v : Int) : ((mod256 v).toNat : Int) = v % 256 := by
  unfold mod256
  rw [BitVec.toNat_ofInt]
  omega

theorem mod256_of_range {v : Int} {b : Byte} (h : v = (b.toNat : Int)) : mod256 v = b := by
  subst h
  simp [mod256]

end Sys2Proof.Machine
end

