-- ==== Sys2Proof/Laws/Dictionary.lean ====
section
/-! SUPPORT. The dictionary: the prefix chain (20_memory.md R62, R63), the lookup (R64), the insertion (R65); one lemma that says once what each can do. -/

namespace Sys2Proof.Machine

/-! ### The prefix chain -/

/-- R43 item 4: every row from 511 below n extends a row with a smaller number. -/
def Dict.Grounded (t : Dict) (n : Nat) : Prop :=
  ∀ c, 511 ≤ c → c < n → (t.row c).root = false ∧ (t.row c).prefixCode.toNat < c

theorem chainSeq_bound (t : Dict) (bound c : Nat) (h : c < bound) :
    chainSeq t bound c = chainSeq t (c + 1) c := by
  induction c using Nat.strongRecOn generalizing bound with
  | _ c ih =>
    obtain ⟨b, rfl⟩ : ∃ b, bound = b + 1 := ⟨bound - 1, by omega⟩
    simp only [chainSeq]
    split
    · rfl
    · split
      · rename_i hp
        rw [ih _ hp b (by omega), ih _ hp c hp]
      · rfl

/-- R62 for a row that extends another. -/
theorem chainSeq_extend {t : Dict} {c : Nat} (hr : (t.row c).root = false) (hp : (t.row c).prefixCode.toNat < c) :
    chainSeq t (c + 1) c =
      (chainSeq t ((t.row c).prefixCode.toNat + 1) (t.row c).prefixCode.toNat).map (fun l => l ++ [int9 (t.row c).sym]) := by
  rw [chainSeq, if_neg (by simp [hr]), if_pos hp, chainSeq_bound _ _ _ hp]

/-- R62 for a seed row. -/
theorem chainSeq_root {t : Dict} {c : Nat} (hr : (t.row c).root = true) :
    chainSeq t (c + 1) c = some [int9 (t.row c).sym] := by
  rw [chainSeq, if_pos hr]

/-- `len` is the length of `seq`. -/
theorem chainLen_eq (t : Dict) (bound c : Nat) : chainLen t bound c = (chainSeq t bound c).map List.length := by
  induction bound generalizing c with
  | zero => rfl
  | succ b ih =>
    simp only [chainSeq, chainLen]
    split
    · rfl
    · split
      · rw [ih]
        cases chainSeq t b (t.row c).prefixCode.toNat <;> simp
      · rfl

theorem chainSeq_ne_nil {t : Dict} {bound c : Nat} {l : List Int} (h : chainSeq t bound c = some l) : l ≠ [] := by
  cases bound with
  | zero => simp [chainSeq] at h
  | succ b =>
    simp only [chainSeq] at h
    split at h
    · simp at h
      simp [← h]
    · split at h
      · simp only [Option.map_eq_some_iff] at h
        obtain ⟨m, -, rfl⟩ := h
        simp
      · simp at h

/-- `first` is the head of `seq`. -/
theorem chainFirst_eq (t : Dict) (bound c : Nat) : chainFirst t bound c = (chainSeq t bound c).bind List.head? := by
  induction bound generalizing c with
  | zero => rfl
  | succ b ih =>
    simp only [chainSeq, chainFirst]
    split
    · rfl
    · split
      · rw [ih]
        cases hs : chainSeq t b (t.row c).prefixCode.toNat with
        | none => rfl
        | some l =>
          have := chainSeq_ne_nil hs
          cases l <;> simp_all
      · rfl

theorem State.len_eq (s : State) (c : Code) : s.len c = (s.seq c).map List.length := by
  unfold State.len State.seq
  split
  · exact chainLen_eq ..
  · rfl

theorem State.first_eq (s : State) (c : Code) : s.first c = (s.seq c).bind List.head? := by
  unfold State.first State.seq
  split
  · exact chainFirst_eq ..
  · rfl

theorem State.validCode_iff {s : State} {c : Code} : s.validCode c = true ↔ c.toNat < s.next.toNat := decide_eq_true_iff

/-- R62: a valid code's sequence is the one of its prefix chain. -/
theorem State.seq_of_valid {s : State} {c : Code} (h : c.toNat < s.next.toNat) :
    s.seq c = chainSeq s.dict (c.toNat + 1) c.toNat := by
  rw [State.seq, if_pos (State.validCode_iff.mpr h)]

/-- R43 item 5, R63: under R43 item 4 every row below n has a sequence, of length 1 for a seed and at most c - 509 else. -/
theorem chainSeq_grounded {t : Dict} {n : Nat} (hg : t.Grounded n) (c : Nat) (hc : c < n) :
    ∃ l, chainSeq t (c + 1) c = some l ∧ 1 ≤ l.length ∧ (c < 511 → l.length = 1) ∧ (511 ≤ c → l.length ≤ c - 509) := by
  induction c using Nat.strongRecOn with
  | _ c ih =>
    by_cases hs : c < 511
    · refine ⟨_, chainSeq_root ?_, by simp, by simp, by omega⟩
      rw [Dict.row_seed t hs]
      rfl
    · obtain ⟨hr, hp⟩ := hg c (by omega) hc
      obtain ⟨l, h1, h2, h3, h4⟩ := ih _ hp (by omega)
      refine ⟨l ++ [int9 (t.row c).sym], ?_, by simp, by omega, ?_⟩
      · rw [chainSeq_extend hr hp, h1]
        rfl
      · intro _
        rw [List.length_append, List.length_singleton]
        by_cases hq : (t.row c).prefixCode.toNat < 511
        · rw [h3 hq]; omega
        · have := h4 (by omega); omega

/-- The sequences of the rows below n depend on those rows only. -/
theorem chainSeq_congr {t u : Dict} {n : Nat} (h : ∀ c, c < n → t.row c = u.row c) (bound c : Nat) (hc : c < n) :
    chainSeq t bound c = chainSeq u bound c := by
  induction bound generalizing c with
  | zero => rfl
  | succ b ih =>
    simp only [chainSeq, h c hc]
    split
    · rfl
    · split
      · rw [ih]; omega
      · rfl

/-! ### Lookup -/

theorem lowestFrom_eq_some {f : Nat → Bool} {count start c : Nat} :
    lowestFrom f count start = some c ↔
      start ≤ c ∧ c < start + count ∧ f c = true ∧ ∀ x, start ≤ x → x < c → f x = false := by
  induction count generalizing start with
  | zero => simp [lowestFrom]; omega
  | succ n ih =>
    simp only [lowestFrom]
    split
    · rename_i hf
      constructor
      · rintro h
        simp only [Option.some.injEq] at h
        subst h
        exact ⟨by omega, by omega, hf, by omega⟩
      · rintro ⟨h1, -, -, h4⟩
        by_cases hx : start < c
        · simp [h4 start (by omega) hx] at hf
        · rw [Option.some.injEq]; omega
    · rename_i hf
      rw [ih]
      constructor
      · rintro ⟨h1, h2, h3, h4⟩
        refine ⟨by omega, by omega, h3, fun x hx1 hx2 => ?_⟩
        by_cases hx : x = start
        · subst hx; simpa using hf
        · exact h4 x (by omega) hx2
      · rintro ⟨h1, h2, h3, h4⟩
        have : start ≠ c := by rintro rfl; exact hf h3
        exact ⟨by omega, by omega, h3, fun x hx1 hx2 => h4 x (by omega) hx2⟩

theorem lowestFrom_eq_none {f : Nat → Bool} {count start : Nat} :
    lowestFrom f count start = none ↔ ∀ x, start ≤ x → x < start + count → f x = false := by
  induction count generalizing start with
  | zero => simp [lowestFrom]; omega
  | succ n ih =>
    simp only [lowestFrom]
    split
    · rename_i hf
      simp only [reduceCtorEq, false_iff]
      intro h
      simp [h start (by omega) (by omega)] at hf
    · rename_i hf
      rw [ih]
      constructor
      · intro h x hx1 hx2
        by_cases hx : x = start
        · subst hx; simpa using hf
        · exact h x (by omega) (by omega)
      · intro h x hx1 hx2
        exact h x (by omega) (by omega)

theorem State.rowCount_le (s : State) : s.rowCount ≤ 65536 := Nat.min_le_right _ _

theorem State.rowCount_eq {s : State} (h : s.next.toNat ≤ 65536) : s.rowCount = s.next.toNat := Nat.min_eq_left h

/-- R64, a hit: the lowest matching row. -/
theorem State.lookup_eq_some {s : State} {e : Bool} {p c : Code} {b : Int} :
    s.lookup e p b = some c ↔
      c.toNat < s.rowCount ∧ rowMatches s.dict e p b c.toNat = true ∧ ∀ x, x < c.toNat → rowMatches s.dict e p b x = false := by
  unfold State.lookup
  rw [Option.map_eq_some_iff]
  constructor
  · rintro ⟨n, hn, rfl⟩
    obtain ⟨-, h2, h3, h4⟩ := lowestFrom_eq_some.mp hn
    have := s.rowCount_le
    have hb : (BitVec.ofNat 16 n).toNat = n := by simp; omega
    rw [hb]
    exact ⟨by omega, h3, fun x hx => h4 x (Nat.zero_le x) hx⟩
  · rintro ⟨h1, h2, h3⟩
    exact ⟨c.toNat, lowestFrom_eq_some.mpr ⟨Nat.zero_le _, by omega, h2, fun x _ hx => h3 x hx⟩, by simp⟩

/-- R64, a miss: no valid row matches. -/
theorem State.lookup_eq_none {s : State} {e : Bool} {p : Code} {b : Int} :
    s.lookup e p b = none ↔ ∀ x, x < s.rowCount → rowMatches s.dict e p b x = false := by
  unfold State.lookup
  rw [Option.map_eq_none_iff, lowestFrom_eq_none]
  simp

/-- R64 with e = 1, over the seeds: the row of a symbol matches it. -/
theorem rowMatches_seed (t : Dict) (p : Code) {b : Int} (h1 : -255 ≤ b) (h2 : b ≤ 255) (c : Nat) (hc : c < 511) :
    rowMatches t true p b c = true ↔ (c : Int) = b + 255 := by
  simp only [rowMatches, if_true, Dict.row_seed t hc, seedRow, Bool.true_and, decide_eq_true_iff]
  constructor
  · intro h
    have := sym9_inj (by omega) (by omega) (by omega) h2 h
    omega
  · intro h
    rw [show (c : Int) - 255 = b by omega]

/-- R64, R157: with S empty the lookup of a symbol hits its seed, `b + 255`. -/
theorem State.lookup_empty {s : State} (p : Code) {b : Int} (hn : 511 ≤ s.next.toNat) (h1 : -255 ≤ b) (h2 : b ≤ 255) :
    s.lookup true p b = some (seedCode b) := by
  have hs := seedCode_toNat h1 h2
  have hrc : 511 ≤ s.rowCount := by
    unfold State.rowCount Config.dictCap
    omega
  refine State.lookup_eq_some.mpr ⟨by omega, (rowMatches_seed _ p h1 h2 _ (by omega)).mpr hs, fun x hx => ?_⟩
  have := (rowMatches_seed s.dict p h1 h2 x (by omega)).not.mpr (by omega)
  simpa using this

/-! ### Insertion -/

/-- R65 below the cap: row NEXT is written, NEXT is counted, every other row stays. -/
theorem State.insert_below {s : State} {p : Code} {b : Int} (hwf : s.dict.wf = true) (h1 : 511 ≤ s.next.toNat)
    (h2 : s.next.toNat < 65536) :
    (s.insert p b).next.toNat = s.next.toNat + 1 ∧
    (s.insert p b).dict.row s.next.toNat = { root := false, prefixCode := p, sym := sym9 b } ∧
    (∀ c, c ≠ s.next.toNat → (s.insert p b).dict.row c = s.dict.row c) ∧
    (s.insert p b).dict.wf = true := by
  have hc : s.next.toNat < Config.dictCap := h2
  rw [insert_next, insert_dict, if_pos hc, if_pos hc]
  refine ⟨?_, Dict.row_write_same _ hwf h1, fun c hne => Dict.row_write_other _ _ hne, Dict.wf_write hwf h2⟩
  rw [BitVec.toNat_add]
  simp
  omega

/-- R65 at the cap: nothing. -/
theorem State.insert_full {s : State} {p : Code} {b : Int} (h : ¬ s.next.toNat < 65536) : s.insert p b = s := by
  have hc : ¬ s.next.toNat < Config.dictCap := h
  simp [State.insert, hc]

/-- R65: every row below NEXT stays. -/
theorem State.insert_row_lt (s : State) (p : Code) (b : Int) {c : Nat} (h : c < s.next.toNat) :
    (s.insert p b).dict.row c = s.dict.row c := by
  rw [insert_dict]
  split
  · exact Dict.row_write_other _ _ (by omega)
  · rfl

/-- R33: NEXT never falls by an insertion. -/
theorem State.le_insert_next (s : State) (p : Code) (b : Int) : s.next.toNat ≤ (s.insert p b).next.toNat := by
  rw [insert_next]
  split
  · rename_i h
    have h : s.next.toNat < 65536 := h
    rw [BitVec.toNat_add]
    simp
    omega
  · exact Nat.le_refl _

theorem State.insert_wf {s : State} {p : Code} {b : Int} (h : s.dict.wf = true) : (s.insert p b).dict.wf = true := by
  rw [insert_dict]
  split
  · rename_i hc
    exact Dict.wf_write h hc
  · exact h

/-- The sequence of a valid code is the same after an insertion. -/
theorem State.seq_insert {s : State} (p : Code) (b : Int) {c : Code} (hc : c.toNat < s.next.toNat) :
    (s.insert p b).seq c = s.seq c := by
  have hle := s.le_insert_next p b
  have h1 : (s.insert p b).validCode c = true := by
    rw [State.validCode, decide_eq_true_iff]
    omega
  have h2 : s.validCode c = true := by rw [State.validCode, decide_eq_true_iff]; exact hc
  rw [State.seq, if_pos h1, State.seq, if_pos h2]
  exact chainSeq_congr (fun x hx => s.insert_row_lt p b hx) _ _ hc

end Sys2Proof.Machine
end

