-- ==== Sys2Proof/Laws/Encoding.lean ====
section
/-! SUPPORT. Fields of a command word (30_encoding.md R91), what it is to match a row of the command map (R92), and what the decoder's answer on a word says of it. -/

namespace Sys2Proof

theorem append_inj {a b : Nat} {x y : BitVec a} {u v : BitVec b} : x ++ u = y ++ v ↔ x = y ∧ u = v := by
  constructor
  · intro h
    have h := congrArg BitVec.toNat h
    rw [BitVec.toNat_append, BitVec.toNat_append, ← Nat.shiftLeft_add_eq_or_of_lt u.isLt,
      ← Nat.shiftLeft_add_eq_or_of_lt v.isLt, Nat.shiftLeft_eq, Nat.shiftLeft_eq] at h
    have quotient : ∀ (z : BitVec a) (w : BitVec b), (z.toNat * 2 ^ b + w.toNat) / 2 ^ b = z.toNat := fun z w => by
      rw [Nat.mul_comm, Nat.mul_add_div (by positivity), Nat.div_eq_of_lt w.isLt, Nat.add_zero]
    have hx : x.toNat = y.toNat := by rw [← quotient x u, h, quotient]
    exact ⟨BitVec.eq_of_toNat_eq hx, BitVec.eq_of_toNat_eq (by rw [hx] at h; omega)⟩
  · rintro ⟨rfl, rfl⟩
    rfl

/-- R91: a command word is its four fields op, reg, zero, data. -/
theorem word_fields (w : CmdWord) :
    w = w.extractLsb' 28 4 ++ w.extractLsb' 24 4 ++ w.extractLsb' 16 8 ++ w.extractLsb' 0 16 := by
  rw [BitVec.extractLsb'_append_extractLsb'_eq_extractLsb' (by omega),
    BitVec.extractLsb'_append_extractLsb'_eq_extractLsb' (by omega),
    BitVec.extractLsb'_append_extractLsb'_eq_extractLsb' (by omega)]
  simp

/-- R92: a row with the full mask accepts its pattern and no other word. -/
theorem accepts_full {p w : CmdWord} {f : BitVec 16 → Instr} : (CommandRow.mk p 0xFFFFFFFF#32 f).accepts w = true ↔ w = p := by
  have h : (0xFFFFFFFF#32 : CmdWord) = BitVec.allOnes 32 := by decide
  simp only [CommandRow.accepts, decide_eq_true_iff]
  rw [h, BitVec.and_allOnes]

/-- R92: a WR row accepts exactly the words with its op, its reg, and zero = 0, whatever the data. -/
theorem accepts_high {w : CmdWord} {f : BitVec 16 → Instr} (op reg : BitVec 4) :
    (CommandRow.mk (op ++ reg ++ 0#8 ++ 0#16) 0xFFFF0000#32 f).accepts w = true ↔
      w.extractLsb' 28 4 = op ∧ w.extractLsb' 24 4 = reg ∧ w.extractLsb' 16 8 = 0#8 := by
  have h : (0xFFFF0000#32 : CmdWord) = BitVec.allOnes 4 ++ BitVec.allOnes 4 ++ BitVec.allOnes 8 ++ 0#16 := by decide
  have hw : w &&& 0xFFFF0000#32 = w.extractLsb' 28 4 ++ w.extractLsb' 24 4 ++ w.extractLsb' 16 8 ++ 0#16 := by
    conv_lhs => rw [word_fields w, h]
    rw [BitVec.and_append, BitVec.and_append, BitVec.and_append]
    simp only [BitVec.and_allOnes, BitVec.and_zero]
  simp only [CommandRow.accepts, decide_eq_true_iff]
  rw [hw, append_inj, append_inj, append_inj]
  tauto

/-- R91: the fields of an assembled word. -/
theorem commandWord_op (op reg : BitVec 4) (data : BitVec 16) : (commandWord op reg data).extractLsb' 28 4 = op := by
  have h : op ++ reg ++ 0#8 ++ data = _ := word_fields (commandWord op reg data)
  rw [append_inj, append_inj, append_inj] at h
  exact h.1.1.1.symm

theorem commandWord_reg (op reg : BitVec 4) (data : BitVec 16) : (commandWord op reg data).extractLsb' 24 4 = reg := by
  have h : op ++ reg ++ 0#8 ++ data = _ := word_fields (commandWord op reg data)
  rw [append_inj, append_inj, append_inj] at h
  exact h.1.1.2.symm

theorem commandWord_zero (op reg : BitVec 4) (data : BitVec 16) : (commandWord op reg data).extractLsb' 16 8 = 0#8 := by
  have h : op ++ reg ++ 0#8 ++ data = _ := word_fields (commandWord op reg data)
  rw [append_inj, append_inj, append_inj] at h
  exact h.1.2.symm

theorem commandWord_data (op reg : BitVec 4) (data : BitVec 16) : (commandWord op reg data).extractLsb' 0 16 = data := by
  have h : op ++ reg ++ 0#8 ++ data = _ := word_fields (commandWord op reg data)
  rw [append_inj, append_inj, append_inj] at h
  exact h.2.symm

/-- What a legal command word says: it matches a row and is that row's transaction. -/
theorem decodeCommand_ok {w : CmdWord} {i : Instr} (h : decodeCommand w = .ok i) :
    ∃ r ∈ commandRows, r.accepts w = true ∧ i = r.build (dataField w) := by
  unfold decodeCommand at h
  split at h
  · rename_i r hr
    injection h with h
    exact ⟨r, List.mem_of_find?_eq_some hr, by simpa using List.find?_some hr, h.symm⟩
  · cases h

/-- A command word is legal exactly when some row accepts it. -/
theorem decodeCommand_legal {w : CmdWord} : (∃ i, decodeCommand w = .ok i) ↔ ∃ r ∈ commandRows, r.accepts w = true := by
  constructor
  · rintro ⟨i, h⟩
    obtain ⟨r, hr, ha, -⟩ := decodeCommand_ok h
    exact ⟨r, hr, ha⟩
  · rintro ⟨r, hr, ha⟩
    unfold decodeCommand
    cases hf : commandRows.find? (fun r => r.accepts w) with
    | none => exact absurd ha (by simpa using List.find?_eq_none.mp hf r hr)
    | some q => exact ⟨_, rfl⟩

/-- A word that no row accepts is illegal (R105). -/
theorem decodeCommand_illegal {w : CmdWord} : decodeCommand w = .error .illegalCommand ↔ ∀ r ∈ commandRows, r.accepts w = false := by
  constructor
  · intro h r hr
    rw [Bool.eq_false_iff]
    intro ha
    obtain ⟨i, hi⟩ := decodeCommand_legal.mpr ⟨r, hr, ha⟩
    rw [hi] at h
    cases h
  · intro h
    have hf : commandRows.find? (fun r => r.accepts w) = none := List.find?_eq_none.mpr (fun r hr => by simp [h r hr])
    unfold decodeCommand
    rw [hf]

/-- A CMD word is never a data transaction (R90). -/
theorem decodeCommand_channel {w : CmdWord} {i : Instr} (h : decodeCommand w = .ok i) : i.channel = .cmd := by
  obtain ⟨r, hr, -, rfl⟩ := decodeCommand_ok h
  simp only [commandRows, List.mem_cons, List.not_mem_nil, or_false] at hr
  rcases hr with rfl | rfl | rfl | rfl | rfl | rfl | rfl | rfl | rfl | rfl | rfl | rfl <;> rfl

/-- An item fits the width of its channel (R90). -/
theorem Item.value_lt (item : Item) : item.value < 2 ^ item.channel.width := by
  cases item <;> exact BitVec.isLt _

/-- An item is the raw value it is read as, on its channel (R90). -/
theorem Item.ofRaw_value (item : Item) : Item.ofRaw item.channel item.value = .ok item := by
  have h : rawItemWellFormed item.channel item.value = true := decide_eq_true item.value_lt
  unfold Item.ofRaw
  rw [if_pos h]
  cases item <;> simp [Item.channel, Item.value]

/-- R96: the `eos` flag of a CODE_IN item decides which transaction it is. -/
theorem decodeCin_byte (b : Byte) : decodeCin (0#1 ++ b) = .byte b := by
  unfold decodeCin
  have h : (0x100#9 : FlagByte) = 1#1 ++ 0#8 := by decide
  rw [h, BitVec.and_append, if_pos (by simp), BitVec.extractLsb'_append_eq_right]

theorem decodeCin_eos (b : Byte) : decodeCin (1#1 ++ b) = .eos := by
  unfold decodeCin
  have h : (0x100#9 : FlagByte) = 1#1 ++ 0#8 := by decide
  have hz : (0#9 : FlagByte) = 0#1 ++ 0#8 := by decide
  rw [h, hz, BitVec.and_append, if_neg (by simp)]

/-- A CODE_IN item is its flag and its byte (R96). -/
theorem flagByte_cases (w : FlagByte) : w = 0#1 ++ w.extractLsb' 0 8 ∨ w = 1#1 ++ w.extractLsb' 0 8 := by
  have h : w = w.extractLsb' 8 1 ++ w.extractLsb' 0 8 := by
    rw [BitVec.extractLsb'_append_extractLsb'_eq_extractLsb' (by omega)]
    simp
  have h1 : ∀ b : BitVec 1, b = 0 ∨ b = 1 := by decide
  rcases h1 (w.extractLsb' 8 1) with hb | hb <;> rw [hb] at h
  · exact .inl h
  · exact .inr h

end Sys2Proof
end

