-- ==== Sys2Proof/Laws/Walker.lean ====
section
/-! SUPPORT. The raster walker (10_state.md R30, R31): `advance()` goes to the next position, and `at_last()` says that the position is the final one. -/

namespace Sys2Proof.Machine

theorem dim_succ_toNat {a b : Dim} (h : a.toNat < b.toNat) : (a + 1).toNat = a.toNat + 1 := by
  have := b.isLt
  rw [BitVec.toNat_add]
  simp
  omega

theorem chWraps_iff {s : State} : s.chWraps = true ↔ s.ch.toNat + 1 = s.chans.toNat := by simp [State.chWraps]

theorem colWraps_iff {s : State} :
    s.colWraps = true ↔ s.ch.toNat + 1 = s.chans.toNat ∧ s.col.toNat + 1 = s.cols.toNat := by
  simp [State.colWraps, chWraps_iff]

/-- R31 by the three cases of `advance()`. -/
theorem advance_cases {s : State} (hw : s.WalkerLegal) (hr : s.row.toNat < s.rows.toNat) :
    (s.ch.toNat + 1 < s.chans.toNat ∧
      s.advance.row = s.row ∧ s.advance.col = s.col ∧ s.advance.ch.toNat = s.ch.toNat + 1) ∨
    (s.ch.toNat + 1 = s.chans.toNat ∧ s.col.toNat + 1 < s.cols.toNat ∧
      s.advance.row = s.row ∧ s.advance.col.toNat = s.col.toNat + 1 ∧ s.advance.ch = 0) ∨
    (s.ch.toNat + 1 = s.chans.toNat ∧ s.col.toNat + 1 = s.cols.toNat ∧
      s.advance.row.toNat = s.row.toNat + 1 ∧ s.advance.col = 0 ∧ s.advance.ch = 0) := by
  have h1 := hw.chLt
  have h2 := hw.colLt
  rw [advance_row, advance_col, advance_ch]
  by_cases hc : s.chWraps = true
  · have hc' := chWraps_iff.mp hc
    by_cases hl : s.colWraps = true
    · have hl' := (colWraps_iff.mp hl).2
      right; right
      simp only [hc, hl, if_true]
      exact ⟨hc', hl', dim_succ_toNat hr, trivial, trivial⟩
    · have hl' : ¬ s.col.toNat + 1 = s.cols.toNat := fun h => hl (colWraps_iff.mpr ⟨hc', h⟩)
      right; left
      simp only [hc, hl, if_true, if_false, Bool.false_eq_true]
      exact ⟨hc', by omega, trivial, dim_succ_toNat h2, trivial⟩
  · have hc' : ¬ s.ch.toNat + 1 = s.chans.toNat := fun h => hc (chWraps_iff.mpr h)
    have hl : ¬ s.colWraps = true := fun h => hc' (colWraps_iff.mp h).1
    left
    simp only [hc, hl, if_false, Bool.false_eq_true]
    exact ⟨by omega, trivial, trivial, dim_succ_toNat h1⟩

/-- R31: `advance()` keeps the walker legal. -/
theorem advance_legal {s : State} (hw : s.WalkerLegal) (hr : s.row.toNat < s.rows.toNat) : s.advance.WalkerLegal := by
  have h1 := hw.chLt
  have h2 := hw.colLt
  have hne : ∀ {a b : Dim}, a = b → a.toNat = b.toNat := fun h => by rw [h]
  rcases advance_cases hw hr with ⟨a1, a2, a3, a4⟩ | ⟨a1, a2, a3, a4, a5⟩ | ⟨a1, a2, a3, a4, a5⟩
  · refine ⟨?_, ?_, ?_, fun h => ?_⟩
    · rw [a2]; exact hw.rowLe
    · rw [a3]; exact h2
    · rw [a4]; exact a1
    · rw [a2] at h
      have := hne h
      simp only [advance_rows] at this
      omega
  · refine ⟨?_, ?_, ?_, fun h => ?_⟩
    · rw [a3]; exact hw.rowLe
    · rw [a4]; exact a2
    · rw [a5]; simp; omega
    · rw [a3] at h
      have := hne h
      simp only [advance_rows] at this
      omega
  · refine ⟨?_, ?_, ?_, fun _ => ⟨a4, a5⟩⟩
    · rw [a3]; simp only [advance_rows]; omega
    · rw [a4]; simp; omega
    · rw [a5]; simp; omega

/-- R12, R31: `advance()` moves one position on. -/
theorem advance_position {s : State} (hw : s.WalkerLegal) (hr : s.row.toNat < s.rows.toNat) :
    s.advance.position = s.position + 1 := by
  unfold State.position
  simp only [advance_cols, advance_chans]
  rcases advance_cases hw hr with ⟨a1, a2, a3, a4⟩ | ⟨a1, a2, a3, a4, a5⟩ | ⟨a1, a2, a3, a4, a5⟩
  · rw [a2, a3, a4]; omega
  · rw [a3, a4, a5, ← a1]
    simp
    ring
  · rw [a3, a4, a5, ← a1, ← a2]
    simp
    ring

/-- While a sample is left to handle, the position is below the count. -/
theorem position_lt {s : State} (hw : s.WalkerLegal) (hr : s.row.toNat < s.rows.toNat) :
    s.position < s.rows.toNat * s.cols.toNat * s.chans.toNat := by
  have h1 := hw.chLt
  have h2 := hw.colLt
  have hb : s.row.toNat * s.cols.toNat + s.col.toNat + 1 ≤ s.rows.toNat * s.cols.toNat := by
    have := Nat.mul_le_mul_right s.cols.toNat (show s.row.toNat + 1 ≤ s.rows.toNat from hr)
    rw [Nat.add_mul] at this
    omega
  have hc := Nat.mul_le_mul_right s.chans.toNat hb
  unfold State.position
  rw [Nat.add_mul] at hc
  omega

/-- When every sample is handled, the position is the count. -/
theorem position_end {s : State} (hw : s.WalkerLegal) (hr : s.row = s.rows) :
    s.position = s.rows.toNat * s.cols.toNat * s.chans.toNat := by
  obtain ⟨h1, h2⟩ := hw.atEnd hr
  simp [State.position, h1, h2, hr]

/-- R31: `at_last()` exactly at the position before the end, that is, when `advance()` reaches ROW = ROWS. -/
theorem atLast_iff_advance {s : State} (hw : s.WalkerLegal) (hr : s.row.toNat < s.rows.toNat) :
    s.atLast = true ↔ s.advance.row = s.rows := by
  have h1 := hw.chLt
  have h2 := hw.colLt
  have hne : ∀ {a b : Dim}, a = b ↔ a.toNat = b.toNat := fun {a b} => ⟨fun h => by rw [h], BitVec.eq_of_toNat_eq⟩
  simp only [State.atLast, decide_eq_true_iff]
  rw [hne]
  rcases advance_cases hw hr with ⟨a1, a2, a3, a4⟩ | ⟨a1, a2, a3, a4, a5⟩ | ⟨a1, a2, a3, a4, a5⟩
  · rw [a2]; omega
  · rw [a3]; omega
  · rw [a3]; omega

/-- R100, R146 (f): `at_last()` exactly at the COUNT-th position. -/
theorem atLast_iff_position {s : State} (hw : s.WalkerLegal) (hr : s.row.toNat < s.rows.toNat) :
    s.atLast = true ↔ s.position + 1 = s.rows.toNat * s.cols.toNat * s.chans.toNat := by
  rw [atLast_iff_advance hw hr, ← advance_position hw hr]
  have hw' := advance_legal hw hr
  constructor
  · intro h
    exact position_end hw' h
  · intro h
    by_contra hne
    have h1 := hw'.rowLe
    simp only [advance_rows] at h1
    have : s.advance.row.toNat < s.advance.rows.toNat := by
      simp only [advance_rows]
      rcases Nat.lt_or_ge s.advance.row.toNat s.rows.toNat with h2 | h2
      · exact h2
      · exact absurd (BitVec.eq_of_toNat_eq (by omega)) hne
    have := position_lt hw' this
    simp only [advance_rows, advance_cols, advance_chans] at this
    omega

end Sys2Proof.Machine
end

