-- ==== Sys2Proof/Laws/Exec.lean ====
section
/-! SUPPORT. What each meaning can do, said once: PIX and RESD (41_predictor.md R141, 44_reconstructor.md R186), the match step of RES (42_encoder.md R154), the processing of a code (43_decoder.md R167), a command word (40_control.md R124). -/

namespace Sys2Proof.Machine

/-! ### Samples and residuals -/

/-- R143: the residual of a sample is in range. -/
theorem State.residual_bounds (s : State) (x : Byte) : -255 ≤ s.residual x ∧ s.residual x ≤ 255 := by
  have h1 := x.isLt
  have h2 := (s.left.read s.ch.toNat).isLt
  unfold State.residual
  split <;> omega

/-- R186: the sample of a residual pattern, as a number. -/
theorem State.sample_value (s : State) (p : Sym) :
    ((s.sample (int9 p)).toNat : Int) =
      (if s.col = 0 then p.toInt else ((s.left.read s.ch.toNat).toNat : Int) + p.toInt) % 256 := by
  unfold State.sample
  split <;> rw [mod256_toNat, int9_eq_toInt]

theorem State.leftCellExists_iff {s : State} : s.leftCellExists = true ↔ s.ch.toNat < 65535 := decide_eq_true_iff

/-- PIX where the LEFT cell exists. -/
theorem execPix_of_cell {s : State} (h : s.ch.toNat < 65535) (x : Byte) :
    execPix x s = .next ({ s with
      left := s.left.write s.ch.toNat x
      resE := s.resE ++ [flagSym s.atLast (sym9 (s.residual x))] }).advance := by
  unfold execPix
  rw [if_pos (State.leftCellExists_iff.mpr h)]

/-- RESD where the LEFT cell exists. -/
theorem execResd_of_cell {s : State} (h : s.ch.toNat < 65535) (p : Sym) :
    execResd p s = .next ({ s with
      left := s.left.write s.ch.toNat (s.sample (int9 p))
      pixOut := s.pixOut ++ [flagByte s.atLast (s.sample (int9 p))] }).advance.finishDecode := by
  unfold execResd
  rw [if_pos (State.leftCellExists_iff.mpr h)]

/-- In a legal walk the LEFT cell exists: CH < CHANS ≤ 65535. -/
theorem State.WalkerLegal.cell {s : State} (h : s.WalkerLegal) : s.ch.toNat < 65535 := by
  have h1 := h.chLt
  have h2 := s.chans.isLt
  omega

/-! ### The dictionary in a legal state -/

theorem State.Inv.dictLegal {s : State} (h : s.Inv) : s.DictLegal :=
  ⟨h.nextRange, h.matchValid, h.rowsGrounded, h.rowSymbols, h.dictWf⟩

/-- Only S, NEXT and DICT matter. -/
theorem State.DictLegal.congr {s t : State} (h : s.DictLegal) (h1 : t.sEmpty = s.sEmpty) (h2 : t.sCode = s.sCode)
    (h3 : t.next = s.next) (h4 : t.dict = s.dict) : t.DictLegal := by
  obtain ⟨a, b, c, d, e⟩ := h
  rw [← h1, ← h2, ← h3] at b
  rw [← h3] at a
  rw [← h3, ← h4] at c d
  rw [← h4] at e
  exact ⟨a, b, c, d, e⟩

/-- R43.5: a valid code has a sequence, and it is not empty. -/
theorem State.DictLegal.seq_of_valid {s : State} (h : s.DictLegal) {c : Code} (hc : c.toNat < s.next.toNat) :
    ∃ b tl, s.seq c = some (b :: tl) := by
  obtain ⟨l, h1, h2, -, -⟩ := chainSeq_grounded (t := s.dict) (n := s.next.toNat) h.rowsGrounded c.toNat hc
  cases l with
  | nil => simp at h2
  | cons b tl => exact ⟨b, tl, by rw [State.seq_of_valid hc, h1]⟩

/-- R102: every element of a sequence is a symbol. -/
theorem State.DictLegal.seq_symbols {s : State} (h : s.DictLegal) {c : Code} {l : List Int} (hl : s.seq c = some l) :
    ∀ v ∈ l, -255 ≤ v ∧ v ≤ 255 := by
  have chain : ∀ n, n < s.next.toNat → ∀ l, chainSeq s.dict (n + 1) n = some l → ∀ v ∈ l, -255 ≤ v ∧ v ≤ 255 := by
    intro n
    induction n using Nat.strongRecOn with
    | _ n ih =>
      intro hn l hl v hv
      by_cases hs : n < 511
      · have hr := Dict.row_seed s.dict hs
        rw [chainSeq_root (by rw [hr]; rfl), hr] at hl
        injection hl with hl
        subst hl
        rw [List.mem_singleton] at hv
        rw [hv, seedRow, int9_sym9] <;> omega
      · obtain ⟨hr, hp⟩ := h.rowsGrounded n (by omega) hn
        rw [chainSeq_extend hr hp, Option.map_eq_some_iff] at hl
        obtain ⟨m, hm, rfl⟩ := hl
        rcases List.mem_append.mp hv with hv | hv
        · exact ih _ hp (by omega) m hm v hv
        · rw [List.mem_singleton] at hv
          rw [hv]
          exact ⟨(isSymbol_iff _).mp (h.rowSymbols n (by omega) hn), (int9_range _).2⟩
  unfold State.seq at hl
  split at hl
  · rename_i hv
    exact chain _ (State.validCode_iff.mp hv) l hl
  · cases hl

/-- R65: an insertion keeps the dictionary legal. -/
theorem State.DictLegal.inserted {s : State} (h : s.DictLegal) {p : Code} {b : Int} (hp : p.toNat < s.next.toNat)
    (hb : isSymbol (sym9 b) = true) : (s.insert p b).DictLegal := by
  have hn := h.nextRange
  by_cases hf : s.next.toNat < 65536
  · obtain ⟨h1, h2, h3, h4⟩ := State.insert_below (p := p) (b := b) h.dictWf hn.1 hf
    refine ⟨by omega, fun he => ?_, fun c hc1 hc2 => ?_, fun c hc1 hc2 => ?_, h4⟩
    · have := h.matchValid he
      rw [insert_sCode]
      omega
    · by_cases hc : c = s.next.toNat
      · subst hc
        rw [h2]
        exact ⟨rfl, hp⟩
      · rw [h3 c hc]
        exact h.rowsGrounded c hc1 (by omega)
    · by_cases hc : c = s.next.toNat
      · subst hc
        rw [h2]
        exact hb
      · rw [h3 c hc]
        exact h.rowSymbols c hc1 (by omega)
  · rw [State.insert_full hf]
    exact h

/-- R65, R62: the row just inserted is its prefix's sequence with the new symbol at the end. -/
theorem State.DictLegal.seq_inserted {s : State} (h : s.DictLegal) {p k : Code} {b : Int} {l : List Int}
    (hp : p.toNat < s.next.toNat) (hb1 : -255 ≤ b) (hb2 : b ≤ 255) (hk : k.toNat = s.next.toNat) (hl : s.seq p = some l) :
    (s.insert p b).seq k = some (l ++ [b]) := by
  have hlt : s.next.toNat < 65536 := by have := k.isLt; omega
  obtain ⟨i1, i2, -, -⟩ := State.insert_below (p := p) (b := b) h.dictWf h.nextRange.1 hlt
  rw [← hk] at i2
  have hpc : ((s.insert p b).dict.row k.toNat).prefixCode = p := by rw [i2]
  have hsy : ((s.insert p b).dict.row k.toNat).sym = sym9 b := by rw [i2]
  rw [State.seq_of_valid (by omega), chainSeq_extend (by rw [i2]) (by rw [hpc]; omega), hpc, hsy,
    int9_sym9 (by omega) hb2, ← State.seq_of_valid (s := s.insert p b) (by omega), State.seq_insert p b hp, hl]
  rfl

/-! ### RES -/

theorem State.matchSymbol_hit {s : State} {b : Int} {c : Code} (h : s.lookup s.sEmpty s.sCode b = some c) :
    s.matchSymbol b = { s with sEmpty := false, sCode := c } := by
  simp [State.matchSymbol, h]

theorem State.matchSymbol_miss {s : State} {b : Int} (h : s.lookup s.sEmpty s.sCode b = none) :
    s.matchSymbol b = { (s.emit16 s.sCode false).insert s.sCode b with sCode := seedCode b } := by
  simp [State.matchSymbol, h]

/-- R157: in a legal state a miss means that S is not empty. -/
theorem State.DictLegal.miss_nonempty {s : State} (h : s.DictLegal) {b : Int} (h1 : -255 ≤ b) (h2 : b ≤ 255)
    (hl : s.lookup s.sEmpty s.sCode b = none) : s.sEmpty = false := by
  rw [Bool.eq_false_iff]
  intro he
  rw [he, State.lookup_empty _ h.nextRange.1 h1 h2] at hl
  cases hl

/-- The match step writes S, NEXT, DICT and CODE_OUT and nothing else. -/
theorem State.matchSymbol_writes (s : State) (b : Int) : ∃ e c n d o,
    s.matchSymbol b = { s with sEmpty := e, sCode := c, next := n, dict := d, codeOut := o } := by
  unfold State.matchSymbol
  split <;> exact ⟨_, _, _, _, _, rfl⟩

/-- R154: the match step keeps the dictionary legal. -/
theorem State.DictLegal.matched {s : State} (h : s.DictLegal) {b : Int} (h1 : -255 ≤ b) (h2 : b ≤ 255) :
    (s.matchSymbol b).DictLegal := by
  cases hl : s.lookup s.sEmpty s.sCode b with
  | some c =>
    rw [State.matchSymbol_hit hl]
    obtain ⟨hc, -, -⟩ := State.lookup_eq_some.mp hl
    rw [State.rowCount_eq h.nextRange.2] at hc
    exact ⟨h.nextRange, fun _ => hc, h.rowsGrounded, h.rowSymbols, h.dictWf⟩
  | none =>
    have he := h.miss_nonempty h1 h2 hl
    rw [State.matchSymbol_miss hl]
    have hs := seedCode_toNat h1 h2
    have hi := (h.congr (t := s.emit16 s.sCode false) rfl rfl rfl rfl).inserted (h.matchValid he) (isSymbol_sym9 h1 h2)
    exact ⟨hi.nextRange, fun _ => by have := hi.nextRange; dsimp only; omega, hi.rowsGrounded, hi.rowSymbols, hi.dictWf⟩

/-! ### The processing of a code -/

/-- R173. -/
theorem State.processCode_bad {s : State} {k : Code} (h : s.badCode k) : s.processCode k = .next (s.raise .badCode) := by
  have hv : s.validCode k = false := by
    rw [Bool.eq_false_iff, ne_eq, State.validCode_iff]
    rcases h with h | h <;> omega
  unfold State.processCode State.classify
  rcases h with ⟨h1, -⟩ | ⟨h1, h2⟩
  · simp [h1, hv]
  · have hne : ¬ k.toNat = s.next.toNat := by omega
    simp [h1, hv, hne]

/-- R174. -/
theorem State.processCode_overrun {s : State} {k : Code} {n : Nat} (h : s.codeStandsFor k n)
    (ho : s.count.toNat < s.outCnt.toNat + n) : s.processCode k = .next (s.raise .overrun) := by
  unfold State.processCode State.classify
  rcases h with ⟨h1, h2⟩ | ⟨h0, h1, m, h2, rfl⟩
  · have hv : s.validCode k = true := State.validCode_iff.mpr h1
    cases hse : s.sEmpty <;> simp [hv, State.codeLength, h2, ho]
  · have hv : s.validCode k = false := by
      rw [Bool.eq_false_iff, ne_eq, State.validCode_iff]
      omega
    simp [hv, h0, h1, State.codeLength, h2, ho]

/-- R168, R169: a code below NEXT. -/
theorem State.processCode_known {s : State} {k : Code} {b : Int} {tl : List Int} (hk : k.toNat < s.next.toNat)
    (hs : s.seq k = some (b :: tl)) (ho : s.outCnt.toNat + (b :: tl).length ≤ s.count.toNat) :
    s.processCode k =
      .next ({ (if s.sEmpty then s else s.insert s.sCode b) with hiValid := false }.output k (b :: tl).length (b :: tl)) := by
  have hv : s.validCode k = true := State.validCode_iff.mpr hk
  unfold State.processCode State.classify
  cases hse : s.sEmpty with
  | true =>
    simp only [if_true, hv, State.codeLength, State.len_eq, hs, Option.map_some, State.codeUpdate]
    rw [if_neg (by omega)]
  | false =>
    have hsi : (s.insert s.sCode b).seq k = some (b :: tl) := by rw [State.seq_insert _ _ hk, hs]
    simp only [Bool.false_eq_true, if_false, if_true, hv, State.codeLength, State.len_eq, hs, Option.map_some,
      State.codeUpdate, State.first_eq, Option.bind_some, List.head?_cons, hsi]
    rw [if_neg (by omega)]

/-- R170: the special case, the code NEXT. -/
theorem State.processCode_special {s : State} {k : Code} {b : Int} {tl : List Int} (h : s.DictLegal)
    (he : s.sEmpty = false) (hk : k.toNat = s.next.toNat) (hs : s.seq s.sCode = some (b :: tl))
    (ho : s.outCnt.toNat + ((b :: tl).length + 1) ≤ s.count.toNat) :
    s.processCode k =
      .next ({ s.insert s.sCode b with hiValid := false }.output k ((b :: tl).length + 1) ((b :: tl) ++ [b])) := by
  have hv : s.validCode k = false := by
    rw [Bool.eq_false_iff, ne_eq, State.validCode_iff]
    omega
  have hb := h.seq_symbols hs b (by simp)
  have hsi := h.seq_inserted (h.matchValid he) hb.1 hb.2 hk hs
  unfold State.processCode State.classify
  simp only [he, Bool.false_eq_true, if_false, hv, hk, if_true, State.codeLength, State.len_eq, hs, Option.map_some,
    State.codeUpdate, State.first_eq, Option.bind_some, List.head?_cons, hsi]
  rw [if_neg (by omega)]

/-- R167 in a legal state, all it can do: ERR_BADCODE, ERR_OVERRUN, or the sequence of the code is pushed. -/
theorem State.DictLegal.processCode_cases {s : State} (h : s.DictLegal) (k : Code) :
    (s.badCode k ∧ s.processCode k = .next (s.raise .badCode)) ∨
    (∃ n, ¬ s.badCode k ∧ s.codeStandsFor k n ∧ s.count.toNat < s.outCnt.toNat + n ∧
      s.processCode k = .next (s.raise .overrun)) ∨
    (∃ u l, ¬ s.badCode k ∧ s.codeStandsFor k l.length ∧ s.outCnt.toNat + l.length ≤ s.count.toNat ∧
      (u = s ∨ ∃ b, -255 ≤ b ∧ b ≤ 255 ∧ s.sEmpty = false ∧ u = s.insert s.sCode b) ∧ k.toNat < u.next.toNat ∧
      u.seq k = some l ∧ s.processCode k = .next ({ u with hiValid := false }.output k l.length l)) := by
  by_cases hb : s.badCode k
  · exact .inl ⟨hb, State.processCode_bad hb⟩
  right
  by_cases hk : k.toNat < s.next.toNat
  · obtain ⟨b, tl, hs⟩ := h.seq_of_valid hk
    have hst : s.codeStandsFor k (b :: tl).length := .inl ⟨hk, by rw [State.len_eq, hs]; rfl⟩
    by_cases ho : s.count.toNat < s.outCnt.toNat + (b :: tl).length
    · exact .inl ⟨_, hb, hst, ho, State.processCode_overrun hst ho⟩
    · refine .inr ⟨_, _, hb, hst, by omega, ?_, ?_, ?_, State.processCode_known hk hs (by omega)⟩
      · cases he : s.sEmpty with
        | true => exact .inl rfl
        | false => exact .inr ⟨b, (h.seq_symbols hs b (by simp)).1, (h.seq_symbols hs b (by simp)).2, rfl, rfl⟩
      · split
        · exact hk
        · exact Nat.lt_of_lt_of_le hk (s.le_insert_next _ _)
      · split
        · exact hs
        · rw [State.seq_insert _ _ hk, hs]
  · have hse : s.sEmpty = false ∧ k.toNat = s.next.toNat := by
      unfold State.badCode at hb
      cases he : s.sEmpty <;> simp [he] at hb ⊢ <;> omega
    obtain ⟨he, hk⟩ := hse
    have hsv := h.matchValid he
    obtain ⟨b, tl, hs⟩ := h.seq_of_valid hsv
    have hst : s.codeStandsFor k ((b :: tl).length + 1) := .inr ⟨he, hk, _, by rw [State.len_eq, hs]; rfl, rfl⟩
    by_cases ho : s.count.toNat < s.outCnt.toNat + ((b :: tl).length + 1)
    · exact .inl ⟨_, hb, hst, ho, State.processCode_overrun hst ho⟩
    · have hbs := h.seq_symbols hs b (by simp)
      have hlt : s.next.toNat < 65536 := by have := k.isLt; omega
      have hi := State.insert_below (p := s.sCode) (b := b) h.dictWf h.nextRange.1 hlt
      have hlen : ((b :: tl) ++ [b]).length = (b :: tl).length + 1 := by simp
      refine .inr ⟨s.insert s.sCode b, (b :: tl) ++ [b], hb, by rw [hlen]; exact hst, by omega,
        .inr ⟨b, hbs.1, hbs.2, he, rfl⟩, by omega, h.seq_inserted hsv hbs.1 hbs.2 hk hs, ?_⟩
      rw [hlen, State.processCode_special h he hk hs (by omega)]

/-- The count after a code that does not overrun. -/
theorem State.output_count {s : State} {n : Nat} (h : s.outCnt.toNat + n ≤ s.count.toNat) :
    (BitVec.ofNat 48 (s.outCnt.toNat + n)).toNat = s.outCnt.toNat + n := by
  have := s.count.isLt
  rw [BitVec.toNat_ofNat]
  exact Nat.mod_eq_of_lt (by omega)

/-- R172: after such a code D_DRAIN is set exactly when the count is reached. -/
theorem State.output_drain {s : State} {n : Nat} (hd : s.dDrain = false) (h : s.outCnt.toNat + n ≤ s.count.toNat) :
    (s.dDrain || decide (s.outCnt.toNat + n = s.count.toNat)) = true ↔ BitVec.ofNat 48 (s.outCnt.toNat + n) = s.count := by
  rw [hd, ← BitVec.toNat_inj, State.output_count h]
  simp

/-- R167 keeps the dictionary legal. -/
theorem State.DictLegal.processed {s t : State} (h : s.DictLegal) {k : Code} (ht : s.processCode k = .next t) :
    t.DictLegal := by
  rcases h.processCode_cases k with ⟨-, h1⟩ | ⟨n, -, -, -, h1⟩ | ⟨u, l, -, -, -, hu, hk, -, h1⟩
  · rw [h1] at ht
    injection ht with ht
    subst ht
    exact h.congr rfl rfl rfl rfl
  · rw [h1] at ht
    injection ht with ht
    subst ht
    exact h.congr rfl rfl rfl rfl
  · rw [h1] at ht
    injection ht with ht
    subst ht
    have hul : u.DictLegal := by
      rcases hu with rfl | ⟨b, hb1, hb2, he, rfl⟩
      · exact h
      · exact h.inserted (h.matchValid he) (isSymbol_sym9 hb1 hb2)
    exact ⟨hul.nextRange, fun _ => hk, hul.rowsGrounded, hul.rowSymbols, hul.dictWf⟩

/-! ### BYTE and CODE_IN items -/

/-- The BYTE that completes a code (R166). -/
theorem execByte_of_pair {s : State} {n : Byte} {k : Code} (hd : s.dDrain = false) (hv : s.hiValid = true)
    (hk : k.toNat = s.hiByte.toNat * 256 + n.toNat) : execByte n s = s.processCode k := by
  have hc : codeOfBytes s.hiByte n = k := BitVec.eq_of_toNat_eq (by rw [codeOfBytes_toNat, hk])
  simp [execByte, hd, hv, hc]

theorem decode_codeIn_byte {w : FlagByte} (h : w.getLsbD 8 = false) : decode (.codeIn w) = .ok (.byte (w.extractLsb' 0 8)) := by
  rcases flagByte_cases w with hw | hw
  · conv_lhs => rw [hw]
    exact congrArg _ (decodeCin_byte _)
  · rw [hw] at h
    have hf : (1#1 ++ w.extractLsb' 0 8 : FlagByte).getLsbD 8 = true := flagByte_flag true (w.extractLsb' 0 8)
    rw [hf] at h
    cases h

theorem decode_codeIn_eos {w : FlagByte} (h : w.getLsbD 8 = true) : decode (.codeIn w) = .ok .eos := by
  rcases flagByte_cases w with hw | hw
  · rw [hw] at h
    have hf : (0#1 ++ w.extractLsb' 0 8 : FlagByte).getLsbD 8 = false := flagByte_flag false (w.extractLsb' 0 8)
    rw [hf] at h
    cases h
  · conv_lhs => rw [hw]
    exact congrArg _ (decodeCin_eos _)

/-! ### Command words -/

/-- All that a command word can do, for any state it is performed in: nothing; a response; a fault; ABORT; a WR; an
accepted START. -/
theorem performItem_cmd_cases {w : CmdWord} {v t : State} (h : performItem (.cmd w) v = .next t) :
    t = v ∨ (∃ x, t = v.respond x) ∨
    (v.state ≠ .error ∧ ∃ e, (e = .cmd ∨ e = .busy ∨ e = .cfg) ∧ t = v.raise e) ∨
    (decode (.cmd w) = .ok .abort ∧ t = v.abortJob) ∨
    (v.state ≠ .error ∧ v.busy = false ∧
      ((∃ n, decode (.cmd w) = .ok (.wrRows n) ∧ t = { v with rows := n }) ∨
       (∃ n, decode (.cmd w) = .ok (.wrCols n) ∧ t = { v with cols := n }) ∨
       (∃ n, decode (.cmd w) = .ok (.wrChans n) ∧ t = { v with chans := n }) ∨
       (v.zeroDimension = false ∧ decode (.cmd w) = .ok .startEnc ∧ t = v.startEncode) ∨
       (v.zeroDimension = false ∧ decode (.cmd w) = .ok .startDec ∧ t = v.startDecode))) := by
  have wr : ∀ u : State, (.next (v.guardWrite u) : Result) = .next t →
      t = v ∨ (v.state ≠ .error ∧ ∃ e, (e = .cmd ∨ e = .busy ∨ e = .cfg) ∧ t = v.raise e) ∨
      (v.state ≠ .error ∧ v.busy = false ∧ t = u) := by
    intro u hu
    injection hu with hu
    subst hu
    unfold State.guardWrite
    split
    · exact .inl rfl
    · rename_i hne
      split
      · exact .inr (.inl ⟨hne, _, .inr (.inl rfl), rfl⟩)
      · rename_i hb
        exact .inr (.inr ⟨hne, by simpa using hb, rfl⟩)
  have start : ∀ u : State, (.next (v.guardStart u) : Result) = .next t →
      t = v ∨ (v.state ≠ .error ∧ ∃ e, (e = .cmd ∨ e = .busy ∨ e = .cfg) ∧ t = v.raise e) ∨
      (v.state ≠ .error ∧ v.busy = false ∧ v.zeroDimension = false ∧ t = u) := by
    intro u hu
    injection hu with hu
    subst hu
    unfold State.guardStart
    split
    · exact .inl rfl
    · rename_i hne
      split
      · exact .inr (.inl ⟨hne, _, .inr (.inl rfl), rfl⟩)
      · rename_i hb
        split
        · exact .inr (.inl ⟨hne, _, .inr (.inr rfl), rfl⟩)
        · rename_i hz
          exact .inr (.inr ⟨hne, by simpa using hb, by simpa using hz, rfl⟩)
  unfold performItem at h
  cases hd : decode (.cmd w) with
  | error e =>
    rw [hd] at h
    simp only [illegalCommand] at h
    injection h with h
    subst h
    split
    · exact .inl rfl
    · rename_i hne
      exact .inr (.inr (.inl ⟨hne, _, .inl rfl, rfl⟩))
  | ok i =>
    rw [hd] at h
    have hch := decodeCommand_channel (show decodeCommand w = .ok i from hd)
    cases i <;> simp only [Instr.channel, reduceCtorEq] at hch <;> simp only [exec] at h
    · injection h with h
      exact .inl h.symm
    · rcases wr _ h with h | h | ⟨h1, h2, h3⟩
      · exact .inl h
      · exact .inr (.inr (.inl h))
      · exact .inr (.inr (.inr (.inr ⟨h1, h2, .inl ⟨_, rfl, h3⟩⟩)))
    · rcases wr _ h with h | h | ⟨h1, h2, h3⟩
      · exact .inl h
      · exact .inr (.inr (.inl h))
      · exact .inr (.inr (.inr (.inr ⟨h1, h2, .inr (.inl ⟨_, rfl, h3⟩)⟩)))
    · rcases wr _ h with h | h | ⟨h1, h2, h3⟩
      · exact .inl h
      · exact .inr (.inr (.inl h))
      · exact .inr (.inr (.inr (.inr ⟨h1, h2, .inr (.inr (.inl ⟨_, rfl, h3⟩))⟩)))
    · injection h with h
      exact .inr (.inl ⟨_, h.symm⟩)
    · injection h with h
      exact .inr (.inl ⟨_, h.symm⟩)
    · injection h with h
      exact .inr (.inl ⟨_, h.symm⟩)
    · injection h with h
      exact .inr (.inl ⟨_, h.symm⟩)
    · injection h with h
      exact .inr (.inl ⟨_, h.symm⟩)
    · rcases start _ h with h | h | ⟨h1, h2, h3, h4⟩
      · exact .inl h
      · exact .inr (.inr (.inl h))
      · exact .inr (.inr (.inr (.inr ⟨h1, h2, .inr (.inr (.inr (.inl ⟨h3, rfl, h4⟩)))⟩)))
    · rcases start _ h with h | h | ⟨h1, h2, h3, h4⟩
      · exact .inl h
      · exact .inr (.inr (.inl h))
      · exact .inr (.inr (.inr (.inr ⟨h1, h2, .inr (.inr (.inr (.inr ⟨h3, rfl, h4⟩)))⟩)))
    · injection h with h
      exact .inr (.inr (.inr (.inl ⟨rfl, h.symm⟩)))

end Sys2Proof.Machine
end

