-- ==== Sys2Proof/Laws/PerInstr.lean ====
section
/-! SUPPORT. Facts of each transaction as syntax, one lemma per constructor: its item fits the width of its channel (30_encoding.md R90, R91, R95 to R98). -/

namespace Sys2Proof.Laws.ItemFits

/-- R90: the encoding of the transaction is an item of the channel of its format, at that channel's width. -/
def Statement (i : Instr) : Prop := rawItemWellFormed i.channel (encode i).value = true

theorem nop : Statement .nop := decide_eq_true (encode .nop).value_lt

theorem wrRows (n : Dim) : Statement (.wrRows n) := decide_eq_true (encode (.wrRows n)).value_lt

theorem wrCols (n : Dim) : Statement (.wrCols n) := decide_eq_true (encode (.wrCols n)).value_lt

theorem wrChans (n : Dim) : Statement (.wrChans n) := decide_eq_true (encode (.wrChans n)).value_lt

theorem rdRows : Statement .rdRows := decide_eq_true (encode .rdRows).value_lt

theorem rdCols : Statement .rdCols := decide_eq_true (encode .rdCols).value_lt

theorem rdChans : Statement .rdChans := decide_eq_true (encode .rdChans).value_lt

theorem rdStatus : Statement .rdStatus := decide_eq_true (encode .rdStatus).value_lt

theorem rdDnext : Statement .rdDnext := decide_eq_true (encode .rdDnext).value_lt

theorem startEnc : Statement .startEnc := decide_eq_true (encode .startEnc).value_lt

theorem startDec : Statement .startDec := decide_eq_true (encode .startDec).value_lt

theorem abort : Statement .abort := decide_eq_true (encode .abort).value_lt

theorem pix (s : Byte) : Statement (.pix s) := decide_eq_true (encode (.pix s)).value_lt

theorem byte (n : Byte) : Statement (.byte n) := decide_eq_true (encode (.byte n)).value_lt

theorem eos : Statement .eos := decide_eq_true (encode .eos).value_lt

theorem res (last : Bool) (sym : Sym) : Statement (.res last sym) := decide_eq_true (encode (.res last sym)).value_lt

theorem resd (sym : Sym) : Statement (.resd sym) := decide_eq_true (encode (.resd sym)).value_lt

end Sys2Proof.Laws.ItemFits
end

