-- ==== Sys2Proof/Laws/Step.lean ====
section
/-! SUPPORT. What one step can do, said once (00_scope.md R11): it does nothing because no agent is enabled, or it is the step of one enabled agent, which pops the head of that agent's channel and performs that item. -/

namespace Sys2Proof.Machine

theorem mem_enabledAgents {s : State} {a : Agent} : a ∈ s.enabledAgents ↔ a.enabled s = true := by
  cases a <;> simp [State.enabledAgents, List.mem_filter]

theorem fairAgent_mem {n : Nat} {l : List Agent} {a : Agent} (h : fairAgent n l = some a) : a ∈ l := by
  unfold fairAgent at h
  split at h
  · rename_i hc
    injection h with h
    exact h ▸ hc.2
  · exact List.mem_of_getElem? h

theorem fairAgent_ne_none {n : Nat} {l : List Agent} (hl : l ≠ []) : fairAgent n l ≠ none := by
  have hlt : Config.freePick n % l.length < l.length := Nat.mod_lt _ (List.length_pos_iff.mpr hl)
  unfold fairAgent
  split
  · simp
  · rw [List.getElem?_eq_getElem hlt]; simp

theorem freeAgent_mem {s : State} {l : List Agent} {a : Agent} (h : s.freeAgent l = some a) : a ∈ l := by
  unfold State.freeAgent at h
  split at h
  · split at h
    · simp_all
    · exact fairAgent_mem h
  · exact fairAgent_mem h

/-- The chosen agent is enabled. -/
theorem chosen_enabled {s : State} {a : Agent} (h : s.chosen = some a) : a.enabled s = true := by
  rw [← mem_enabledAgents]
  unfold State.chosen at h
  split at h
  · simp at h
  · simp_all
  · rename_i he
    rw [he]
    exact freeAgent_mem h

/-- No agent is chosen exactly when none is enabled. -/
theorem chosen_none {s : State} : s.chosen = none ↔ ∀ a : Agent, a.enabled s = false := by
  have hm : s.enabledAgents = [] ↔ ∀ a : Agent, a.enabled s = false := by
    rw [List.eq_nil_iff_forall_not_mem]
    simp [mem_enabledAgents]
  rw [← hm]
  unfold State.chosen
  split
  · simp_all
  · simp_all
  · rename_i a b more he
    rw [he]
    simp only [reduceCtorEq, iff_false]
    unfold State.freeAgent
    split
    · split
      · simp
      · exact fairAgent_ne_none (by simp)
    · exact fairAgent_ne_none (by simp)

/-- An enabled agent named by the schedule is the one that steps. -/
theorem chosen_of_sched {s : State} {a : Agent} {l : List Agent} (hs : s.sched = a :: l) (ha : a.enabled s = true) :
    s.chosen = some a := by
  rw [← mem_enabledAgents] at ha
  unfold State.chosen
  split
  · simp_all
  · simp_all
  · rename_i he
    rw [he] at ha
    unfold State.freeAgent
    rw [hs]
    simp only
    rw [if_pos ha]

/-- An enabled agent that has its turn is the one that steps, once the schedule is used up. -/
theorem chosen_of_turn {s : State} (hs : s.sched = []) (hw : (turnAt s.pick).2 = 0)
    (ha : (turnAgent (turnAt s.pick).1).enabled s = true) : s.chosen = some (turnAgent (turnAt s.pick).1) := by
  rw [← mem_enabledAgents] at ha
  unfold State.chosen
  split
  · simp_all
  · simp_all
  · rename_i he
    rw [he] at ha
    unfold State.freeAgent fairAgent
    rw [hs]
    simp only
    rw [if_pos ⟨hw, ha⟩]

/-- Every turn comes: from any pick on, every agent has its turn at some later pick. -/
theorem turnAt_comes (n : Nat) (a : Agent) : ∃ m, n ≤ m ∧ (turnAt m).2 = 0 ∧ turnAgent (turnAt m).1 = a := by
  have reach : ∀ w n, (turnAt n).2 = w → (turnAt (n + w)).2 = 0 ∧ (turnAt (n + w)).1 = (turnAt n).1 := by
    intro w
    induction w with
    | zero => intro n h; exact ⟨h, rfl⟩
    | succ w ih =>
      intro n h
      rcases hv : turnAt n with ⟨k, v⟩
      rw [hv] at h
      simp only at h
      subst h
      have e : turnAt (n + 1) = (k, w) := by rw [turnAt, hv]
      have := ih (n + 1) (by rw [e])
      rw [e, show n + 1 + w = n + (w + 1) by omega] at this
      exact this
  have later : ∀ j n, ∃ m, n ≤ m ∧ (turnAt m).2 = 0 ∧ (turnAt m).1 = (turnAt n).1 + j := by
    intro j
    induction j with
    | zero => intro n; exact ⟨_, Nat.le_add_right n _, reach _ n rfl⟩
    | succ j ih =>
      intro n
      obtain ⟨m, h1, h2, h3⟩ := ih n
      have e : (turnAt (m + 1)).1 = (turnAt n).1 + (j + 1) := by
        rcases hv : turnAt m with ⟨k, v⟩
        rw [hv] at h2 h3
        simp only at h2 h3
        subst h2
        rw [turnAt, hv]
        simp only
        omega
      obtain ⟨h4, h5⟩ := reach _ (m + 1) rfl
      exact ⟨_, by omega, h4, h5.trans e⟩
  obtain ⟨j, hj⟩ : ∃ j, turnAgent ((turnAt n).1 + j) = a := by
    have h5 := Nat.mod_lt (turnAt n).1 (show 0 < 5 by decide)
    cases a
    · exact ⟨5 - (turnAt n).1 % 5, by unfold turnAgent; rw [if_pos (by omega)]⟩
    · exact ⟨6 - (turnAt n).1 % 5, by unfold turnAgent; rw [if_neg (by omega), if_pos (by omega)]⟩
    · exact ⟨7 - (turnAt n).1 % 5, by unfold turnAgent; rw [if_neg (by omega), if_neg (by omega), if_pos (by omega)]⟩
    · exact ⟨8 - (turnAt n).1 % 5, by
        unfold turnAgent; rw [if_neg (by omega), if_neg (by omega), if_neg (by omega), if_pos (by omega)]⟩
    · exact ⟨9 - (turnAt n).1 % 5, by
        unfold turnAgent; rw [if_neg (by omega), if_neg (by omega), if_neg (by omega), if_neg (by omega)]⟩
  obtain ⟨m, h1, h2, h3⟩ := later j n
  exact ⟨m, h1, h2, h3 ▸ hj⟩

/-- An enabled agent has an item to pop. -/
theorem fetch_of_enabled {s : State} {a : Agent} (h : a.enabled s = true) : ∃ item t, s.fetch a = some (item, t) := by
  cases a <;> simp only [Agent.enabled, Bool.and_eq_true, Bool.not_eq_true'] at h <;> simp only [State.fetch] <;> split <;>
    simp_all

/-- ONE STEP, said once. -/
theorem step_cases {s t : State} (h : step s = .next t) :
    (t = s ∧ ∀ a : Agent, a.enabled s = false) ∨
    (∃ a item u, s.chosen = some a ∧ a.enabled s = true ∧ s.fetch a = some (item, u) ∧
      performItem item u.nextPick = .next t) := by
  unfold step at h
  split at h
  · rename_i hc
    refine .inl ⟨?_, chosen_none.mp hc⟩
    injection h with h
    exact h.symm
  · rename_i a hc
    have he := chosen_enabled hc
    obtain ⟨item, u, hf⟩ := fetch_of_enabled he
    refine .inr ⟨a, item, u, hc, he, hf, ?_⟩
    unfold agentStep at h
    rw [hf] at h
    exact h

/-! ### The step of each agent -/

theorem agentStep_ctrl {s t : State} (he : Agent.ctrl.enabled s = true) (h : agentStep .ctrl s = .next t) :
    ∃ w rest, s.cmd = w :: rest ∧ s.fetch .ctrl = some (.cmd w, { s with cmd := rest }) ∧
      performItem (.cmd w) ({ s with cmd := rest } : State).nextPick = .next t := by
  cases hc : s.cmd with
  | nil => simp [Agent.enabled, hc] at he
  | cons w rest => exact ⟨w, rest, rfl, by simp [State.fetch, hc], by simpa [agentStep, State.fetch, hc] using h⟩

theorem agentStep_pred {s t : State} (he : Agent.pred.enabled s = true) (h : agentStep .pred s = .next t) :
    s.state = .enc ∧ s.row.toNat < s.rows.toNat ∧
    ∃ w rest, s.pixIn = w :: rest ∧ s.fetch .pred = some (.pixIn w, { s with pixIn := rest }) ∧
      execPix w ({ s with pixIn := rest } : State).nextPick = .next t := by
  simp only [Agent.enabled, Bool.and_eq_true, decide_eq_true_eq] at he
  refine ⟨he.1.1, he.1.2, ?_⟩
  cases hc : s.pixIn with
  | nil => simp [hc] at he
  | cons w rest =>
    exact ⟨w, rest, rfl, by simp [State.fetch, hc],
      by simpa [agentStep, State.fetch, hc, performItem, decode, decodePix, exec] using h⟩

theorem agentStep_enc {s t : State} (he : Agent.enc.enabled s = true) (h : agentStep .enc s = .next t) :
    s.state = .enc ∧
    ∃ w rest, s.resE = w :: rest ∧ s.fetch .enc = some (.resE w, { s with resE := rest }) ∧
      execRes (w.getLsbD 9) (w.extractLsb' 0 9) ({ s with resE := rest } : State).nextPick = .next t := by
  simp only [Agent.enabled, Bool.and_eq_true, decide_eq_true_eq] at he
  refine ⟨he.1, ?_⟩
  cases hc : s.resE with
  | nil => simp [hc] at he
  | cons w rest =>
    exact ⟨w, rest, rfl, by simp [State.fetch, hc],
      by simpa [agentStep, State.fetch, hc, performItem, decode, decodeRese, exec] using h⟩

theorem agentStep_dec {s t : State} (he : Agent.dec.enabled s = true) (h : agentStep .dec s = .next t) :
    s.state = .dec ∧ s.dFin = false ∧
    ∃ w rest, s.codeIn = w :: rest ∧ s.fetch .dec = some (.codeIn w, { s with codeIn := rest }) ∧
      performItem (.codeIn w) ({ s with codeIn := rest } : State).nextPick = .next t := by
  simp only [Agent.enabled, Bool.and_eq_true, decide_eq_true_eq, Bool.not_eq_true'] at he
  refine ⟨he.1.1, he.1.2, ?_⟩
  cases hc : s.codeIn with
  | nil => simp [hc] at he
  | cons w rest => exact ⟨w, rest, rfl, by simp [State.fetch, hc], by simpa [agentStep, State.fetch, hc] using h⟩

theorem agentStep_recon {s t : State} (he : Agent.recon.enabled s = true) (h : agentStep .recon s = .next t) :
    s.state = .dec ∧ s.row.toNat < s.rows.toNat ∧
    ∃ w rest, s.resD = w :: rest ∧ s.fetch .recon = some (.resD w, { s with resD := rest }) ∧
      execResd w ({ s with resD := rest } : State).nextPick = .next t := by
  simp only [Agent.enabled, Bool.and_eq_true, decide_eq_true_eq] at he
  refine ⟨he.1.1, he.1.2, ?_⟩
  cases hc : s.resD with
  | nil => simp [hc] at he
  | cons w rest =>
    exact ⟨w, rest, rfl, by simp [State.fetch, hc],
      by simpa [agentStep, State.fetch, hc, performItem, decode, decodeResd, exec] using h⟩

end Sys2Proof.Machine
end

