-- ==== Sys2Proof/Laws/Run.lean ====
section
/-! SUPPORT. What every transaction, step and host move does to the model's own schedule and counter (log 1), and the host's moves said once: what a run needs for weak fairness (70_reset_and_hazards.md R249). -/

namespace Sys2Proof.Machine

/-- All that the dictionary update of a code can write (R167 step 3). -/
theorem codeUpdate_writes {s u : State} {k : Code} {kind : CodeKind} (h : s.codeUpdate k kind = some u) :
    ∃ n d, u = { s with next := n, dict := d } := by
  cases kind <;> simp only [State.codeUpdate, Option.map_eq_some_iff, Option.some.injEq] at h
  · subst h; exact ⟨s.next, s.dict, rfl⟩
  · obtain ⟨b, -, rfl⟩ := h; exact ⟨_, _, rfl⟩
  · obtain ⟨b, -, rfl⟩ := h; exact ⟨_, _, rfl⟩

/-- All that the decoding of a code can write (R167, R210). -/
theorem processCode_writes {s t : State} {k : Code} (h : s.processCode k = .next t) :
    ∃ st e n d r o se sc dd hv, t = { s with
      state := st, err := e, next := n, dict := d, resD := r, outCnt := o, sEmpty := se, sCode := sc, dDrain := dd, hiValid := hv } := by
  have raised : ∀ e, ∃ st e' n d r o se sc dd hv, s.raise e = { s with
      state := st, err := e', next := n, dict := d, resD := r, outCnt := o, sEmpty := se, sCode := sc, dDrain := dd, hiValid := hv } :=
    fun e => ⟨.error, e, s.next, s.dict, s.resD, s.outCnt, s.sEmpty, s.sCode, s.dDrain, s.hiValid, rfl⟩
  unfold State.processCode at h
  split at h
  · injection h with h; exact h ▸ raised _
  · split at h
    · cases h
    · split at h
      · injection h with h; exact h ▸ raised _
      · split at h
        · cases h
        · rename_i hu
          obtain ⟨n, d, rfl⟩ := codeUpdate_writes hu
          split at h
          · cases h
          · injection h with h
            subst h
            exact ⟨s.state, s.err, n, d, _, _, _, _, _, _, rfl⟩

/-- No transaction touches the schedule or the counter. -/
theorem exec_pick {i : Instr} {s t : State} (h : exec i s = .next t) : t.sched = s.sched ∧ t.pick = s.pick := by
  have gw : ∀ u : State, u.sched = s.sched ∧ u.pick = s.pick → (s.guardWrite u).sched = s.sched ∧ (s.guardWrite u).pick = s.pick := by
    intro u hu
    unfold State.guardWrite
    split
    · exact ⟨rfl, rfl⟩
    · split
      · exact ⟨rfl, rfl⟩
      · exact hu
  have gs : ∀ u : State, u.sched = s.sched ∧ u.pick = s.pick → (s.guardStart u).sched = s.sched ∧ (s.guardStart u).pick = s.pick := by
    intro u hu
    unfold State.guardStart
    split
    · exact ⟨rfl, rfl⟩
    · split
      · exact ⟨rfl, rfl⟩
      · split
        · exact ⟨rfl, rfl⟩
        · exact hu
  cases i with
  | nop => injection h with h; subst h; exact ⟨rfl, rfl⟩
  | wrRows n => injection h with h; subst h; exact gw _ ⟨rfl, rfl⟩
  | wrCols n => injection h with h; subst h; exact gw _ ⟨rfl, rfl⟩
  | wrChans n => injection h with h; subst h; exact gw _ ⟨rfl, rfl⟩
  | rdRows => injection h with h; subst h; exact ⟨rfl, rfl⟩
  | rdCols => injection h with h; subst h; exact ⟨rfl, rfl⟩
  | rdChans => injection h with h; subst h; exact ⟨rfl, rfl⟩
  | rdStatus => injection h with h; subst h; exact ⟨rfl, rfl⟩
  | rdDnext => injection h with h; subst h; exact ⟨rfl, rfl⟩
  | startEnc => injection h with h; subst h; exact gs _ ⟨rfl, rfl⟩
  | startDec => injection h with h; subst h; exact gs _ ⟨rfl, rfl⟩
  | abort => injection h with h; subst h; exact ⟨rfl, rfl⟩
  | pix x =>
    simp only [exec, execPix] at h
    split at h
    · injection h with h; subst h; exact ⟨rfl, rfl⟩
    · cases h
  | byte n =>
    simp only [exec, execByte] at h
    split at h
    · injection h with h; subst h; exact ⟨rfl, rfl⟩
    · split at h
      · obtain ⟨_, _, _, _, _, _, _, _, _, _, rfl⟩ := processCode_writes h; exact ⟨rfl, rfl⟩
      · injection h with h; subst h; exact ⟨rfl, rfl⟩
  | eos =>
    simp only [exec, execEos] at h
    split at h
    · injection h with h; subst h; exact ⟨rfl, rfl⟩
    · injection h with h; subst h; exact ⟨rfl, rfl⟩
  | res l p =>
    simp only [exec, execRes] at h
    split at h
    · injection h with h; subst h; exact ⟨rfl, rfl⟩
    · injection h with h
      subst h
      obtain ⟨e, c, n, d, o, hm⟩ := s.matchSymbol_writes (int9 p)
      rw [hm]
      exact ⟨rfl, rfl⟩
  | resd p =>
    simp only [exec, execResd] at h
    split at h
    · injection h with h; subst h; exact ⟨rfl, rfl⟩
    · cases h

theorem fetch_pick {s u : State} {a : Agent} {item : Item} (h : s.fetch a = some (item, u)) :
    u.sched = s.sched ∧ u.pick = s.pick := by
  cases a <;> simp only [State.fetch] at h <;> split at h <;> first | cases h; done | (injection h with h; cases h; exact ⟨rfl, rfl⟩)

/-- The step of an enabled agent uses up one entry of the schedule and counts one pick. -/
theorem agentStep_pick {s t : State} {a : Agent} (he : a.enabled s = true) (h : agentStep a s = .next t) :
    t.sched = s.sched.tail ∧ t.pick = s.pick + 1 := by
  obtain ⟨item, u, hf⟩ := fetch_of_enabled he
  have hu := fetch_pick hf
  have hn : u.nextPick.sched = s.sched.tail ∧ u.nextPick.pick = s.pick + 1 := by
    unfold State.nextPick
    rw [hu.1, hu.2]
    exact ⟨rfl, rfl⟩
  unfold agentStep at h
  rw [hf] at h
  simp only [performItem] at h
  split at h
  · exact ⟨(exec_pick h).1.trans hn.1, (exec_pick h).2.trans hn.2⟩
  · injection h with h
    subst h
    split
    · exact hn
    · exact hn

/-- The host touches neither. -/
theorem hostMove_pick (s : State) (m : HostMove) : (s.hostMove m).sched = s.sched ∧ (s.hostMove m).pick = s.pick := by
  cases m with
  | dropPix => simp only [State.hostMove, State.dropPix]; split <;> exact ⟨rfl, rfl⟩
  | dropCode => simp only [State.hostMove, State.dropCode]; split <;> exact ⟨rfl, rfl⟩
  | _ => exact ⟨rfl, rfl⟩

/-- What a move of the host that stays with the job can do: it pushes or takes at the ports and nothing else, it removes
nothing from a port that the running job reads, and it pushes no ABORT. -/
theorem hostMove_stays {s : State} {m : HostMove} (h : m.StaysWithJob) :
    ∃ cmd rsp pixIn codeOut codeIn pixOut,
      s.hostMove m = { s with cmd := s.cmd ++ cmd, rsp := rsp, pixIn := pixIn, codeOut := codeOut, codeIn := codeIn, pixOut := pixOut } ∧
      (∀ w ∈ cmd, decode (.cmd w) ≠ .ok .abort) ∧
      (s.state = .enc → ∃ more, pixIn = s.pixIn ++ more) ∧ (s.state = .dec → ∃ more, codeIn = s.codeIn ++ more) := by
  have hnil : ∀ w ∈ ([] : List CmdWord), decode (.cmd w) ≠ .ok .abort := by simp
  have hp : ∃ more, s.pixIn = s.pixIn ++ more := ⟨[], by simp⟩
  have hq : ∃ more, s.codeIn = s.codeIn ++ more := ⟨[], by simp⟩
  cases m with
  | pushCmd w => exact ⟨[w], s.rsp, s.pixIn, s.codeOut, s.codeIn, s.pixOut, rfl, by rintro v hv; rw [List.mem_singleton.mp hv]; exact h, fun _ => hp, fun _ => hq⟩
  | pushPix w =>
    exact ⟨[], s.rsp, s.pixIn ++ [w], s.codeOut, s.codeIn, s.pixOut, by rw [List.append_nil]; rfl, hnil, fun _ => ⟨_, rfl⟩, fun _ => hq⟩
  | pushCode w =>
    exact ⟨[], s.rsp, s.pixIn, s.codeOut, s.codeIn ++ [w], s.pixOut, by rw [List.append_nil]; rfl, hnil, fun _ => hp, fun _ => ⟨_, rfl⟩⟩
  | takeRsp => exact ⟨[], s.rsp.tail, s.pixIn, s.codeOut, s.codeIn, s.pixOut, by rw [List.append_nil]; rfl, hnil, fun _ => hp, fun _ => hq⟩
  | takeCodeOut =>
    exact ⟨[], s.rsp, s.pixIn, s.codeOut.tail, s.codeIn, s.pixOut, by rw [List.append_nil]; rfl, hnil, fun _ => hp, fun _ => hq⟩
  | takePixOut =>
    exact ⟨[], s.rsp, s.pixIn, s.codeOut, s.codeIn, s.pixOut.tail, by rw [List.append_nil]; rfl, hnil, fun _ => hp, fun _ => hq⟩
  | dropPix =>
    by_cases he : s.state = .enc
    · exact ⟨[], s.rsp, s.pixIn, s.codeOut, s.codeIn, s.pixOut,
        by rw [List.append_nil]; show s.dropPix = _; unfold State.dropPix; rw [if_pos he], hnil, fun _ => hp, fun _ => hq⟩
    · exact ⟨[], s.rsp, s.pixIn.tail, s.codeOut, s.codeIn, s.pixOut,
        by rw [List.append_nil]; simp [State.hostMove, State.dropPix, he], hnil, fun hc => absurd hc he, fun _ => hq⟩
  | dropCode =>
    by_cases he : s.state = .dec
    · exact ⟨[], s.rsp, s.pixIn, s.codeOut, s.codeIn, s.pixOut,
        by rw [List.append_nil]; show s.dropCode = _; unfold State.dropCode; rw [if_pos he], hnil, fun _ => hp, fun _ => hq⟩
    · exact ⟨[], s.rsp, s.pixIn, s.codeOut, s.codeIn.tail, s.pixOut,
        by rw [List.append_nil]; simp [State.hostMove, State.dropCode, he], hnil, fun _ => hp, fun hc => absurd hc he⟩
  | reset => exact h.elim

end Sys2Proof.Machine
end

