-- ==== Sys2Proof/Tests/Slice0.lean ====
section
/-! SUPPORT. Tests of single decodings and single steps, their expected values taken from the spec (95_test_vectors.md V<n>, PG<n>, the rules named); then the witnesses: for every obligation with hypotheses, concrete states and operands that meet them. -/

open Sys2Proof Sys2Proof.Machine

namespace Sys2Proof.Tests

/-! ### Well-formedness: an ill-formed value for each check -/

theorem test_wide_command_refused : decodeRaw .cmd 0x100000000 = .error .itemTooWide := by decide
theorem test_wide_sample_refused : decodeRaw .pixIn 0x100 = .error .itemTooWide := by decide
theorem test_wide_code_byte_refused : decodeRaw .codeIn 0x200 = .error .itemTooWide := by decide
theorem test_wide_residual_refused : decodeRaw .resE 0x400 = .error .itemTooWide := by decide
theorem test_wide_resd_refused : decodeRaw .resD 0x200 = .error .itemTooWide := by decide
theorem test_reserved_pattern_is_no_symbol : isSymbol 0x100#9 = false ∧ isSymbol 0x101#9 = true := by decide
theorem test_wr_register_3_refused : wrRegister 3 = false ∧ wrRegister 2 = true := by decide
theorem test_rd_register_5_refused : rdRegister 5 = false ∧ rdRegister 4 = true := by decide

/-! ### Decoding: words written out from R91 to R98 -/

theorem test_decode_nop : decode (.cmd 0x00000000#32) = .ok .nop := by decide
theorem test_decode_wr_rows : decode (.cmd 0x10000002#32) = .ok (.wrRows 2) := by decide
theorem test_decode_wr_cols : decode (.cmd 0x11000006#32) = .ok (.wrCols 6) := by decide
theorem test_decode_wr_chans : decode (.cmd 0x1200FFFF#32) = .ok (.wrChans 0xFFFF#16) := by decide
theorem test_decode_rd_rows : decode (.cmd 0x20000000#32) = .ok .rdRows := by decide
theorem test_decode_rd_cols : decode (.cmd 0x21000000#32) = .ok .rdCols := by decide
theorem test_decode_rd_chans : decode (.cmd 0x22000000#32) = .ok .rdChans := by decide
theorem test_decode_rd_status : decode (.cmd 0x23000000#32) = .ok .rdStatus := by decide
theorem test_decode_rd_dnext : decode (.cmd 0x24000000#32) = .ok .rdDnext := by decide
theorem test_decode_start_enc : decode (.cmd 0x30000000#32) = .ok .startEnc := by decide
theorem test_decode_start_dec : decode (.cmd 0x40000000#32) = .ok .startDec := by decide
theorem test_decode_abort : decode (.cmd 0x50000000#32) = .ok .abort := by decide
theorem test_decode_pix : decode (.pixIn 0xC8#8) = .ok (.pix 200) := by decide
theorem test_decode_byte : decode (.codeIn 0x0AB#9) = .ok (.byte 0xAB#8) := by decide
theorem test_decode_eos : decode (.codeIn 0x100#9) = .ok .eos ∧ decode (.codeIn 0x1AB#9) = .ok .eos := by decide
theorem test_decode_res :
    decode (.resE 0x202#10) = .ok (.res true 2) ∧ decode (.resE 0x1FE#10) = .ok (.res false 0x1FE#9) := by decide
theorem test_decode_resd : decode (.resD 0x1FE#9) = .ok (.resd 0x1FE#9) := by decide

/-- Illegal words of V73: register numbers and operation codes without a row. -/
theorem test_illegal_numbers :
    decode (.cmd 0x60000000#32) = .error .illegalCommand ∧ decode (.cmd 0xF0000000#32) = .error .illegalCommand ∧
    decode (.cmd 0x13000005#32) = .error .illegalCommand ∧ decode (.cmd 0x25000000#32) = .error .illegalCommand := by decide
/-- Illegal words of V73: bits that must be zero. -/
theorem test_illegal_bits :
    decode (.cmd 0x20000001#32) = .error .illegalCommand ∧ decode (.cmd 0x10010002#32) = .error .illegalCommand ∧
    decode (.cmd 0x51000000#32) = .error .illegalCommand ∧ decode (.cmd 0x00000001#32) = .error .illegalCommand := by decide

theorem test_table_words :
    decodeTableWord 32 0x10000002 = some (.wrRows 2) ∧ decodeTableWord 8 77 = some (.pix 77) ∧
    decodeTableWord 16 0x100 = some .eos ∧ decodeTableWord 16 0x202 = some (.res true 2) ∧
    decodeTableWord 32 0x60000000 = none := by decide

/-! ### Small states -/

/-- The next state, where there is one. -/
def nextState : Result → Option State
  | .next t => some t
  | .fault _ => none
  | .refused _ => none

/-- After DIMS 2, 2, 1 and START_ENC (PG1, step 4). -/
def encFirst : State := { State.reset with rows := 2, cols := 2, chans := 1, count := 4, state := .enc }

/-- PG1 after step 5, with the next sample waiting. -/
def encMid : State := { encFirst with col := 1, left := [(0, 10)], resE := [0x00A], pixIn := [12] }

/-- V3 with the one sample predicted and its residual waiting. -/
def encEnd : State :=
  { State.reset with rows := 1, cols := 1, count := 1, row := 1, left := [(0, 77)], state := .enc, resE := [0x24D] }

/-- V9 after two residuals have been matched: row 511 = (255, 0), S = [0, 0]. -/
def encRow : State :=
  { encFirst with sEmpty := false, sCode := 255, next := 512, dict := [(511, ⟨false, 255, 0⟩)] }

/-- After DIMS 1, 3, 1 and START_DEC. -/
def decFirst : State := { State.reset with rows := 1, cols := 3, count := 3, state := .dec, job := .dec }

/-- V45 after the code 255 and the high byte 0x01 of the next. -/
def decLater : State :=
  { decFirst with sEmpty := false, sCode := 255, outCnt := 1, resD := [0], hiValid := true, hiByte := 1 }

/-- V45 after its second code. -/
def decRow : State :=
  { decFirst with
    sEmpty := false, sCode := 511, next := 512, dict := [(511, ⟨false, 255, 0⟩)], outCnt := 3, dDrain := true
    resD := [0, 0, 0] }

/-- V55 before its EOS, with the one residual reconstructed. -/
def decEnd : State :=
  { State.reset with
    rows := 1, cols := 1, count := 1, row := 1, left := [(0, 254)], state := .dec, job := .dec, sEmpty := false
    sCode := 253, outCnt := 1, dDrain := true, codeIn := [0x100] }

/-- A full dictionary (STATUS.FULL). -/
def capState : State := { State.reset with next := 65536, sEmpty := false }

/-- ERROR after V71. -/
def errState : State := { State.reset with state := .error, err := .cfg }

/-! ### One step each -/

theorem test_nop_during_a_job : nextState (exec .nop encFirst) = some encFirst := by decide
theorem test_wr_rows : (nextState (exec (.wrRows 0xFFFF) State.reset)).map (fun t => (t.rows, t.cols, t.chans)) =
    some (0xFFFF#16, 0#16, 1#16) := by decide
theorem test_wr_rows_busy : (nextState (exec (.wrRows 3) encFirst)).map (fun t => (t.rows, t.status)) =
    some (2#16, 0x0024#16) := by decide
theorem test_wr_cols_discarded : nextState (exec (.wrCols 5) errState) = some errState := by decide
theorem test_wr_cols_zero : (nextState (exec (.wrCols 0) encRow.abortJob)).map (fun t => (t.rows, t.cols)) =
    some (2#16, 0#16) := by decide
theorem test_wr_chans : (nextState (exec (.wrChans 7) State.reset)).map (fun t => (t.chans, t.rows)) =
    some (7#16, 0#16) := by decide
theorem test_rd_rows : (nextState (exec .rdRows encFirst)).map (fun t => t.rsp) = some [2#16] := by decide
theorem test_rd_cols : (nextState (exec .rdCols decFirst)).map (fun t => t.rsp) = some [3#16] := by decide
/-- V70 -/
theorem test_rd_chans_reset : (nextState (exec .rdChans State.reset)).map (fun t => t.rsp) = some [1#16] := by decide
/-- V71 -/
theorem test_rd_status_error : (nextState (exec .rdStatus errState)).map (fun t => t.rsp) = some [0x0034#16] := by decide
/-- V20 -/
theorem test_rd_status_full :
    (nextState (exec .rdStatus { capState with state := .done })).map (fun t => t.rsp) = some [0x0103#16] := by decide
/-- V70, V20 -/
theorem test_rd_dnext :
    (nextState (exec .rdDnext State.reset)).map (fun t => t.rsp) = some [0x01FF#16] ∧
    (nextState (exec .rdDnext capState)).map (fun t => t.rsp) = some [0x0000#16] := by decide
/-- V84 -/
theorem test_start_enc_count :
    (nextState (exec .startEnc { State.reset with rows := 65535, cols := 65535, chans := 65535 })).map
      (fun t => (t.count, t.status)) = some (0xFFFD0002FFFF#48, 1#16) := by decide
/-- V71 -/
theorem test_start_enc_cfg : (nextState (exec .startEnc State.reset)).map (fun t => (t.status, t.count)) =
    some (0x0034#16, 0#48) := by decide
/-- V79 -/
theorem test_start_dec_busy : (nextState (exec .startDec encFirst)).map (fun t => t.status) = some 0x0024#16 := by decide
/-- PG2 -/
theorem test_start_dec : (nextState (exec .startDec { State.reset with rows := 2, cols := 2 })).map
    (fun t => (t.status, t.count)) = some (0x000A#16, 4#48) := by decide
/-- V85 -/
theorem test_abort : (nextState (exec .abort { decLater with state := .error, err := .badCode })).map
    (fun t => (t.status, t.dnext, t.rows)) = some (0x0008#16, 0x01FF#16, 1#16) := by decide
/-- PG1, step 7 -/
theorem test_pix : (nextState (exec (.pix 12) encMid)).map (fun t => (t.resE, t.left, t.row, t.col)) =
    some ([0x00A#10, 0x002], [(0, 12)], 1#16, 0#16) := by decide
/-- V4, the last sample of a row of one: -255 -/
theorem test_pix_negative :
    (nextState (exec (.pix 0) { encMid with left := [(0, 255)], resE := [], rows := 1 })).map (fun t => t.resE) =
      some [0x301#10] := by decide
/-- PG1, step 8: DICT[511] = 0x0021202 -/
theorem test_res_miss :
    (nextState (exec (.res false 2) { encFirst with sEmpty := false, sCode := 265 })).map
      (fun t => (t.codeOut, (t.dict.row 511).toBits, t.next, t.sCode)) =
      some ([0x001#9, 0x009], 0x0021202#26, 512#17, 257#16) := by decide +kernel
/-- V10: the last residual on a hit emits one code with `last` -/
theorem test_res_last_hit :
    (nextState (exec (.res true 0) encRow)).map (fun t => (t.codeOut, t.state, t.next)) =
      some ([0x001#9, 0x1FF], .done, 512#17) := by decide +kernel
/-- V45, its second code: the special case -/
theorem test_byte_special :
    (nextState (exec (.byte 0xFF) decLater)).map (fun t => (t.resD, (t.dict.row 511).toBits, t.next, t.dDrain)) =
      some ([0#9, 0, 0], 0x001FE00#26, 512#17, true) := by decide +kernel
/-- V43: the overrun check precedes the insertion -/
theorem test_byte_overrun :
    (nextState (exec (.byte 0xFF) { decLater with cols := 2, count := 2 })).map (fun t => (t.status, t.next)) =
      some (0x007C#16, 511#17) := by decide +kernel
/-- V45 and V44 -/
theorem test_eos :
    (nextState (exec .eos decRow)).map (fun t => (t.dFin, t.state)) = some (true, .dec) ∧
    (nextState (exec .eos decLater)).map (fun t => t.status) = some 0x006C#16 := by decide
/-- V55: a negative residual at column 0 -/
theorem test_resd_negative :
    (nextState (exec (.resd 0x1FE) { decFirst with cols := 1, count := 1 })).map (fun t => t.pixOut) =
      some [0x1FE#9] := by decide
/-- V56: 250 + 10 = 4 mod 256 -/
theorem test_resd_wraps :
    (nextState (exec (.resd 10) { decFirst with cols := 2, col := 1, left := [(0, 250)] })).map (fun t => t.pixOut) =
      some [0x104#9] := by decide
/-- V73 -/
theorem test_illegal_command : (nextState (performItem (.cmd 0x60000000#32) State.reset)).map (fun t => t.status) =
    some 0x0014#16 := by decide
/-- A whole step: pop and perform. -/
theorem test_step_command :
    (nextState (step { State.reset with cmd := [0x10000002#32, 0x20000000] })).map (fun t => (t.rows, t.cmd)) =
      some (2#16, [0x20000000#32]) := by decide
/-- The host's word, first after reset (log 10). -/
theorem test_step_fetch_word :
    (nextState (step (State.reset.withFetchWord 8 77))).map (fun t => (t.resE, t.pixIn)) = some ([0x24D#10], []) := by
  decide
/-- R60, R61: the bits of a seed row: row 0 is {1, 0, sym9(-255)}. -/
theorem test_seed_row_bits : (Dict.row [] 0).toBits = 0x2000101#26 ∧ DictRow.ofBits 0x2000101#26 = Dict.row [] 0 := by decide
/-- R107, R231: the script line RESET keeps the host's queues. -/
theorem test_script_reset :
    (nextState (runScript 4 [] ([.push .nop, .reset] ++ scriptDims 1 2 3) { encFirst with pixOut := [1] })).map
      (fun t => (t.state, t.cmd.length, t.pixOut)) = some (.idle, 4, [1#9]) := by decide
/-- PG7: whether the sample is handled before the fault is a matter of the steps between the lines (log 15). -/
theorem test_script_gaps :
    (nextState (runScript 9 [0, 1] [.push (.pix 5), .push (.wrRows 3), .wait] { encFirst with sched := [.pred, .ctrl] })).map
      (fun t => (t.status, t.pixIn, t.resE)) = some (0x0024#16, [], [0x005#10]) ∧
    (nextState (runScript 9 [] [.push (.pix 5), .push (.wrRows 3), .wait] { encFirst with sched := [.ctrl] })).map
      (fun t => (t.status, t.pixIn, t.resE)) = some (0x0024#16, [5#8], []) := by decide
/-- PG7, R241: after the fault the host clears PIX_IN itself; during the job it has no such move. -/
theorem test_drop_leftover :
    (({ errState with pixIn := [5] } : State).hostMove .dropPix).pixIn = [] ∧
    (encMid.hostMove .dropPix).pixIn = [12] ∧ (decEnd.hostMove .dropCode).codeIn = [0x100] ∧
    (({ State.reset with codeIn := [0x100, 7] } : State).hostMove .dropCode).codeIn = [7] := by decide
theorem test_lines : encFirst.busy = true ∧ errState.errorLine = true ∧ State.reset.doneLine = false := by decide
theorem test_reset_memories_wf : State.reset.left.wf = true ∧ State.reset.dict.wf = true := by decide

/-! ### Witnesses: the invariant -/

theorem unwritten_row {c : Nat} (h : 511 ≤ c) : Dict.row [] c = ⟨false, 0, 0⟩ := by
  have hn : ¬ c < Config.nSeed := Nat.not_lt.mpr h
  unfold Dict.row
  rw [if_neg hn]
  rfl

theorem unwritten_symbol {c : Nat} (h : 511 ≤ c) : isSymbol (Dict.row [] c).sym = true := by
  rw [unwritten_row h]; decide

theorem unwritten_grounded {c : Nat} (h : 511 ≤ c) : (Dict.row [] c).root = false ∧ (Dict.row [] c).prefixCode.toNat < c := by
  rw [unwritten_row h]; exact ⟨rfl, Nat.lt_of_lt_of_le (by decide) h⟩

theorem witness_inv_reset : State.reset.Inv := by
  constructor <;> simp [State.reset, State.Running] <;> decide

theorem witness_inv_encFirst : encFirst.Inv := by
  constructor <;> simp [encFirst, State.reset, State.Running] <;> first | decide | omega | skip
  constructor <;> simp

theorem witness_inv_encMid : encMid.Inv := by
  constructor <;> simp [encMid, encFirst, State.reset, State.Running] <;> first | decide | omega | skip
  constructor <;> simp

theorem witness_inv_encEnd : encEnd.Inv := by
  constructor <;> simp [encEnd, State.reset, State.Running] <;> first | decide | omega | skip
  · constructor <;> simp
  · exact ⟨[], by simp⟩

theorem witness_inv_decFirst : decFirst.Inv := by
  constructor <;> simp [decFirst, State.reset, State.Running] <;> first | decide | omega | skip
  constructor <;> simp

theorem witness_inv_decLater : decLater.Inv := by
  constructor <;> simp [decLater, decFirst, State.reset, State.Running] <;> first | decide | omega | skip
  constructor <;> simp

/-- V55 with its EOS consumed first, the one residual still waiting. -/
def decWait : State :=
  { decEnd with row := 0, left := [], codeIn := [], dFin := true, resD := [0x0FE] }

theorem witness_inv_decWait : decWait.Inv := by
  constructor <;> simp [decWait, decEnd, State.reset, State.Running] <;> first | decide | omega | skip
  constructor <;> simp

theorem witness_inv_decEnd : decEnd.Inv := by
  constructor <;> simp [decEnd, State.reset, State.Running] <;> first | decide | omega | skip
  constructor <;> simp

theorem decRow_row {c : Nat} (h1 : 511 ≤ c) (h2 : c < 512) : decRow.dict.row c = ⟨false, 255, 0⟩ := by
  obtain rfl : c = 511 := Nat.le_antisymm (Nat.le_of_lt_succ h2) h1
  rfl

theorem witness_inv_decRow : decRow.Inv where
  nextRange := by decide
  errExactly := by decide
  matchValid := by decide
  emptyFresh := by decide
  rowsGrounded c h1 h2 := by rw [decRow_row h1 h2]; exact ⟨rfl, Nat.lt_of_lt_of_le (by decide) h1⟩
  keysUnique h := by simp [decRow, decFirst, State.reset] at h
  jobDims _ := by decide
  outCount := by decide
  encQuiet := by decide
  decQuiet := by decide
  drainExactly := by decide
  pairHeld := by decide
  walker _ := by constructor <;> decide
  rowSymbols c h1 h2 := by rw [decRow_row h1 h2]; decide
  resESymbols := by decide
  resDSymbols := by decide
  lastOnly := by decide
  lastThere h := by simp [decRow, decFirst, State.reset] at h
  resDCount := by decide
  doneEmpty := by decide
  leftWf := by decide
  dictWf := by decide

theorem witness_inv_cap : capState.Inv where
  nextRange := by decide
  errExactly := by decide
  matchValid := by decide
  emptyFresh := by decide
  rowsGrounded _ h _ := unwritten_grounded h
  keysUnique h := by simp [capState, State.reset] at h
  jobDims := by simp [capState, State.Running, State.reset]
  outCount := by decide
  encQuiet := by decide
  decQuiet := by decide
  drainExactly := by decide
  pairHeld := by decide
  walker := by simp [capState, State.Running, State.reset]
  rowSymbols _ h _ := unwritten_symbol h
  resESymbols := by decide
  resDSymbols := by decide
  lastOnly := by decide
  lastThere h := by simp [capState, State.reset] at h
  resDCount := by decide
  doneEmpty := by decide
  leftWf := by decide
  dictWf := by decide

/-- A decode job with a full dictionary, a code's high byte held. -/
def capDec : State := { decFirst with next := 65536, sEmpty := false, hiValid := true }

theorem witness_inv_capDec : capDec.Inv where
  nextRange := by decide
  errExactly := by decide
  matchValid := by decide
  emptyFresh := by decide
  rowsGrounded _ h _ := unwritten_grounded h
  keysUnique h := by simp [capDec, decFirst, State.reset] at h
  jobDims _ := by decide
  outCount := by decide
  encQuiet := by decide
  decQuiet := by decide
  drainExactly := by decide
  pairHeld := by decide
  walker _ := by constructor <;> decide
  rowSymbols _ h _ := unwritten_symbol h
  resESymbols := by decide
  resDSymbols := by decide
  lastOnly := by decide
  lastThere h := by simp [capDec, decFirst, State.reset] at h
  resDCount := by decide
  doneEmpty := by decide
  leftWf := by decide
  dictWf := by decide

/-! ### Witnesses of the hypotheses, one theorem an obligation, in their order -/

/-- A command waiting, in any state. -/
def withCmd (w : CmdWord) (s : State) : State := { s with cmd := [w], sched := [.ctrl] }

theorem witness_AcceptedItemIsTheEncoding :
    decode (.cmd 0x1200FFFF#32) = .ok (.wrChans 0xFFFF#16) ∧ Instr.wrChans 0xFFFF#16 ≠ .eos := by decide

theorem witness_NoWordMatchesTwoRows : commandRows[1] ∈ commandRows ∧ commandRows[1].accepts 0x1000FFFF#32 = true :=
  ⟨List.getElem_mem _, by decide⟩

theorem witness_WrWritesTheNamedDimension :
    State.reset.state = .idle ∧ encFirst.state = .enc ∧ decFirst.state = .dec ∧ errState.state = .error ∧
    ({ State.reset with state := .done } : State).state = .done ∧ Instr.wrChans 0 ∈ [Instr.wrRows 0, .wrCols 0, .wrChans 0] ∧
    BitVec.extractLsb' 28 4 0x13000000#32 = 1#4 ∧ 3 ≤ (BitVec.extractLsb' 24 4 0x13000000#32).toNat ∧
    BitVec.extractLsb' 28 4 0x1F000000#32 = 1#4 ∧ 3 ≤ (BitVec.extractLsb' 24 4 0x1F000000#32).toNat := by decide

theorem witness_RdPushesTheRegister :
    BitVec.extractLsb' 28 4 0x25000000#32 = 2#4 ∧ 5 ≤ (BitVec.extractLsb' 24 4 0x25000000#32).toNat ∧
    BitVec.extractLsb' 28 4 0x20000001#32 = 2#4 ∧ BitVec.extractLsb' 0 16 0x20000001#32 ≠ 0#16 := by decide

theorem witness_DnextIsZeroExactlyAtTheCap : State.reset.Inv ∧ capState.Inv ∧ capState.next.toNat = 65536 :=
  ⟨witness_inv_reset, witness_inv_cap, by decide⟩

/-- The largest image. -/
def largest : State := { State.reset with rows := 65535, cols := 65535, chans := 65535 }

theorem witness_StartInitialisesTheJob :
    largest.state = .idle ∧ largest.rows ≠ 0 ∧ largest.cols ≠ 0 ∧ largest.chans ≠ 0 ∧
    encFirst.state = .enc ∧ State.reset.rows = 0 ∧ errState.state = .error := by decide

theorem witness_AbortReturnsToIdle :
    errState.state = .error ∧ ∃ t, performItem (.cmd 0x50000000#32) errState = .next t ∧ t.state ≠ .error :=
  ⟨rfl, _, rfl, by decide⟩

theorem witness_CommandChecksInOrder :
    errState.state = .error ∧ decode (.cmd 0x23000000#32) = .ok .rdStatus ∧
    Instr.rdStatus ∈ [Instr.rdRows, .rdCols, .rdChans, .rdStatus, .rdDnext, .abort] ∧
    (∀ i, decode (.cmd 0x60000000#32) = .ok i → i ∉ [Instr.rdRows, .rdCols, .rdChans, .rdStatus, .rdDnext, .abort]) ∧
    encFirst.state ≠ .error ∧ decode (.cmd 0x60000000#32) = .error .illegalCommand ∧
    encFirst.state = .enc ∧ decode (.cmd 0x10000003#32) = .ok (.wrRows 3) ∧
    State.reset.state = .idle ∧ decode (.cmd 0x40000000#32) = .ok .startDec ∧ State.reset.chans ≠ 0 ∧ State.reset.rows = 0 := by
  refine ⟨by decide, by decide, by decide, ?_, by decide, by decide, by decide, by decide, by decide, by decide, by decide, by decide⟩
  intro i h
  rw [show decode (.cmd 0x60000000#32) = .error .illegalCommand by decide] at h
  cases h

/-- The last channel of a pixel of 65535 channels. -/
def lastChannel : State := { encFirst with chans := 65535, ch := 65534, left := [(65534, 255)] }

theorem witness_PixPushesTheResidual : lastChannel.left.wf = true ∧ lastChannel.ch.toNat < 65535 := by decide

theorem witness_ResidualsAreSymbols :
    (∃ t, exec (.pix 0) { lastChannel with col := 1 } = .next t) ∧ ∃ t, exec (.pix 0) lastChannel = .next t := ⟨⟨_, rfl⟩, _, rfl⟩

theorem witness_AbsentLeftCellStops : ({ encFirst with ch := 65535 } : State).ch.toNat = 65535 := by decide

/-- The last position of PG1's image. -/
def lastPosition : State := { encFirst with row := 1, col := 1 }

theorem witness_AdvanceVisitsTheNextPosition :
    encFirst.WalkerLegal ∧ encFirst.row.toNat < encFirst.rows.toNat ∧ encFirst.atLast = false ∧
    lastPosition.WalkerLegal ∧ lastPosition.row.toNat < lastPosition.rows.toNat ∧ lastPosition.atLast = true :=
  ⟨by constructor <;> decide, by decide, by decide, by constructor <;> decide, by decide, by decide⟩

theorem witness_WalkEndsAfterCountCalls :
    largest.rows ≠ 0 ∧ largest.cols ≠ 0 ∧ largest.chans ≠ 0 ∧ largest.row = 0 ∧ largest.col = 0 ∧ largest.ch = 0 := by decide

theorem witness_MemoriesReadBackWhatWasWritten :
    encMid.left.wf = true ∧ 65534 < 65535 ∧ decRow.dict.wf = true ∧ 511 ≤ 511 ∧ 65535 < 65536 := by decide

theorem witness_SeedRowsAreHardwired : 0 ≤ 510 ∧ 510 ≤ 510 := by decide

theorem witness_SequenceFollowsThePrefixChain :
    decRow.Inv ∧ (511#16).toNat < decRow.next.toNat ∧ (decRow.dict.row 511).root = false ∧ (decRow.dict.row 510).root = true ∧
    decRow.next.toNat ≤ (512#16).toNat := ⟨witness_inv_decRow, by decide, by decide, by decide, by decide⟩

theorem witness_SequenceLengthIsBounded : capState.Inv ∧ (65535#16).toNat < capState.next.toNat ∧ (510#16).toNat < 511 :=
  ⟨witness_inv_cap, by decide, by decide⟩

theorem witness_LookupFindsTheMatchingRow :
    capState.next.toNat ≤ 65536 ∧ 511 ≤ State.reset.next.toNat ∧ (-255 : Int) ≤ -255 ∧ (-255 : Int) ≤ 255 ∧ (255 : Int) ≤ 255 ∧
    encFirst.Inv ∧ encFirst.state = .enc ∧ 510 < encFirst.next.toNat :=
  ⟨by decide, by decide, by decide, by decide, by decide, witness_inv_encFirst, by decide, by decide⟩

theorem witness_InsertWritesTheNextRow :
    State.reset.dict.wf = true ∧ 511 ≤ State.reset.next.toNat ∧ State.reset.next.toNat < 65536 ∧
    ({ State.reset with next := 65535 } : State).next.toNat < 65536 ∧ capState.next.toNat = 65536 := by decide

/-- PG1 after its first residual, with S = [10]. -/
def encOne : State := { encFirst with sEmpty := false, sCode := 265 }

theorem witness_ResExtendsOrEmits :
    0x101#9 ≠ 0x100#9 ∧ State.reset.lookup true 0 (int9 0x101#9) = some 0 ∧
    encRow.lookup encRow.sEmpty encRow.sCode (int9 0#9) = some 511 ∧
    encOne.lookup encOne.sEmpty encOne.sCode (int9 2#9) = none ∧ encOne.dict.wf = true ∧ 511 ≤ encOne.next.toNat ∧
    encOne.next.toNat ≤ 65536 := by decide +kernel

/-- ERROR after V76's reserved symbol. -/
def symError : State := { State.reset with state := .error, err := .sym }

theorem witness_inv_symError : symError.Inv := by
  constructor <;> simp [symError, State.reset, State.Running] <;> decide

theorem witness_ReservedSymbolFaultsAndNeverArises :
    symError.Inv ∧ ∃ t, step symError = .next t ∧ t.err = .sym := ⟨witness_inv_symError, symError, rfl, rfl⟩

theorem witness_FirstSymbolHitsItsSeed :
    State.reset.sEmpty = true ∧ 511 ≤ State.reset.next.toNat ∧ 0x101#9 ≠ 0x100#9 ∧ encRow.sEmpty = false ∧
    ∃ t, exec (.res false 0#9) encRow = .next t := ⟨by decide, by decide, by decide, by decide, _, rfl⟩

theorem witness_ByteIsDroppedOrHeld : decRow.dDrain = true ∧ decFirst.dDrain = false ∧ decFirst.hiValid = false := by decide

/-- The high byte 0x01 of a first code. -/
def decHeld : State := { decFirst with hiValid := true, hiByte := 1 }

theorem witness_inv_decHeld : decHeld.Inv := by
  constructor <;> simp [decHeld, decFirst, State.reset, State.Running] <;> first | decide | omega | skip
  constructor <;> simp

theorem witness_KnownCodeOutputsItsSequence :
    (decHeld.Inv ∧ decHeld.dDrain = false ∧ decHeld.hiValid = true ∧ (510#16).toNat = decHeld.hiByte.toNat * 256 + (254#8).toNat ∧
      (510#16).toNat < decHeld.next.toNat ∧ decHeld.seq 510 = some [255] ∧ decHeld.outCnt.toNat + 1 ≤ decHeld.count.toNat) ∧
    (decLater.Inv ∧ decLater.dDrain = false ∧ decLater.hiValid = true ∧ decLater.sEmpty = false ∧
      (510#16).toNat = decLater.hiByte.toNat * 256 + (254#8).toNat ∧ (510#16).toNat < decLater.next.toNat ∧
      decLater.seq 510 = some [255] ∧ decLater.outCnt.toNat + 1 ≤ decLater.count.toNat) ∧
    (capDec.Inv ∧ capDec.next.toNat = 65536 ∧ (0#16).toNat = capDec.hiByte.toNat * 256 + (0#8).toNat ∧
      capDec.seq 0 = some [-255] ∧ capDec.outCnt.toNat + 1 ≤ capDec.count.toNat) :=
  ⟨⟨witness_inv_decHeld, by decide +kernel⟩, ⟨witness_inv_decLater, by decide +kernel⟩, witness_inv_capDec, by decide +kernel⟩

theorem witness_SpecialCodeExtendsS :
    (decLater.Inv ∧ decLater.dDrain = false ∧ decLater.hiValid = true ∧
      (511#16).toNat = decLater.hiByte.toNat * 256 + (255#8).toNat ∧ decLater.sEmpty = false ∧
      (511#16).toNat = decLater.next.toNat ∧ decLater.seq decLater.sCode = some [0] ∧
      decLater.outCnt.toNat + 1 + 1 ≤ decLater.count.toNat) ∧
    (capDec.Inv ∧ capDec.next.toNat = 65536 ∧ capDec.err ≠ .badCode ∧ ∃ t, exec (.byte 0) capDec = .next t) :=
  ⟨⟨witness_inv_decLater, by decide +kernel⟩, witness_inv_capDec, by decide, by decide, _, rfl⟩

/-- The high byte 0x02 of a later code. -/
def decBad : State := { decLater with hiByte := 2 }

theorem witness_inv_decBad : decBad.Inv := by
  constructor <;> simp [decBad, decLater, decFirst, State.reset, State.Running] <;> first | decide | omega | skip
  constructor <;> simp

theorem witness_UndecodableCodeFaults :
    (decHeld.Inv ∧ decHeld.dDrain = false ∧ decHeld.hiValid = true ∧
      (511#16).toNat = decHeld.hiByte.toNat * 256 + (255#8).toNat ∧ decHeld.sEmpty = true) ∧
    (decBad.Inv ∧ decBad.dDrain = false ∧ decBad.hiValid = true ∧
      (512#16).toNat = decBad.hiByte.toNat * 256 + (0#8).toNat ∧ decBad.sEmpty = false ∧ decBad.next.toNat < (512#16).toNat) :=
  ⟨⟨witness_inv_decHeld, by decide⟩, witness_inv_decBad, by decide⟩

/-- V43 before its last byte. -/
def decOver : State := { decLater with cols := 2, count := 2 }

theorem witness_inv_decOver : decOver.Inv := by
  constructor <;> simp [decOver, decLater, decFirst, State.reset, State.Running] <;> first | decide | omega | skip
  constructor <;> simp

theorem witness_OverrunningCodeFaults :
    decOver.Inv ∧ decOver.dDrain = false ∧ decOver.hiValid = true ∧
    (511#16).toNat = decOver.hiByte.toNat * 256 + (255#8).toNat ∧ decOver.codeStandsFor 511 2 ∧
    decOver.count.toNat < decOver.outCnt.toNat + 2 :=
  ⟨witness_inv_decOver, by decide, by decide, by decide, .inr ⟨by decide, by decide, 1, by decide +kernel, rfl⟩, by decide⟩

/-- A dictionary no run reaches: row 511 is its own prefix. -/
def selfPrefix : State := { decHeld with next := 512, sEmpty := false, sCode := 511, dict := [(511, ⟨false, 511, 0⟩)] }

theorem witness_UndefinedSequenceStops :
    selfPrefix.dDrain = false ∧ selfPrefix.hiValid = true ∧ (511#16).toNat = selfPrefix.hiByte.toNat * 256 + (255#8).toNat ∧
    (511#16).toNat < selfPrefix.next.toNat ∧ selfPrefix.seq 511 = none ∧
    (512#16).toNat = ({ selfPrefix with hiByte := 2 } : State).hiByte.toNat * 256 + (0#8).toNat ∧
    selfPrefix.sEmpty = false ∧ (512#16).toNat = selfPrefix.next.toNat ∧ selfPrefix.seq selfPrefix.sCode = none := by
  decide +kernel

theorem witness_EosEndsTheStream :
    decRow.dDrain = true ∧ decRow.row ≠ decRow.rows ∧ decEnd.dDrain = true ∧ decEnd.row = decEnd.rows ∧
    decLater.dDrain = false ∧ (decLater.Inv ∧ decLater.hiValid = true) ∧
    decFirst.Inv ∧ decFirst.state = .dec ∧ decFirst.outCnt = 0 :=
  ⟨by decide, by decide, by decide, by decide, by decide, ⟨witness_inv_decLater, by decide⟩, witness_inv_decFirst,
    by decide, by decide⟩

theorem witness_ShortStreamFaults : decLater.Inv ∧ decLater.state = .dec ∧ decLater.outCnt.toNat < decLater.count.toNat :=
  ⟨witness_inv_decLater, by decide, by decide⟩

theorem witness_ResdPushesTheSample : lastChannel.left.wf = true ∧ lastChannel.ch.toNat < 65535 := by decide

theorem witness_ReconstructorIsAnEightBitAdder : lastChannel.ch.toNat < 65535 := by decide

theorem witness_ReconstructionInvertsPrediction :
    ∀ u : State, u = { encMid with state := .dec, resE := [] } →
      encMid.left.wf = true ∧ u.left.wf = true ∧ encMid.ch.toNat < encMid.chans.toNat ∧
      u.rows = encMid.rows ∧ u.cols = encMid.cols ∧ u.chans = encMid.chans ∧
      u.row = encMid.row ∧ u.col = encMid.col ∧ u.ch = encMid.ch ∧ encMid.col ≠ 0 ∧ u.left = encMid.left := by
  rintro u rfl
  decide

theorem witness_AnyEnabledAgentMayStepNext :
    Agent.pred.enabled encMid = true ∧ Agent.enc.enabled encMid = true := by decide

theorem witness_StepRunsTheDecodedTransaction :
    ((withCmd 0x10000002#32 State.reset).chosen = some .ctrl ∧
      (withCmd 0x10000002#32 State.reset).fetch .ctrl = some (.cmd 0x10000002#32, { State.reset with sched := [.ctrl] }) ∧
      decode (.cmd 0x10000002#32) = .ok (.wrRows 2)) ∧
    encMid.pixIn = [12] ∧ encMid.resE = [0x00A] ∧ decEnd.codeIn = [0x100] ∧ decLater.resD = [0] := by decide

theorem witness_FetchWordIsTheNextTransaction :
    tableItem 32 0x10000002 = some (.cmd 0x10000002#32) ∧ decode (.cmd 0x10000002#32) = .ok (.wrRows 2) := by decide

/-- V45 with the low byte of its second code waiting, and the first residual too. -/
def decBoth : State := { decLater with codeIn := [0x0FF], sched := [.dec] }

theorem witness_inv_decBoth : decBoth.Inv := by
  constructor <;> simp [decBoth, decLater, decFirst, State.reset, State.Running] <;> first | decide | omega | skip
  constructor <;> simp

theorem witness_UnitsWriteOnlyWhatTheyOwn :
    (Agent.pred.enabled encMid = true ∧ ∃ t, agentStep .pred encMid = .next t) ∧
    (Agent.enc.enabled encMid = true ∧ ∃ t, agentStep .enc encMid = .next t) ∧
    (Agent.dec.enabled decBoth = true ∧ ∃ t, agentStep .dec decBoth = .next t) ∧
    (Agent.recon.enabled decBoth = true ∧ ∃ t, agentStep .recon decBoth = .next t) :=
  ⟨⟨by decide, _, rfl⟩, ⟨by decide, _, rfl⟩, ⟨by decide, _, rfl⟩, by decide, _, rfl⟩

/-- The control unit steps on the word. -/
def CtrlSteps (w : CmdWord) (s : State) : Prop :=
  Agent.ctrl.enabled (withCmd w s) = true ∧ (∃ u, (withCmd w s).fetch .ctrl = some (.cmd w, u)) ∧
  ∃ t, agentStep .ctrl (withCmd w s) = .next t

theorem witness_StateChanges_ctrl :
    CtrlSteps 0x50000000#32 errState ∧ CtrlSteps 0x00000000#32 errState ∧ CtrlSteps 0x60000000#32 State.reset ∧
    CtrlSteps 0x10000003#32 encFirst ∧ CtrlSteps 0x24000000#32 encFirst ∧ CtrlSteps 0x30000000#32 largest :=
  ⟨⟨by decide, ⟨_, rfl⟩, _, rfl⟩, ⟨by decide, ⟨_, rfl⟩, _, rfl⟩, ⟨by decide, ⟨_, rfl⟩, _, rfl⟩, ⟨by decide, ⟨_, rfl⟩, _, rfl⟩,
    ⟨by decide, ⟨_, rfl⟩, _, rfl⟩, by decide, ⟨_, rfl⟩, _, rfl⟩

theorem witness_StateChanges_enc :
    ∀ w ∈ [0x100#10, 0x24D#10, 0x001#10], ∃ u t, Agent.enc.enabled { encFirst with resE := [w] } = true ∧
      State.fetch { encFirst with resE := [w] } .enc = some (.resE w, u) ∧
      agentStep .enc { encFirst with resE := [w] } = .next t := by
  intro w hw
  fin_cases hw <;> exact ⟨_, _, by decide, rfl, rfl⟩

theorem witness_StateChanges_dec :
    (decBoth.Inv ∧ Agent.dec.enabled decBoth = true ∧ ∃ u, decBoth.fetch .dec = some (.codeIn 0x0FF#9, u)) ∧
    (decEnd.Inv ∧ Agent.dec.enabled decEnd = true ∧ (∃ u, decEnd.fetch .dec = some (.codeIn 0x100#9, u)) ∧
      ∃ t, agentStep .dec decEnd = .next t) ∧
    (511#16).toNat = decBoth.hiByte.toNat * 256 + (0x0FF#9).toNat % 256 ∧ decBoth.dDrain = false ∧ decBoth.hiValid = true :=
  ⟨⟨witness_inv_decBoth, by decide, _, rfl⟩, ⟨witness_inv_decEnd, by decide, ⟨_, rfl⟩, _, rfl⟩, by decide⟩

theorem witness_FaultEntryWritesStateAndErrOnly :
    (∃ t, agentStep .ctrl (withCmd 0x60000000#32 State.reset) = .next t ∧ t.state = .error) ∧
    (∃ t, agentStep .enc { encFirst with resE := [0x100] } = .next t ∧ t.state = .error) ∧
    (∃ t, agentStep .dec { decLater with codeIn := [0x100] } = .next t ∧ t.state = .error) ∧
    Agent.ctrl.enabled (withCmd 0x60000000#32 State.reset) = true ∧ Agent.enc.enabled { encFirst with resE := [0x100] } = true ∧
    Agent.dec.enabled { decLater with codeIn := [0x100] } = true ∧
    Agent.ctrl.enabled (withCmd 0x10000002#32 errState) = true ∧ errState.state = .error ∧
    (∃ t, agentStep .ctrl (withCmd 0x10000002#32 errState) = .next t ∧ t.state = .error) :=
  ⟨⟨_, rfl, rfl⟩, ⟨_, rfl, rfl⟩, ⟨_, rfl, rfl⟩, by decide, by decide, by decide, by decide, rfl, _, rfl, rfl⟩

theorem witness_ErrorStateIsSticky :
    errState.state = .error ∧ (∃ t, step (withCmd 0x50000000#32 errState) = .next t) ∧
    ∃ t, step (withCmd 0x10000002#32 errState) = .next t := ⟨rfl, ⟨_, rfl⟩, _, rfl⟩

theorem witness_DimensionsAndJobHaveOneWriter :
    (∃ t, step (withCmd 0x10000002#32 State.reset) = .next t ∧ t.rows ≠ State.reset.rows) ∧
    (∃ t, step (withCmd 0x11000002#32 State.reset) = .next t ∧ t.cols ≠ State.reset.cols) ∧
    (∃ t, step (withCmd 0x12000002#32 State.reset) = .next t ∧ t.chans ≠ State.reset.chans) ∧
    (∃ t, step (withCmd 0x40000000#32 largest) = .next t ∧ t.job ≠ largest.job) :=
  ⟨⟨_, rfl, by decide⟩, ⟨_, rfl, by decide⟩, ⟨_, rfl, by decide⟩, _, rfl, by decide⟩

theorem witness_ValidRowsAreNeverRewritten : decBoth.Inv ∧ ∃ t, step decBoth = .next t ∧ t.next.toNat = decBoth.next.toNat + 1 :=
  ⟨witness_inv_decBoth, _, rfl, by decide +kernel⟩

theorem witness_EveryStepKeepsTheInvariant : decBoth.Inv ∧ ∃ t, step decBoth = .next t := ⟨witness_inv_decBoth, _, rfl⟩

theorem witness_HostMovesKeepTheInvariant :
    decBoth.Inv ∧ encMid.Inv ∧ errState.state ≠ .enc ∧ errState.state ≠ .dec ∧ encMid.state = .enc ∧ decBoth.state = .dec :=
  ⟨witness_inv_decBoth, witness_inv_encMid, by decide⟩

theorem witness_NoStepStopsTheMachine : decBoth.Inv ∧ capState.Inv := ⟨witness_inv_decBoth, witness_inv_cap⟩

theorem witness_CompletedJobIsQuiet :
    (encEnd.Inv ∧ ∃ t, step encEnd = .next t ∧ t.state = .done ∧ encEnd.state ≠ .done) ∧
    (decEnd.Inv ∧ ∃ t, step decEnd = .next t ∧ t.state = .done ∧ decEnd.state = .dec) :=
  ⟨⟨witness_inv_encEnd, _, rfl, by decide, by decide⟩, witness_inv_decEnd, _, rfl, by decide, by decide⟩

theorem witness_UnitsCommute :
    (encMid.Inv ∧ Agent.pred.enabled encMid = true ∧ Agent.enc.enabled encMid = true ∧
      (∃ a, agentStep .pred encMid = .next a) ∧ ∃ b, agentStep .enc encMid = .next b) ∧
    (decBoth.Inv ∧ Agent.dec.enabled decBoth = true ∧ Agent.recon.enabled decBoth = true ∧
      (∃ a, agentStep .dec decBoth = .next a ∧ a.state ≠ .error) ∧ ∃ b, agentStep .recon decBoth = .next b) :=
  ⟨⟨witness_inv_encMid, by decide, by decide, ⟨_, rfl⟩, _, rfl⟩,
    witness_inv_decBoth, by decide, by decide, ⟨_, rfl, by decide⟩, _, rfl⟩

/-- An encode job that starts with what an earlier job left in LEFT. -/
def encStale : State := { encFirst with left := [(0, 77)] }

theorem witness_inv_encStale : encStale.Inv := by
  constructor <;> simp [encStale, encFirst, State.reset, State.Running] <;> first | decide | omega | skip
  constructor <;> simp

theorem witness_DeadMemoryHasNoEffect : encFirst.Inv ∧ encStale.Inv ∧ LiveEq encFirst encStale := by
  refine ⟨witness_inv_encFirst, witness_inv_encStale, rfl, fun _ _ => rfl, ?_⟩
  rintro k ⟨-, -, h | h⟩ <;> simp [encFirst, State.reset] at h

theorem witness_legal_encOne : encOne.DictLegal :=
  ⟨by decide, by decide, fun _ h _ => unwritten_grounded h, fun _ h _ => unwritten_symbol h, by decide⟩

theorem witness_legal_encRow : encRow.DictLegal :=
  ⟨by decide, by decide,
    fun c h1 h2 => by rw [show encRow.dict = decRow.dict from rfl, decRow_row h1 h2]; exact ⟨rfl, Nat.lt_of_lt_of_le (by decide) h1⟩,
    fun c h1 h2 => by rw [show encRow.dict = decRow.dict from rfl, decRow_row h1 h2]; decide, by decide⟩

/-- The decoder after the encoder's first code 255. -/
def decStep : State := { decFirst with sEmpty := false, sCode := 255, outCnt := 1 }

theorem witness_legal_decStep : decStep.DictLegal :=
  ⟨by decide, by decide, fun _ h _ => unwritten_grounded h, fun _ h _ => unwritten_symbol h, by decide⟩

theorem witness_step_first : InStep encOne decFirst :=
  ⟨by decide, by decide, by decide, fun _ _ => rfl, by simp [decFirst, State.reset]⟩

theorem witness_step_later : InStep encRow decStep :=
  ⟨by decide, by decide, by decide, fun c h => by
    rw [Dict.row_seed _ (show c < 511 from h), Dict.row_seed _ (show c < 511 from h)], fun _ _ => ⟨0, by decide +kernel, rfl⟩⟩

theorem witness_DecoderStaysInStep :
    (encOne.DictLegal ∧ decFirst.DictLegal ∧ InStep encOne decFirst ∧ encOne.sEmpty = false ∧ decFirst.dDrain = false ∧
      decFirst.hiValid = false ∧ encOne.seq encOne.sCode = some [10] ∧ decFirst.outCnt.toNat + 1 ≤ decFirst.count.toNat ∧
      encOne.lookup false encOne.sCode (int9 2#9) = none ∧ ∃ t, exec (.res false 2#9) encOne = .next t) ∧
    (encRow.DictLegal ∧ decStep.DictLegal ∧ InStep encRow decStep ∧ encRow.sEmpty = false ∧ decStep.dDrain = false ∧
      decStep.hiValid = false ∧ encRow.seq encRow.sCode = some [0] ∧ decStep.outCnt.toNat + 1 ≤ decStep.count.toNat ∧
      encRow.lookup false encRow.sCode (int9 0#9) ≠ none ∧ ∃ t, exec (.res false 0#9) encRow = .next t) :=
  ⟨⟨witness_legal_encOne, witness_inv_decFirst.dictLegal, witness_step_first, by decide, by decide, by decide, by decide +kernel,
      by decide, by decide +kernel, _, rfl⟩,
    witness_legal_encRow, witness_legal_decStep, witness_step_later, by decide, by decide, by decide, by decide +kernel, by decide,
      by decide +kernel, _, rfl⟩

theorem witness_DecoderInvertsEncoder :
    State.reset.sEmpty = true ∧ State.reset.next = 511 ∧ State.reset.dict.wf = true ∧ State.reset.hiValid = false ∧
    State.reset.dDrain = false ∧ State.reset.outCnt = 0 ∧ ({ State.reset with count := 1 } : State).count.toNat = 0 + 1 ∧
    ∀ q ∈ ([] : List Sym) ++ [0x0FF#9], q ≠ 0x100#9 := by decide

/-- The smallest image. -/
def smallest : State := { State.reset with rows := 1, cols := 1 }

theorem witness_inv_smallest : smallest.Inv := by
  constructor <;> simp [smallest, State.reset, State.Running] <;> decide

theorem witness_RoundTripGivesTheImageBack :
    smallest.Inv ∧ smallest.state = .idle ∧ smallest.rows ≠ 0 ∧ smallest.cols ≠ 0 ∧ smallest.chans ≠ 0 ∧
    [77#8].length = smallest.rows.toNat * smallest.cols.toNat * smallest.chans.toNat :=
  ⟨witness_inv_smallest, by decide⟩

/-- A host that pushes a NOP before every step. -/
def pollRun (n : Nat) : State := { State.reset with cmd := if n % 2 = 0 then [0] else [0, 0], pick := n / 2 }

theorem pollRun_even {n : Nat} (h : n % 2 = 0) : pollRun (n + 1) = (pollRun n).hostMove (.pushCmd 0) := by
  unfold pollRun
  rw [if_neg (show ¬ (n + 1) % 2 = 0 by omega), if_pos h, show (n + 1) / 2 = n / 2 by omega]
  rfl

theorem pollRun_odd {n : Nat} (h : n % 2 = 1) : step (pollRun n) = .next (pollRun (n + 1)) := by
  unfold pollRun
  rw [if_pos (show (n + 1) % 2 = 0 by omega), if_neg (show ¬ n % 2 = 0 by omega), show (n + 1) / 2 = n / 2 + 1 by omega]
  rfl

theorem witness_EnabledAgentEventuallySteps :
    Run (fun _ => True) pollRun ∧ ∀ m, 0 ≤ m → Agent.ctrl.enabled (pollRun m) = true := by
  refine ⟨⟨fun n => ?_, fun n => ?_⟩, fun m _ => ?_⟩
  · rcases Nat.mod_two_eq_zero_or_one n with h | h
    · exact .inr ⟨_, trivial, pollRun_even h⟩
    · exact .inl (pollRun_odd h)
  · exact ⟨2 * n + 1, by omega, pollRun_odd (by omega)⟩
  · show (!(if m % 2 = 0 then [(0 : CmdWord)] else [0, 0]).isEmpty) = true
    split <;> rfl

/-- A run that takes one step and then waits. -/
def oneStepRun (s t : State) (n : Nat) : State := if n = 0 then s else t

theorem oneStepRun_run {s t : State} (h1 : step s = .next t) (h2 : step t = .next t) :
    Run HostMove.StaysWithJob (oneStepRun s t) := by
  have hstep : ∀ n, step (oneStepRun s t n) = .next (oneStepRun s t (n + 1)) := by
    intro n
    cases n with
    | zero => exact h1
    | succ n => exact h2
  exact ⟨fun n => .inl (hstep n), fun n => ⟨n, Nat.le_refl n, hstep n⟩⟩

/-- The states in which these runs wait. -/
def encLast : State := { encEnd with left := [(0, 1)], resE := [0x301] }
def encOver : State := { encLast with resE := [], sEmpty := false, codeOut := [0x000, 0x100], state := .done, pick := 1 }
def decEndOver : State := { decEnd with codeIn := [], dFin := true, state := .done, pick := 1 }
def waitOver : State := { decWait with row := 1, left := [(0, 254)], resD := [], pixOut := [0x1FE], state := .done, pick := 1 }

theorem witness_inv_encLast : encLast.Inv := by
  constructor <;> simp [encLast, encEnd, State.reset, State.Running] <;> first | decide | omega | skip
  · exact ⟨by simp, by simp, by simp, by simp⟩
  · exact ⟨[], 0x301#10, rfl, by decide, by simp⟩

theorem encLast_step : step encLast = .next encOver ∧ step encOver = .next encOver := ⟨rfl, rfl⟩
theorem decEnd_step : step decEnd = .next decEndOver ∧ step decEndOver = .next decEndOver := ⟨rfl, rfl⟩
theorem decWait_step : step decWait = .next waitOver ∧ step waitOver = .next waitOver := ⟨rfl, rfl⟩

theorem witness_SuppliedJobEnds_enc :
    Run HostMove.StaysWithJob (oneStepRun encLast encOver) ∧ (oneStepRun encLast encOver 0).Inv ∧ encLast.cmd = [] ∧
    encLast.state = .enc ∧ encLast.count.toNat ≤ encLast.position + encLast.pixIn.length :=
  ⟨oneStepRun_run encLast_step.1 encLast_step.2, witness_inv_encLast, rfl, rfl, by decide⟩

theorem witness_SuppliedJobEnds_dec :
    (Run HostMove.StaysWithJob (oneStepRun decEnd decEndOver) ∧ (oneStepRun decEnd decEndOver 0).Inv ∧ decEnd.cmd = [] ∧
      decEnd.state = .dec ∧ decEnd.dFin = false ∧ ∃ w ∈ decEnd.codeIn, w.getLsbD 8 = true) ∧
    (Run HostMove.StaysWithJob (oneStepRun decWait waitOver) ∧ (oneStepRun decWait waitOver 0).Inv ∧ decWait.cmd = [] ∧
      decWait.state = .dec ∧ decWait.dFin = true ∧ decWait.row.toNat < decWait.rows.toNat) :=
  ⟨⟨oneStepRun_run decEnd_step.1 decEnd_step.2, witness_inv_decEnd, rfl, rfl, rfl, by decide⟩,
    oneStepRun_run decWait_step.1 decWait_step.2, witness_inv_decWait, rfl, rfl, rfl, by decide⟩

end Sys2Proof.Tests
end

section
/-! PROOFS of the family 00_scope.md: the choice of the agent that steps (R11, R75), and what its step is (R10, R11, R90). -/

namespace Sys2Proof.Machine

/-! ### The step of the chosen agent -/

theorem step_of_chosen {s : State} {a : Agent} (h : s.chosen = some a) : step s = agentStep a s := by
  simp only [step, h]

theorem step_of_chosen_none {s : State} (h : s.chosen = none) : step s = .next s := by
  simp only [step, h]

theorem agentStep_of_fetch {s u : State} {a : Agent} {item : Item} (h : s.fetch a = some (item, u)) :
    agentStep a s = performItem item u.nextPick := by
  simp only [agentStep, h]

theorem performItem_of_decode {item : Item} {i : Instr} (h : decode item = .ok i) (s : State) :
    performItem item s = exec i s := by
  simp only [performItem, h]

/-- The schedule chooses among the enabled agents; it enables none (R11, log 1). -/
@[simp] theorem enabled_with_sched (a : Agent) (s : State) (l : List Agent) :
    a.enabled { s with sched := l } = a.enabled s := by
  cases a <;> rfl

/-- A pop leaves the model's own two fields alone, so they move on from where they stood before it. -/
theorem nextPick_of_fetch {s u : State} {a : Agent} {item : Item} (h : s.fetch a = some (item, u)) :
    u.nextPick = { u with sched := s.sched.tail, pick := s.pick + 1 } := by
  obtain ⟨hsched, hpick⟩ := fetch_pick h
  rw [State.nextPick, hsched, hpick]

/-! ### The item of each channel -/

theorem fetch_ctrl_cons {s : State} {w : CmdWord} {rest : List CmdWord} (h : s.cmd = w :: rest) :
    s.fetch .ctrl = some (.cmd w, { s with cmd := rest }) := by
  simp only [State.fetch, h]

theorem fetch_pred_cons {s : State} {w : Byte} {rest : List Byte} (h : s.pixIn = w :: rest) :
    s.fetch .pred = some (.pixIn w, { s with pixIn := rest }) := by
  simp only [State.fetch, h]

theorem fetch_enc_cons {s : State} {w : FlagSym} {rest : List FlagSym} (h : s.resE = w :: rest) :
    s.fetch .enc = some (.resE w, { s with resE := rest }) := by
  simp only [State.fetch, h]

theorem fetch_dec_cons {s : State} {w : FlagByte} {rest : List FlagByte} (h : s.codeIn = w :: rest) :
    s.fetch .dec = some (.codeIn w, { s with codeIn := rest }) := by
  simp only [State.fetch, h]

theorem fetch_recon_cons {s : State} {w : Sym} {rest : List Sym} (h : s.resD = w :: rest) :
    s.fetch .recon = some (.resD w, { s with resD := rest }) := by
  simp only [State.fetch, h]

/-! ### The statements -/

/-- Settles O39: an enabled agent at the head of the schedule is the chosen one, and a chosen agent is an enabled one. -/
theorem anyEnabledAgentMayStepNext : Obligations.AnyEnabledAgentMayStepNext := by
  refine ⟨fun s a l ha => ?_, fun s => ?_⟩
  · have hen : a.enabled { s with sched := a :: l } = true := by simpa using ha
    exact step_of_chosen (chosen_of_sched rfl hen)
  · cases hc : s.chosen with
    | none => exact .inr ⟨chosen_none.mp hc, step_of_chosen_none hc⟩
    | some a => exact .inl ⟨a, chosen_enabled hc, step_of_chosen hc⟩

/-- Settles O40: from the choice to the pop, to the decoded transaction, to `exec`; then the pop of each channel. -/
theorem stepRunsTheDecodedTransaction : Obligations.StepRunsTheDecodedTransaction := by
  refine ⟨fun s a item u i hc hf hd => ?_, fun _ _ _ => fetch_ctrl_cons, fun _ _ _ => fetch_pred_cons,
    fun _ _ _ => fetch_enc_cons, fun _ _ _ => fetch_dec_cons, fun _ _ _ => fetch_recon_cons⟩
  calc step s = agentStep a s := step_of_chosen hc
    _ = performItem item u.nextPick := agentStep_of_fetch hf
    _ = exec i u.nextPick := performItem_of_decode hd _
    _ = exec i { u with sched := s.sched.tail, pick := s.pick + 1 } := by rw [nextPick_of_fetch hf]

end Sys2Proof.Machine
end

section
/-! PROOFS of the family 10_state.md, part 1: the composed registers (R27, R28) and the walk over the raster (R12, R30, R31). -/

namespace Sys2Proof.Machine

/-! ### STATUS and DNEXT -/

theorem full_iff {s : State} : s.full = true ↔ s.next.toNat = 65536 := decide_eq_true_iff

/-- R27: FULL is bit 8 of STATUS. -/
theorem status_bit_full (s : State) : s.status.getLsbD 8 = s.full := by
  simp only [State.status, BitVec.getLsbD_append]
  simp

/-- R28: DNEXT drops bit 16 of NEXT. -/
theorem dnext_toNat (s : State) : s.dnext.toNat = s.next.toNat % 65536 := by
  simp [State.dnext, BitVec.extractLsb'_toNat]

/-- Settles O9: in the range 511..65536 of NEXT the one multiple of 65536 is the cap. -/
theorem dnextIsZeroExactlyAtTheCap : Obligations.DnextIsZeroExactlyAtTheCap := by
  intro s hs
  have hrange := hs.nextRange
  refine ⟨?_, by rw [status_bit_full, full_iff]⟩
  rw [← BitVec.toNat_inj, dnext_toNat, BitVec.toNat_ofNat]
  omega

/-! ### The walk -/

/-- A legal walker is before the end exactly when its position is below the number of positions. -/
theorem row_lt_iff_position_lt {s : State} (hw : s.WalkerLegal) :
    s.row.toNat < s.rows.toNat ↔ s.position < s.rows.toNat * s.cols.toNat * s.chans.toNat := by
  refine ⟨position_lt hw, fun hpos => Nat.lt_of_le_of_ne hw.rowLe fun hend => ?_⟩
  exact Nat.ne_of_lt hpos (position_end hw (BitVec.eq_of_toNat_eq hend))

/-- A legal walker whose position is the number of positions stands at (ROWS, 0, 0). -/
theorem walk_end_of_position {s : State} (hw : s.WalkerLegal)
    (hpos : s.position = s.rows.toNat * s.cols.toNat * s.chans.toNat) : s.row = s.rows ∧ s.col = 0 ∧ s.ch = 0 := by
  have hrow : s.row = s.rows := by
    have hle := hw.rowLe
    have hnot := (row_lt_iff_position_lt hw).not.mpr (by omega)
    exact BitVec.eq_of_toNat_eq (by omega)
  exact ⟨hrow, hw.atEnd hrow⟩

/-- With no dimension zero, (0, 0, 0) is a legal walker. -/
theorem walkerLegal_at_origin {s : State} (hrows : s.rows ≠ 0) (hcols : s.cols ≠ 0) (hchans : s.chans ≠ 0) (hrow : s.row = 0)
    (hcol : s.col = 0) (hch : s.ch = 0) : s.WalkerLegal := by
  refine ⟨?_, ?_, ?_, fun hend => absurd (hend.symm.trans hrow) hrows⟩
  · rw [hrow]; exact Nat.zero_le _
  · rw [hcol]; exact BitVec.toNat_pos_of_ne_zero hcols
  · rw [hch]; exact BitVec.toNat_pos_of_ne_zero hchans

theorem position_at_origin {s : State} (hrow : s.row = 0) (hcol : s.col = 0) (hch : s.ch = 0) : s.position = 0 := by
  simp [State.position, hrow, hcol, hch]

/-- Up to the end of the raster, n calls of `advance()` go n positions on, on a legal walker of the same dimensions. -/
theorem iterate_advance {s : State} (hw : s.WalkerLegal) (n : Nat)
    (hn : s.position + n ≤ s.rows.toNat * s.cols.toNat * s.chans.toNat) :
    (State.advance^[n] s).WalkerLegal ∧ (State.advance^[n] s).position = s.position + n ∧
    (State.advance^[n] s).rows = s.rows ∧ (State.advance^[n] s).cols = s.cols ∧ (State.advance^[n] s).chans = s.chans := by
  induction n with
  | zero => exact ⟨hw, rfl, rfl, rfl, rfl⟩
  | succ n ih =>
    obtain ⟨hlegal, hpos, hrows, hcols, hchans⟩ := ih (by omega)
    have hlt : (State.advance^[n] s).row.toNat < (State.advance^[n] s).rows.toNat := by
      rw [row_lt_iff_position_lt hlegal, hrows, hcols, hchans]
      omega
    rw [Function.iterate_succ_apply']
    exact ⟨advance_legal hlegal hlt, by rw [advance_position hlegal hlt, hpos, Nat.add_assoc], hrows, hcols, hchans⟩

/-- Settles O16. -/
theorem advanceVisitsTheNextPosition : Obligations.AdvanceVisitsTheNextPosition :=
  fun _ hw hr => ⟨advance_legal hw hr, advance_position hw hr, atLast_iff_position hw hr⟩

/-- Settles O17: n calls from the origin stand at position n, which is below COUNT exactly while ROW < ROWS. -/
theorem walkEndsAfterCountCalls : Obligations.WalkEndsAfterCountCalls := by
  intro s hrows hcols hchans hrow hcol hch
  have hpos := position_at_origin hrow hcol hch
  have walk := iterate_advance (walkerLegal_at_origin hrows hcols hchans hrow hcol hch)
  refine ⟨fun n hn => ?_, ?_⟩
  · obtain ⟨hw, hp, er, ec, ek⟩ := walk n (by omega)
    rw [← er, row_lt_iff_position_lt hw, er, ec, ek]
    omega
  · obtain ⟨hw, hp, er, ec, ek⟩ := walk _ (by rw [hpos, Nat.zero_add])
    have hend := walk_end_of_position hw (by rw [hp, hpos, Nat.zero_add, er, ec, ek])
    exact ⟨hend.1.trans er, hend.2⟩

end Sys2Proof.Machine
end

section
/-! PROOFS of the family 10_state.md, part 2: what a data transaction can do to the state it is performed in, said once (41_predictor.md R141, 42_encoder.md R154, 43_decoder.md R166, R176, 44_reconstructor.md R186), and what this leaves unchanged. -/

namespace Sys2Proof.Machine

/-! ### Inversion of the data transactions -/

theorem execPix_cases {v t : State} {x : Byte} (h : execPix x v = .next t) :
    t = ({ v with
      left := v.left.write v.ch.toNat x
      resE := v.resE ++ [flagSym v.atLast (sym9 (v.residual x))] } : State).advance := by
  unfold execPix at h
  split at h
  · injection h with h
    exact h.symm
  · cases h

theorem execResd_cases {v t : State} {p : Sym} (h : execResd p v = .next t) :
    t = ({ v with
      left := v.left.write v.ch.toNat (v.sample (int9 p))
      pixOut := v.pixOut ++ [flagByte v.atLast (v.sample (int9 p))] } : State).advance.finishDecode := by
  unfold execResd at h
  split at h
  · injection h with h
    exact h.symm
  · cases h

theorem execRes_cases {v t : State} {l : Bool} {p : Sym} (h : execRes l p v = .next t) :
    (isSymbol p = false ∧ t = v.raise .sym) ∨
    (isSymbol p = true ∧ t = (v.matchSymbol (int9 p)).finishEncode l) := by
  unfold execRes at h
  split at h <;> rename_i hp <;> injection h with h
  · exact .inl ⟨by rw [hp]; rfl, h.symm⟩
  · exact .inr ⟨decide_eq_true hp, h.symm⟩

/-- R176, R131: an EOS after the last residual is consumed; then comes the check for the end of the job that REC makes too. -/
theorem execEos_drained {v : State} (h : v.dDrain = true) : execEos v = .next ({ v with dFin := true } : State).finishDecode := by
  have hcheck : (({ v with dFin := true } : State).walkDone && true) = v.walkDone := Bool.and_true _
  rw [execEos, if_pos h, State.finishDecode, hcheck]

theorem execEos_early {v : State} (h : v.dDrain = false) : execEos v = .next (v.raise .short) := by
  rw [execEos, if_neg (by rw [h]; exact Bool.false_ne_true)]

/-- A CODE_IN item: a byte dropped, a byte held, a code completed; or an EOS that ends the stream or comes too early. -/
theorem performItem_codeIn_cases {v t : State} {w : FlagByte} (h : performItem (.codeIn w) v = .next t) :
    t = v ∨
    (v.dDrain = false ∧ ∃ n, t = { v with hiByte := n, hiValid := true }) ∨
    (v.dDrain = false ∧ ∃ k, v.processCode k = .next t) ∨
    (v.dDrain = true ∧ t = ({ v with dFin := true } : State).finishDecode) ∨
    t = v.raise .short := by
  cases hw : w.getLsbD 8 with
  | false =>
    rw [performItem_of_decode (decode_codeIn_byte hw)] at h
    simp only [exec, execByte] at h
    split at h
    · injection h with h
      exact .inl h.symm
    · rename_i hd
      rw [Bool.not_eq_true] at hd
      split at h
      · exact .inr (.inr (.inl ⟨hd, _, h⟩))
      · injection h with h
        exact .inr (.inl ⟨hd, _, h.symm⟩)
  | true =>
    rw [performItem_of_decode (decode_codeIn_eos hw)] at h
    simp only [exec] at h
    by_cases hd : v.dDrain = true
    · rw [execEos_drained hd] at h
      injection h with h
      exact .inr (.inr (.inr (.inl ⟨hd, h.symm⟩)))
    · rw [execEos_early (Bool.eq_false_iff.mpr hd)] at h
      injection h with h
      exact .inr (.inr (.inr (.inr h.symm)))

/-! ### ROWS, COLS, CHANS and JOB -/

/-- The two states agree in ROWS, COLS, CHANS and JOB. -/
structure SameJobSetup (s t : State) : Prop where
  rows : t.rows = s.rows
  cols : t.cols = s.cols
  chans : t.chans = s.chans
  job : t.job = s.job

/-- R23, R26: no unit but CTRL writes a dimension or JOB. -/
theorem agentStep_sameJobSetup {s t : State} {a : Agent} (ha : a ≠ .ctrl) (he : a.enabled s = true)
    (h : agentStep a s = .next t) : SameJobSetup s t := by
  cases a with
  | ctrl => exact absurd rfl ha
  | pred =>
    obtain ⟨-, -, w, rest, -, -, h⟩ := agentStep_pred he h
    rw [execPix_cases h]
    exact ⟨rfl, rfl, rfl, rfl⟩
  | enc =>
    obtain ⟨-, w, rest, -, -, h⟩ := agentStep_enc he h
    rcases execRes_cases h with ⟨-, rfl⟩ | ⟨-, rfl⟩
    · exact ⟨rfl, rfl, rfl, rfl⟩
    · obtain ⟨_, _, _, _, _, hm⟩ := State.matchSymbol_writes ({ s with resE := rest } : State).nextPick (int9 (w.extractLsb' 0 9))
      rw [hm]
      exact ⟨rfl, rfl, rfl, rfl⟩
  | dec =>
    obtain ⟨-, -, w, rest, -, -, h⟩ := agentStep_dec he h
    rcases performItem_codeIn_cases h with rfl | ⟨-, n, rfl⟩ | ⟨-, k, h⟩ | ⟨-, rfl⟩ | rfl
    case inr.inr.inl =>
      obtain ⟨_, _, _, _, _, _, _, _, _, _, rfl⟩ := processCode_writes h
      exact ⟨rfl, rfl, rfl, rfl⟩
    all_goals exact ⟨rfl, rfl, rfl, rfl⟩
  | recon =>
    obtain ⟨-, -, w, rest, -, -, h⟩ := agentStep_recon he h
    rw [execResd_cases h]
    exact ⟨rfl, rfl, rfl, rfl⟩

/-- R11: a step changes nothing, or it is the step of an enabled agent. -/
theorem step_agent {s t : State} (h : step s = .next t) : t = s ∨ ∃ a : Agent, a.enabled s = true ∧ agentStep a s = .next t := by
  rcases anyEnabledAgentMayStepNext.2 s with ⟨a, he, hstep⟩ | ⟨-, hstep⟩ <;> rw [hstep] at h
  · exact .inr ⟨a, he, h⟩
  · injection h with h
    exact .inl h.symm

/-- R11, R90: a step changes nothing, performs the head of CMD, or is the step of an enabled unit other than CTRL. -/
theorem step_ctrl_or_unit {s t : State} (h : step s = .next t) :
    t = s ∨
    (∃ w rest, s.cmd = w :: rest ∧ performItem (.cmd w) ({ s with cmd := rest } : State).nextPick = .next t) ∨
    ∃ a : Agent, a ≠ .ctrl ∧ a.enabled s = true ∧ agentStep a s = .next t := by
  rcases step_agent h with h | ⟨a, he, h⟩
  · exact .inl h
  · by_cases ha : a = .ctrl
    · subst ha
      obtain ⟨w, rest, hq, -, hp⟩ := agentStep_ctrl he h
      exact .inr (.inl ⟨w, rest, hq, hp⟩)
    · exact .inr (.inr ⟨a, ha, he, h⟩)

theorem idle_or_done_of_not_busy {s : State} (he : s.state ≠ .error) (hb : s.busy = false) : s.state = .idle ∨ s.state = .done := by
  unfold State.busy at hb
  rw [decide_eq_false_iff_not] at hb
  cases hs : s.state <;> simp_all

/-- R122, R125, R129: a command that writes a dimension or JOB is the WR of that register, or an accepted START. -/
theorem performItem_cmd_setup {v t : State} {w : CmdWord} (h : performItem (.cmd w) v = .next t) :
    SameJobSetup v t ∨ ((v.state = .idle ∨ v.state = .done) ∧
      (decode (.cmd w) = .ok (.wrRows t.rows) ∧ SameJobSetup { v with rows := t.rows } t ∨
       decode (.cmd w) = .ok (.wrCols t.cols) ∧ SameJobSetup { v with cols := t.cols } t ∨
       decode (.cmd w) = .ok (.wrChans t.chans) ∧ SameJobSetup { v with chans := t.chans } t ∨
       decode (.cmd w) = .ok .startEnc ∧ t.state = .enc ∧ SameJobSetup { v with job := .enc } t ∨
       decode (.cmd w) = .ok .startDec ∧ t.state = .dec ∧ SameJobSetup { v with job := .dec } t)) := by
  rcases performItem_cmd_cases h with rfl | ⟨x, rfl⟩ | ⟨-, e, -, rfl⟩ | ⟨-, rfl⟩ | ⟨he, hb, h⟩
  · exact .inl ⟨rfl, rfl, rfl, rfl⟩
  · exact .inl ⟨rfl, rfl, rfl, rfl⟩
  · exact .inl ⟨rfl, rfl, rfl, rfl⟩
  · exact .inl ⟨rfl, rfl, rfl, rfl⟩
  · refine .inr ⟨idle_or_done_of_not_busy he hb, ?_⟩
    rcases h with ⟨n, hd, rfl⟩ | ⟨n, hd, rfl⟩ | ⟨n, hd, rfl⟩ | ⟨-, hd, rfl⟩ | ⟨-, hd, rfl⟩
    · exact .inl ⟨hd, rfl, rfl, rfl, rfl⟩
    · exact .inr (.inl ⟨hd, rfl, rfl, rfl, rfl⟩)
    · exact .inr (.inr (.inl ⟨hd, rfl, rfl, rfl, rfl⟩))
    · exact .inr (.inr (.inr (.inl ⟨hd, rfl, rfl, rfl, rfl, rfl⟩)))
    · exact .inr (.inr (.inr (.inr ⟨hd, rfl, rfl, rfl, rfl, rfl⟩)))

/-- Settles O46: the units leave the setup of the job alone, and a command that writes a part of it leaves the other parts. -/
theorem dimensionsAndJobHaveOneWriter : Obligations.DimensionsAndJobHaveOneWriter := by
  intro s t h
  rcases step_ctrl_or_unit h with rfl | ⟨w, rest, hq, h⟩ | ⟨a, ha, he, h⟩
  · exact ⟨absurd rfl, absurd rfl, absurd rfl, absurd rfl⟩
  · rcases performItem_cmd_setup h with hs | ⟨hidle, hs⟩
    · exact ⟨absurd hs.rows, absurd hs.cols, absurd hs.chans, absurd hs.job⟩
    · rcases hs with ⟨hd, hs⟩ | ⟨hd, hs⟩ | ⟨hd, hs⟩ | ⟨hd, hst, hs⟩ | ⟨hd, hst, hs⟩
      · exact ⟨fun _ => ⟨hidle, w, rest, hq, hd⟩, absurd hs.cols, absurd hs.chans, absurd hs.job⟩
      · exact ⟨absurd hs.rows, fun _ => ⟨hidle, w, rest, hq, hd⟩, absurd hs.chans, absurd hs.job⟩
      · exact ⟨absurd hs.rows, absurd hs.cols, fun _ => ⟨hidle, w, rest, hq, hd⟩, absurd hs.job⟩
      · exact ⟨absurd hs.rows, absurd hs.cols, absurd hs.chans, fun _ => ⟨hidle, w, rest, hq, .inl ⟨hd, hst, hs.job⟩⟩⟩
      · exact ⟨absurd hs.rows, absurd hs.cols, absurd hs.chans, fun _ => ⟨hidle, w, rest, hq, .inr ⟨hd, hst, hs.job⟩⟩⟩
  · have hs := agentStep_sameJobSetup ha he h
    exact ⟨absurd hs.rows, absurd hs.cols, absurd hs.chans, absurd hs.job⟩

end Sys2Proof.Machine
end

section
/-! PROOFS of the family 10_state.md, part 3: the invariant (R43) holds after reset, and every step keeps it. A step that ends a job, or happens outside one, meets `State.Inv.of_not_running`; a step that goes on with a job changes few fields of the invariant, and the others are those of the state before it. -/

namespace Sys2Proof.Machine

/-! ### States in which no job runs -/

/-- R43 while no job runs: the items about a running job say nothing. -/
theorem State.Inv.of_not_running {s : State} (hrun : ¬ s.Running) (hdict : s.DictLegal) (hfresh : s.sEmpty = true → s.next = 511)
    (herr : s.err ≠ .noFault ↔ s.state = .error)
    (hout : s.outCnt.toNat ≤ s.count.toNat ∧ (s.dDrain = true → s.outCnt = s.count) ∧ (s.dFin = true → s.dDrain = true))
    (hpair : s.hiValid = true → s.dDrain = false) (hresE : ∀ w ∈ s.resE, isSymbol (w.extractLsb' 0 9) = true)
    (hresD : ∀ p ∈ s.resD, isSymbol p = true) (hdone : s.state = .done → s.resE = [] ∧ s.resD = [])
    (hleft : s.left.wf = true) : s.Inv where
  nextRange := hdict.nextRange
  errExactly := herr
  matchValid := hdict.matchValid
  emptyFresh := hfresh
  rowsGrounded := hdict.rowsGrounded
  keysUnique he := absurd (.inl he) hrun
  jobDims hr := absurd hr hrun
  outCount := hout
  encQuiet he := absurd (.inl he) hrun
  decQuiet hd := absurd (.inr hd) hrun
  drainExactly hd := absurd (.inr hd) hrun
  pairHeld := hpair
  walker hr := absurd hr hrun
  rowSymbols := hdict.rowSymbols
  resESymbols := hresE
  resDSymbols := hresD
  lastOnly he := absurd (.inl he) hrun
  lastThere he := absurd (.inl he) hrun
  resDCount hd := absurd (.inr hd) hrun
  doneEmpty := hdone
  leftWf := hleft
  dictWf := hdict.dictWf

/-- R61: while the dictionary is the seeds there is no row to be said anything of. -/
theorem State.DictLegal.of_seeds {s : State} (hempty : s.sEmpty = true) (hnext : s.next = 511) (hwf : s.dict.wf = true) :
    s.DictLegal where
  nextRange := by rw [hnext]; decide
  matchValid h := by rw [hempty] at h; cases h
  rowsGrounded c h1 h2 := by rw [hnext] at h2; exact absurd h2 (Nat.not_lt.mpr h1)
  rowSymbols c h1 h2 := by rw [hnext] at h2; exact absurd h2 (Nat.not_lt.mpr h1)
  dictWf := hwf

theorem not_running_of {s : State} (henc : s.state ≠ .enc) (hdec : s.state ≠ .dec) : ¬ s.Running := by
  rintro (h | h)
  · exact henc h
  · exact hdec h

theorem busy_iff {s : State} : s.busy = true ↔ s.Running := decide_eq_true_iff

theorem State.Inv.noFault {s : State} (h : s.Inv) (hne : s.state ≠ .error) : s.err = .noFault :=
  not_not.mp (h.errExactly.not.mpr hne)

/-- Settles O49: after reset no job runs and the dictionary is the seeds. -/
theorem resetMeetsTheInvariant : Obligations.ResetMeetsTheInvariant :=
  State.Inv.of_not_running (not_running_of (by decide) (by decide)) (.of_seeds rfl rfl rfl) (fun _ => rfl) (by decide) (by decide)
    (by decide) (by decide) (by decide) (by decide) rfl

/-! ### CTRL -/

theorem State.WalkerLegal.congr {s t : State} (h : s.WalkerLegal) (hrows : t.rows = s.rows) (hcols : t.cols = s.cols)
    (hchans : t.chans = s.chans) (hrow : t.row = s.row) (hcol : t.col = s.col) (hch : t.ch = s.ch) : t.WalkerLegal := by
  obtain ⟨h1, h2, h3, h4⟩ := h
  rw [← hrows, ← hrow] at h1
  rw [← hcols, ← hcol] at h2
  rw [← hchans, ← hch] at h3
  rw [← hrows, ← hrow, ← hcol, ← hch] at h4
  exact ⟨h1, h2, h3, h4⟩

/-- The invariant says nothing about the external channels, nor about the model's own two fields. -/
theorem State.Inv.with_ports {s : State} (h : s.Inv) (cmd : List CmdWord) (rsp : List Response) (pixIn : List Byte)
    (codeOut codeIn pixOut : List FlagByte) (sched : List Agent) (pick : Nat) :
    ({ s with
      cmd := cmd, rsp := rsp, pixIn := pixIn, codeOut := codeOut, codeIn := codeIn, pixOut := pixOut
      sched := sched, pick := pick } : State).Inv :=
  { h with walker := fun hr => (h.walker hr).congr rfl rfl rfl rfl rfl rfl }

/-- R210: a fault keeps the invariant. -/
theorem State.Inv.raised {s : State} (h : s.Inv) {e : ErrCode} (he : e ≠ .noFault) : (s.raise e).Inv :=
  .of_not_running (not_running_of (by simp) (by simp)) (h.dictLegal.congr rfl rfl rfl rfl) h.emptyFresh (by simpa using he)
    h.outCount h.pairHeld h.resESymbols h.resDSymbols (by simp) h.leftWf

/-- R127: ABORT keeps the invariant. -/
theorem State.Inv.aborted {s : State} (h : s.Inv) : s.abortJob.Inv :=
  .of_not_running (not_running_of (by simp) (by simp)) (.of_seeds rfl rfl h.dictWf) (fun _ => rfl) (by simp) (by simp) (by simp)
    (by simp) (by simp) (by simp) h.leftWf

/-- R122: a WR outside a job keeps the invariant. -/
theorem State.Inv.with_dims {s : State} (h : s.Inv) (hrun : ¬ s.Running) (rows cols chans : Dim) :
    ({ s with rows := rows, cols := cols, chans := chans } : State).Inv :=
  .of_not_running hrun (h.dictLegal.congr rfl rfl rfl rfl) h.emptyFresh h.errExactly h.outCount h.pairHeld h.resESymbols
    h.resDSymbols h.doneEmpty h.leftWf

theorem zeroDimension_eq_false {s : State} (h : s.zeroDimension = false) : s.rows ≠ 0 ∧ s.cols ≠ 0 ∧ s.chans ≠ 0 := by
  simpa [State.zeroDimension] using h

/-- R126, R7: COUNT is the exact product of the dimensions, no bit is lost. -/
theorem initJob_count_toNat (s : State) : s.initJob.count.toNat = s.rows.toNat * s.cols.toNat * s.chans.toNat := by
  rw [initJob_count, BitVec.toNat_ofNat, Nat.mod_eq_of_lt]
  calc s.rows.toNat * s.cols.toNat * s.chans.toNat
      < 2 ^ 16 * 2 ^ 16 * 2 ^ 16 :=
        Nat.mul_lt_mul'' (Nat.mul_lt_mul'' s.rows.isLt s.cols.isLt) s.chans.isLt
    _ = 2 ^ 48 := by norm_num

/-- R126: after init_job() with no dimension zero the invariant holds, whichever job starts. -/
theorem State.Inv.started {s : State} (h : s.Inv) (hz : s.zeroDimension = false) (kind : JobKind) {st : JobState}
    (hst : st ≠ .error) : ({ s.initJob with job := kind, state := st } : State).Inv := by
  obtain ⟨hrows, hcols, hchans⟩ := zeroDimension_eq_false hz
  have hseeds : ({ s.initJob with job := kind, state := st } : State).DictLegal := .of_seeds rfl rfl h.dictWf
  have hcount := initJob_count_toNat s
  have pos : ∀ {n : Dim}, n ≠ 0 → 1 ≤ n.toNat := BitVec.toNat_pos_of_ne_zero
  have hpos : 1 ≤ s.rows.toNat * s.cols.toNat * s.chans.toNat := Nat.mul_pos (Nat.mul_pos (pos hrows) (pos hcols)) (pos hchans)
  exact {
    nextRange := hseeds.nextRange
    errExactly := by simpa using hst
    matchValid := hseeds.matchValid
    emptyFresh := fun _ => rfl
    rowsGrounded := hseeds.rowsGrounded
    keysUnique := fun _ c x h1 h2 h3 => absurd (h2.trans h3) (Nat.not_lt.mpr h1)
    jobDims := fun _ => ⟨pos hrows, pos hcols, pos hchans, hcount⟩
    outCount := by simp
    encQuiet := by simp
    decQuiet := by simp
    drainExactly := fun _ => by
      have hne : s.initJob.count ≠ 0 := fun h0 => by
        have hzero : 0 = s.rows.toNat * s.cols.toNat * s.chans.toNat := by rw [← hcount, h0]; rfl
        omega
      simpa using hne.symm
    pairHeld := by simp
    walker := fun _ => walkerLegal_at_origin hrows hcols hchans rfl rfl rfl
    rowSymbols := hseeds.rowSymbols
    resESymbols := by simp
    resDSymbols := by simp
    lastOnly := by simp
    lastThere := fun _ hend => absurd hend.symm hrows
    resDCount := fun _ => (position_at_origin rfl rfl rfl).symm
    doneEmpty := by simp
    leftWf := h.leftWf
    dictWf := h.dictWf }

/-- R124: every command keeps the invariant. -/
theorem State.Inv.commanded {v t : State} (h : v.Inv) {w : CmdWord} (ht : performItem (.cmd w) v = .next t) : t.Inv := by
  rcases performItem_cmd_cases ht with rfl | ⟨x, rfl⟩ | ⟨-, e, he, rfl⟩ | ⟨-, rfl⟩ | ⟨herr, hb, ht⟩
  · exact h
  · exact h.with_ports ..
  · exact h.raised (by rcases he with rfl | rfl | rfl <;> decide)
  · exact h.aborted
  · have hrun : ¬ v.Running := fun hr => Bool.false_ne_true (hb.symm.trans (busy_iff.mpr hr))
    rcases ht with ⟨n, -, rfl⟩ | ⟨n, -, rfl⟩ | ⟨n, -, rfl⟩ | ⟨hz, -, rfl⟩ | ⟨hz, -, rfl⟩
    · exact h.with_dims hrun ..
    · exact h.with_dims hrun ..
    · exact h.with_dims hrun ..
    · exact h.started hz .enc (by decide)
    · exact h.started hz .dec (by decide)

/-! ### PRED -/

theorem State.Inv.row_lt_or_end {s : State} (h : s.Inv) (hr : s.Running) : s.row.toNat < s.rows.toNat ∨ s.row = s.rows :=
  (Nat.lt_or_eq_of_le (h.walker hr).rowLe).imp_right BitVec.eq_of_toNat_eq

/-- R141, R143, R146: a sample predicted keeps the invariant. -/
theorem State.Inv.predicted {s : State} (h : s.Inv) (hs : s.state = .enc) (hrow : s.row.toNat < s.rows.toNat) (x : Byte) :
    ({ s with
      left := s.left.write s.ch.toNat x
      resE := s.resE ++ [flagSym s.atLast (sym9 (s.residual x))] } : State).advance.Inv := by
  have hw := h.walker (.inl hs)
  have hlast := atLast_iff_advance hw hrow
  have hres := s.residual_bounds x
  have hold := h.lastOnly hs hrow
  exact { h with
    decQuiet := fun hd => by cases hs.symm.trans hd
    resDCount := fun hd => by cases hs.symm.trans hd
    walker := fun _ => (advance_legal hw hrow).congr rfl rfl rfl rfl rfl rfl
    resESymbols := fun w hmem => by
      rcases List.mem_append.mp hmem with hmem | hmem
      · exact h.resESymbols w hmem
      · rw [List.mem_singleton.mp hmem, flagSym_sym]
        exact isSymbol_sym9 hres.1 hres.2
    lastOnly := fun _ hlt w hmem => by
      rcases List.mem_append.mp hmem with hmem | hmem
      · exact hold w hmem
      · have hne : s.advance.row ≠ s.rows := fun he => by rw [← he] at hlt; exact Nat.lt_irrefl _ hlt
        rw [List.mem_singleton.mp hmem, flagSym_last, Bool.eq_false_iff]
        exact hlast.not.mpr hne
    lastThere := fun _ hend => ⟨s.resE, _, rfl, by rw [flagSym_last]; exact hlast.mpr hend, hold⟩
    doneEmpty := fun hdone => by cases hs.symm.trans hdone
    leftWf := Memory.wf_write h.leftWf hw.cell }

/-! ### ENC -/

/-- R43 item 6: no two rows from 511 up have the same key. -/
def State.KeysUnique (s : State) : Prop :=
  ∀ c x, 511 ≤ c → c < x → x < s.next.toNat →
    (s.dict.row c).prefixCode ≠ (s.dict.row x).prefixCode ∨ (s.dict.row c).sym ≠ (s.dict.row x).sym

/-- R64: after a miss no row from 511 up has the key that was looked up. -/
theorem State.DictLegal.key_absent_of_miss {s : State} (h : s.DictLegal) {p : Code} {b : Int} (hmiss : s.lookup false p b = none)
    {c : Nat} (h1 : 511 ≤ c) (h2 : c < s.next.toNat) : (s.dict.row c).prefixCode ≠ p ∨ (s.dict.row c).sym ≠ sym9 b := by
  have hno := State.lookup_eq_none.mp hmiss c (by rwa [State.rowCount_eq h.nextRange.2])
  have hroot := (h.rowsGrounded c h1 h2).1
  rw [← not_and_or]
  simpa [rowMatches, hroot] using hno

/-- R65: the insertion of a key that no row has keeps the keys unique. -/
theorem State.KeysUnique.inserted {s : State} (h : s.KeysUnique) (hd : s.DictLegal) {p : Code} {b : Int}
    (hmiss : s.lookup false p b = none) : (s.insert p b).KeysUnique := by
  by_cases hfull : s.next.toNat < 65536
  · obtain ⟨hnext, hnew, hold, -⟩ := State.insert_below (p := p) (b := b) hd.dictWf hd.nextRange.1 hfull
    intro c x h1 h2 h3
    rw [hold c (by omega)]
    by_cases hx : x = s.next.toNat
    · rw [hx, hnew]
      exact hd.key_absent_of_miss hmiss h1 (by omega)
    · rw [hold x hx]
      exact h c x h1 h2 (by omega)
  · rw [State.insert_full hfull]
    exact h

/-- R154: the match step keeps the keys unique, and leaves S not empty. -/
theorem State.KeysUnique.matched {s : State} (h : s.KeysUnique) (hd : s.DictLegal) {b : Int} (h1 : -255 ≤ b) (h2 : b ≤ 255) :
    (s.matchSymbol b).KeysUnique ∧ (s.matchSymbol b).sEmpty = false := by
  cases hl : s.lookup s.sEmpty s.sCode b with
  | some c =>
    rw [State.matchSymbol_hit hl]
    exact ⟨h, rfl⟩
  | none =>
    have he := hd.miss_nonempty h1 h2 hl
    rw [State.matchSymbol_miss hl]
    rw [he] at hl
    exact ⟨h.inserted hd hl, he⟩

/-- R146: the residual with last = 1 is the only one left on RES_E. -/
theorem State.Inv.resE_empty_after_last {s : State} (h : s.Inv) (hs : s.state = .enc) {w : FlagSym} {rest : List FlagSym}
    (hq : s.resE = w :: rest) (hlast : w.getLsbD 9 = true) : rest = [] := by
  have hmem : w ∈ s.resE := by rw [hq]; exact List.mem_cons_self
  rcases h.row_lt_or_end (.inl hs) with hrow | hrow
  · rw [h.lastOnly hs hrow w hmem] at hlast
    cases hlast
  · obtain ⟨front, v, heq, -, hfront⟩ := h.lastThere hs hrow
    rw [hq] at heq
    cases front with
    | nil => exact (List.cons.inj heq).2
    | cons u us =>
      rw [(List.cons.inj heq).1, hfront u List.mem_cons_self] at hlast
      cases hlast

/-- R146: when every sample is handled, the residual with last = 1 stays at the end of RES_E while others are popped. -/
theorem State.Inv.lastThere_after_other {s : State} (h : s.Inv) (hs : s.state = .enc) (hrow : s.row = s.rows) {w : FlagSym}
    {rest : List FlagSym} (hq : s.resE = w :: rest) (hlast : w.getLsbD 9 = false) :
    ∃ front v, rest = front ++ [v] ∧ v.getLsbD 9 = true ∧ ∀ u ∈ front, u.getLsbD 9 = false := by
  obtain ⟨front, v, heq, hv, hfront⟩ := h.lastThere hs hrow
  rw [hq] at heq
  cases front with
  | nil =>
    rw [(List.cons.inj heq).1, hv] at hlast
    cases hlast
  | cons u us => exact ⟨us, v, (List.cons.inj heq).2, hv, fun x hx => hfront x (List.mem_cons_of_mem _ hx)⟩

/-- R154, R155: a residual encoded keeps the invariant. -/
theorem State.Inv.encoded {s : State} (h : s.Inv) (hs : s.state = .enc) {w : FlagSym} {rest : List FlagSym}
    (hq : s.resE = w :: rest) :
    ((({ s with resE := rest } : State).nextPick.matchSymbol (int9 (w.extractLsb' 0 9))).finishEncode (w.getLsbD 9)).Inv := by
  have hsym := h.resESymbols w (by rw [hq]; exact List.mem_cons_self)
  have hlow := (isSymbol_iff _).mp hsym
  have hhigh := (int9_range (w.extractLsb' 0 9)).2
  have hd : ({ s with resE := rest } : State).nextPick.DictLegal := h.dictLegal.congr rfl rfl rfl rfl
  have hk : ({ s with resE := rest } : State).nextPick.KeysUnique := h.keysUnique hs
  have hmd := hd.matched hlow hhigh
  obtain ⟨hmk, hme⟩ := hk.matched hd hlow hhigh
  obtain ⟨e, c, n, d, o, hm⟩ :=
    State.matchSymbol_writes ({ s with resE := rest } : State).nextPick (int9 (w.extractLsb' 0 9))
  rw [hm] at hmd hmk hme ⊢
  obtain ⟨-, -, -, -, hresD⟩ := h.encQuiet hs
  have hsub : ∀ v ∈ rest, v ∈ s.resE := fun v hv => by rw [hq]; exact List.mem_cons_of_mem _ hv
  cases hlast : w.getLsbD 9 with
  | true =>
    have hrest := h.resE_empty_after_last hs hq hlast
    exact .of_not_running (not_running_of (by simp) (by simp)) (hmd.congr rfl rfl rfl rfl)
      (fun he => by cases he.symm.trans hme) (by simpa using h.noFault (by simp [hs])) h.outCount h.pairHeld
      (fun v hv => h.resESymbols v (hsub v hv)) h.resDSymbols (fun _ => ⟨hrest, hresD⟩) h.leftWf
  | false =>
    exact { h with
      nextRange := hmd.nextRange
      matchValid := hmd.matchValid
      emptyFresh := fun he => by cases he.symm.trans hme
      rowsGrounded := hmd.rowsGrounded
      keysUnique := fun _ => hmk
      decQuiet := fun hdec => by cases hs.symm.trans hdec
      walker := fun hr => (h.walker hr).congr rfl rfl rfl rfl rfl rfl
      rowSymbols := hmd.rowSymbols
      resESymbols := fun v hv => h.resESymbols v (hsub v hv)
      lastOnly := fun he hrow v hv => h.lastOnly he hrow v (hsub v hv)
      lastThere := fun he hrow => h.lastThere_after_other he hrow hq hlast
      doneEmpty := fun hdone => by cases hs.symm.trans hdone
      dictWf := hmd.dictWf }

/-! ### DEC -/

/-- R131: a decode job in which REC has handled every position and EOS is consumed has empty links, and may become DONE. -/
theorem State.Inv.decode_completed {s : State} (h : s.Inv) (hs : s.state = .dec) (hrow : s.row = s.rows)
    (hdrain : s.dDrain = true) : ({ s with state := .done } : State).Inv := by
  have hresD : s.resD = [] := by
    have hpos := position_end (h.walker (.inr hs)) hrow
    obtain ⟨-, -, -, hcount⟩ := h.jobDims (.inr hs)
    have hout := h.resDCount hs
    rw [h.outCount.2.1 hdrain, hpos, hcount] at hout
    exact List.eq_nil_of_length_eq_zero (by omega)
  exact .of_not_running (not_running_of (by simp) (by simp)) (h.dictLegal.congr rfl rfl rfl rfl) h.emptyFresh
    (by simpa using h.noFault (by simp [hs])) h.outCount h.pairHeld h.resESymbols h.resDSymbols
    (fun _ => ⟨h.decQuiet hs, hresD⟩) h.leftWf

theorem finishDecode_eq (s : State) : s.finishDecode = if s.walkDone && s.dFin then { s with state := .done } else s := by
  unfold State.finishDecode
  split <;> rfl

/-- R131: the check for the end of a decode job keeps the invariant. -/
theorem State.Inv.decode_finished {s : State} (h : s.Inv) (hs : s.state = .dec) : s.finishDecode.Inv := by
  rw [finishDecode_eq]
  split
  · rename_i hdone
    rw [Bool.and_eq_true] at hdone
    exact h.decode_completed hs (of_decide_eq_true hdone.1) (h.outCount.2.2 hdone.2)
  · exact h

/-- R166: a byte held keeps the invariant. -/
theorem State.Inv.byte_held {s : State} (h : s.Inv) (hs : s.state = .dec) (hd : s.dDrain = false) (n : Byte) :
    ({ s with hiByte := n, hiValid := true } : State).Inv :=
  { h with
    encQuiet := fun he => by cases hs.symm.trans he
    pairHeld := fun _ => hd
    walker := fun hr => (h.walker hr).congr rfl rfl rfl rfl rfl rfl }

/-- R167 to R172: a sequence pushed keeps the invariant. -/
theorem State.Inv.sequence_pushed {s : State} (h : s.Inv) (hs : s.state = .dec) (hd : s.dDrain = false) (hf : s.dFin = false)
    {n : BitVec 17} {d : Dict} {k : Code} {l : List Int} (hu : ({ s with next := n, dict := d } : State).DictLegal)
    (hk : k.toNat < n.toNat) (hl : ({ s with next := n, dict := d } : State).seq k = some l)
    (hout : s.outCnt.toNat + l.length ≤ s.count.toNat) :
    (({ s with next := n, dict := d, hiValid := false } : State).output k l.length l).Inv := by
  have hcount := State.output_count hout
  have hdrain := State.output_drain hd hout
  have hne : s.state ≠ .enc := by simp [hs]
  exact { h with
    nextRange := hu.nextRange
    matchValid := fun _ => hk
    emptyFresh := by simp
    rowsGrounded := hu.rowsGrounded
    keysUnique := fun he => absurd he hne
    outCount := ⟨by rw [output_outCnt, hcount]; exact hout, hdrain.mp, fun hfin => by cases hfin.symm.trans hf⟩
    encQuiet := fun he => absurd he hne
    drainExactly := fun _ => hdrain
    pairHeld := by simp
    walker := fun hr => (h.walker hr).congr rfl rfl rfl rfl rfl rfl
    rowSymbols := hu.rowSymbols
    resDSymbols := fun p hmem => by
      rcases List.mem_append.mp hmem with hmem | hmem
      · exact h.resDSymbols p hmem
      · obtain ⟨v, hv, rfl⟩ := List.mem_map.mp hmem
        have hbounds := hu.seq_symbols hl v hv
        exact isSymbol_sym9 hbounds.1 hbounds.2
    resDCount := fun _ => by
      have hold := h.resDCount hs
      rw [output_outCnt, output_resD, List.length_append, List.length_map, hcount, ← Nat.add_assoc]
      exact congrArg (· + l.length) hold
    doneEmpty := fun hdone => by cases hs.symm.trans hdone
    dictWf := hu.dictWf }

/-- R167: the processing of a code keeps the invariant. -/
theorem State.Inv.code_processed {s t : State} (h : s.Inv) (hs : s.state = .dec) (hd : s.dDrain = false) (hf : s.dFin = false)
    {k : Code} (ht : s.processCode k = .next t) : t.Inv := by
  rcases h.dictLegal.processCode_cases k with ⟨-, heq⟩ | ⟨n, -, -, -, heq⟩ | ⟨u, l, -, -, hout, hu, hk, hl, heq⟩ <;>
    rw [ht] at heq <;> injection heq with heq <;> subst heq
  · exact h.raised (by decide)
  · exact h.raised (by decide)
  · rcases hu with rfl | ⟨b, hb1, hb2, he, rfl⟩
    · exact h.sequence_pushed hs hd hf h.dictLegal hk hl hout
    · exact h.sequence_pushed hs hd hf (h.dictLegal.inserted (h.matchValid he) (isSymbol_sym9 hb1 hb2)) hk hl hout

/-- R176: an EOS that ends the stream keeps the invariant. -/
theorem State.Inv.stream_ended {s : State} (h : s.Inv) (hs : s.state = .dec) (hd : s.dDrain = true) :
    ({ s with dFin := true } : State).finishDecode.Inv := by
  have hfin : ({ s with dFin := true } : State).Inv :=
    { h with
      outCount := ⟨h.outCount.1, h.outCount.2.1, fun _ => hd⟩
      encQuiet := fun he => by cases hs.symm.trans he
      walker := fun hr => (h.walker hr).congr rfl rfl rfl rfl rfl rfl }
  exact hfin.decode_finished hs

/-- R166, R176: every item of CODE_IN keeps the invariant. -/
theorem State.Inv.decoded {v t : State} (h : v.Inv) (hs : v.state = .dec) (hf : v.dFin = false) {w : FlagByte}
    (ht : performItem (.codeIn w) v = .next t) : t.Inv := by
  rcases performItem_codeIn_cases ht with rfl | ⟨hd, n, rfl⟩ | ⟨hd, k, ht⟩ | ⟨hd, rfl⟩ | rfl
  · exact h
  · exact h.byte_held hs hd n
  · exact h.code_processed hs hd hf ht
  · exact h.stream_ended hs hd
  · exact h.raised (by decide)

/-! ### REC -/

/-- R186, R131: a residual reconstructed keeps the invariant. -/
theorem State.Inv.reconstructed {s : State} (h : s.Inv) (hs : s.state = .dec) (hrow : s.row.toNat < s.rows.toNat) {p : Sym}
    {rest : List Sym} (hq : s.resD = p :: rest) (x : Byte) :
    ({ s with left := s.left.write s.ch.toNat x, resD := rest } : State).advance.Inv := by
  have hw := h.walker (.inr hs)
  exact { h with
    encQuiet := fun he => by cases hs.symm.trans he
    walker := fun _ => (advance_legal hw hrow).congr rfl rfl rfl rfl rfl rfl
    resDSymbols := fun q hmem => h.resDSymbols q (by rw [hq]; exact List.mem_cons_of_mem _ hmem)
    lastOnly := fun he => by cases hs.symm.trans he
    lastThere := fun he => by cases hs.symm.trans he
    resDCount := fun _ => by
      have hold := h.resDCount hs
      rw [hq, List.length_cons] at hold
      show s.outCnt.toNat = s.advance.position + rest.length
      rw [advance_position hw hrow]
      omega
    doneEmpty := fun hdone => by cases hs.symm.trans hdone
    leftWf := Memory.wf_write h.leftWf hw.cell }

/-! ### Every step -/

/-- R43: the step of each agent keeps the invariant. -/
theorem State.Inv.agentStepped {s t : State} (h : s.Inv) {a : Agent} (he : a.enabled s = true) (ht : agentStep a s = .next t) :
    t.Inv := by
  cases a with
  | ctrl =>
    obtain ⟨w, rest, -, -, ht⟩ := agentStep_ctrl he ht
    have hv : ({ s with cmd := rest } : State).nextPick.Inv := h.with_ports ..
    exact hv.commanded ht
  | pred =>
    obtain ⟨hs, hrow, w, rest, -, -, ht⟩ := agentStep_pred he ht
    rw [execPix_cases ht]
    have hv : ({ s with pixIn := rest } : State).nextPick.Inv := h.with_ports ..
    exact hv.predicted hs hrow w
  | enc =>
    obtain ⟨hs, w, rest, hq, -, ht⟩ := agentStep_enc he ht
    have hsym := h.resESymbols w (by rw [hq]; exact List.mem_cons_self)
    rcases execRes_cases ht with ⟨hno, -⟩ | ⟨-, rfl⟩
    · rw [hsym] at hno
      cases hno
    · exact h.encoded hs hq
  | dec =>
    obtain ⟨hs, hf, w, rest, -, -, ht⟩ := agentStep_dec he ht
    have hv : ({ s with codeIn := rest } : State).nextPick.Inv := h.with_ports ..
    exact hv.decoded hs hf ht
  | recon =>
    obtain ⟨hs, hrow, w, rest, hq, -, ht⟩ := agentStep_recon he ht
    rw [execResd_cases ht]
    have hrec := h.reconstructed hs hrow hq (({ s with resD := rest } : State).sample (int9 w))
    exact State.Inv.decode_finished (hrec.with_ports ..) hs

/-- Settles O50: a step is the step of an enabled agent, or nothing. -/
theorem everyStepKeepsTheInvariant : Obligations.EveryStepKeepsTheInvariant := by
  intro s t h ht
  rcases step_agent ht with rfl | ⟨a, he, ha⟩
  · exact h
  · exact h.agentStepped he ha

end Sys2Proof.Machine
end

section
/-! PROOFS of the family 10_state.md, part 4: from the invariant every step answers a next state (log 6, log 7), and no step rewrites a valid row (R33, R65). -/

namespace Sys2Proof.Machine

/-! ### The step of an agent with an item at the head of its channel -/

theorem agentStep_ctrl_eq {s : State} {w : CmdWord} {rest : List CmdWord} (hq : s.cmd = w :: rest) :
    agentStep .ctrl s = performItem (.cmd w) ({ s with cmd := rest } : State).nextPick :=
  agentStep_of_fetch (fetch_ctrl_cons hq)

theorem agentStep_pred_eq {s : State} {x : Byte} {rest : List Byte} (hq : s.pixIn = x :: rest) :
    agentStep .pred s = execPix x ({ s with pixIn := rest } : State).nextPick :=
  agentStep_of_fetch (fetch_pred_cons hq)

theorem agentStep_enc_eq {s : State} {w : FlagSym} {rest : List FlagSym} (hq : s.resE = w :: rest) :
    agentStep .enc s = execRes (w.getLsbD 9) (w.extractLsb' 0 9) ({ s with resE := rest } : State).nextPick :=
  agentStep_of_fetch (fetch_enc_cons hq)

theorem agentStep_dec_eq {s : State} {w : FlagByte} {rest : List FlagByte} (hq : s.codeIn = w :: rest) :
    agentStep .dec s = performItem (.codeIn w) ({ s with codeIn := rest } : State).nextPick :=
  agentStep_of_fetch (fetch_dec_cons hq)

theorem agentStep_recon_eq {s : State} {p : Sym} {rest : List Sym} (hq : s.resD = p :: rest) :
    agentStep .recon s = execResd p ({ s with resD := rest } : State).nextPick :=
  agentStep_of_fetch (fetch_recon_cons hq)

/-! ### An enabled agent's state and item (R120, R140, R150, R165, R185) -/

theorem ctrl_enabled {s : State} (he : Agent.ctrl.enabled s = true) : ∃ w rest, s.cmd = w :: rest :=
  List.exists_cons_of_ne_nil (by simpa [Agent.enabled] using he)

theorem pred_enabled {s : State} (he : Agent.pred.enabled s = true) :
    s.state = .enc ∧ s.row.toNat < s.rows.toNat ∧ ∃ x rest, s.pixIn = x :: rest := by
  simp only [Agent.enabled, Bool.and_eq_true, decide_eq_true_eq, Bool.not_eq_true', List.isEmpty_eq_false_iff] at he
  exact ⟨he.1.1, he.1.2, List.exists_cons_of_ne_nil he.2⟩

theorem enc_enabled {s : State} (he : Agent.enc.enabled s = true) : s.state = .enc ∧ ∃ w rest, s.resE = w :: rest := by
  simp only [Agent.enabled, Bool.and_eq_true, decide_eq_true_eq, Bool.not_eq_true', List.isEmpty_eq_false_iff] at he
  exact ⟨he.1, List.exists_cons_of_ne_nil he.2⟩

theorem dec_enabled {s : State} (he : Agent.dec.enabled s = true) :
    s.state = .dec ∧ s.dFin = false ∧ ∃ w rest, s.codeIn = w :: rest := by
  simp only [Agent.enabled, Bool.and_eq_true, decide_eq_true_eq, Bool.not_eq_true', List.isEmpty_eq_false_iff] at he
  exact ⟨he.1.1, he.1.2, List.exists_cons_of_ne_nil he.2⟩

theorem recon_enabled {s : State} (he : Agent.recon.enabled s = true) :
    s.state = .dec ∧ s.row.toNat < s.rows.toNat ∧ ∃ p rest, s.resD = p :: rest := by
  simp only [Agent.enabled, Bool.and_eq_true, decide_eq_true_eq, Bool.not_eq_true', List.isEmpty_eq_false_iff] at he
  exact ⟨he.1.1, he.1.2, List.exists_cons_of_ne_nil he.2⟩

/-! ### Progress -/

/-- R124: every command word has a next state. -/
theorem performItem_cmd_next (w : CmdWord) (v : State) : ∃ t, performItem (.cmd w) v = .next t := by
  unfold performItem
  cases hd : decode (.cmd w) with
  | error e => exact ⟨_, rfl⟩
  | ok i =>
    have hch := decodeCommand_channel (show decodeCommand w = .ok i from hd)
    cases i <;> simp only [Instr.channel, reduceCtorEq] at hch <;> exact ⟨_, rfl⟩

/-- R154, R156: every residual has a next state. -/
theorem execRes_next (l : Bool) (p : Sym) (v : State) : ∃ t, execRes l p v = .next t := by
  unfold execRes
  split <;> exact ⟨_, rfl⟩

/-- R167: with a legal dictionary every code has a next state. -/
theorem State.DictLegal.processCode_next {s : State} (h : s.DictLegal) (k : Code) : ∃ t, s.processCode k = .next t := by
  rcases h.processCode_cases k with ⟨-, heq⟩ | ⟨_, -, -, -, heq⟩ | ⟨_, _, -, -, -, -, -, -, heq⟩ <;> exact ⟨_, heq⟩

/-- R166, R176: with a legal dictionary every item of CODE_IN has a next state. -/
theorem State.DictLegal.codeIn_next {v : State} (h : v.DictLegal) (w : FlagByte) : ∃ t, performItem (.codeIn w) v = .next t := by
  cases hw : w.getLsbD 8 with
  | false =>
    rw [performItem_of_decode (decode_codeIn_byte hw)]
    simp only [exec, execByte]
    split
    · exact ⟨_, rfl⟩
    · split
      · exact h.processCode_next _
      · exact ⟨_, rfl⟩
  | true =>
    rw [performItem_of_decode (decode_codeIn_eos hw)]
    simp only [exec, execEos]
    split <;> exact ⟨_, rfl⟩

/-- Log 6, log 7: from the invariant the step of an enabled agent answers a next state. -/
theorem State.Inv.agentStep_next {s : State} (h : s.Inv) {a : Agent} (he : a.enabled s = true) :
    ∃ t, agentStep a s = .next t := by
  cases a with
  | ctrl =>
    obtain ⟨w, rest, hq⟩ := ctrl_enabled he
    rw [agentStep_ctrl_eq hq]
    exact performItem_cmd_next w _
  | pred =>
    obtain ⟨hs, -, x, rest, hq⟩ := pred_enabled he
    rw [agentStep_pred_eq hq]
    have hcell : ({ s with pixIn := rest } : State).nextPick.ch.toNat < 65535 := (h.walker (.inl hs)).cell
    exact ⟨_, execPix_of_cell hcell x⟩
  | enc =>
    obtain ⟨-, w, rest, hq⟩ := enc_enabled he
    rw [agentStep_enc_eq hq]
    exact execRes_next _ _ _
  | dec =>
    obtain ⟨-, -, w, rest, hq⟩ := dec_enabled he
    rw [agentStep_dec_eq hq]
    have hd : ({ s with codeIn := rest } : State).nextPick.DictLegal := h.dictLegal.congr rfl rfl rfl rfl
    exact hd.codeIn_next w
  | recon =>
    obtain ⟨hs, -, p, rest, hq⟩ := recon_enabled he
    rw [agentStep_recon_eq hq]
    have hcell : ({ s with resD := rest } : State).nextPick.ch.toNat < 65535 := (h.walker (.inr hs)).cell
    exact ⟨_, execResd_of_cell hcell p⟩

/-- Settles O52: the agent that steps is an enabled one; with none enabled the state stays. -/
theorem noStepStopsTheMachine : Obligations.NoStepStopsTheMachine := by
  intro s h
  rcases anyEnabledAgentMayStepNext.2 s with ⟨a, he, hstep⟩ | ⟨-, hstep⟩
  · rw [hstep]
    exact h.agentStep_next he
  · exact ⟨s, hstep⟩

/-! ### NEXT and the valid rows -/

/-- R65: the dictionary after the step is as it was, or it is the one of an insertion. -/
def SameOrInserted (s t : State) : Prop :=
  (t.dict = s.dict ∧ t.next = s.next) ∨ ∃ p b, t.dict = (s.insert p b).dict ∧ t.next = (s.insert p b).next

theorem State.insert_next_toNat (s : State) (p : Code) (b : Int) :
    (s.insert p b).next = s.next ∨ (s.insert p b).next.toNat = s.next.toNat + 1 := by
  rw [insert_next]
  split
  · rename_i hlt
    have hlt : s.next.toNat < 65536 := hlt
    refine .inr ?_
    rw [BitVec.toNat_add]
    simp
    omega
  · exact .inl rfl

/-- R33, R65: an insertion leaves every valid row, and NEXT stays or grows by one. -/
theorem SameOrInserted.rows_and_next {s t : State} (h : SameOrInserted s t) :
    (∀ c, c < s.next.toNat → t.dict.row c = s.dict.row c) ∧ (t.next = s.next ∨ t.next.toNat = s.next.toNat + 1) := by
  rcases h with ⟨hd, hn⟩ | ⟨p, b, hd, hn⟩ <;> rw [hd, hn]
  · exact ⟨fun _ _ => rfl, .inl rfl⟩
  · exact ⟨fun c hc => s.insert_row_lt p b hc, s.insert_next_toNat p b⟩

theorem matchSymbol_sameOrInserted (s : State) (b : Int) : SameOrInserted s (s.matchSymbol b) := by
  cases hl : s.lookup s.sEmpty s.sCode b with
  | some c =>
    rw [State.matchSymbol_hit hl]
    exact .inl ⟨rfl, rfl⟩
  | none =>
    rw [State.matchSymbol_miss hl]
    exact .inr ⟨s.sCode, b, rfl, rfl⟩

theorem State.DictLegal.processCode_sameOrInserted {s t : State} (h : s.DictLegal) {k : Code} (ht : s.processCode k = .next t) :
    SameOrInserted s t := by
  rcases h.processCode_cases k with ⟨-, heq⟩ | ⟨n, -, -, -, heq⟩ | ⟨u, l, -, -, -, hu, -, -, heq⟩ <;>
    rw [ht] at heq <;> injection heq with heq <;> subst heq
  · exact .inl ⟨rfl, rfl⟩
  · exact .inl ⟨rfl, rfl⟩
  · rcases hu with rfl | ⟨b, -, -, -, rfl⟩
    · exact .inl ⟨rfl, rfl⟩
    · exact .inr ⟨s.sCode, b, rfl, rfl⟩

/-- R75: what a unit other than CTRL does to DICT and NEXT. -/
theorem State.Inv.agentStep_sameOrInserted {s t : State} (h : s.Inv) {a : Agent} (ha : a ≠ .ctrl) (he : a.enabled s = true)
    (ht : agentStep a s = .next t) : SameOrInserted s t := by
  cases a with
  | ctrl => exact absurd rfl ha
  | pred =>
    obtain ⟨-, -, w, rest, -, -, ht⟩ := agentStep_pred he ht
    rw [execPix_cases ht]
    exact .inl ⟨rfl, rfl⟩
  | enc =>
    obtain ⟨-, w, rest, -, -, ht⟩ := agentStep_enc he ht
    rcases execRes_cases ht with ⟨-, rfl⟩ | ⟨-, rfl⟩
    · exact .inl ⟨rfl, rfl⟩
    · exact matchSymbol_sameOrInserted ({ s with resE := rest } : State).nextPick _
  | dec =>
    obtain ⟨-, -, w, rest, -, -, ht⟩ := agentStep_dec he ht
    rcases performItem_codeIn_cases ht with rfl | ⟨-, n, rfl⟩ | ⟨-, k, ht⟩ | ⟨-, rfl⟩ | rfl
    case inr.inr.inl =>
      have hd : ({ s with codeIn := rest } : State).nextPick.DictLegal := h.dictLegal.congr rfl rfl rfl rfl
      exact hd.processCode_sameOrInserted ht
    all_goals exact .inl ⟨rfl, rfl⟩
  | recon =>
    obtain ⟨-, -, w, rest, -, -, ht⟩ := agentStep_recon he ht
    rw [execResd_cases ht]
    exact .inl ⟨rfl, rfl⟩

/-- R38, R126, R127: no command writes DICT; NEXT stays, or a START or an ABORT sets it to 511. -/
theorem performItem_cmd_dict {v t : State} {w : CmdWord} (ht : performItem (.cmd w) v = .next t) :
    t.dict = v.dict ∧ (t.next = v.next ∨
      t.next = 511 ∧ decode (.cmd w) ∈ [Except.ok Instr.startEnc, .ok .startDec, .ok .abort]) := by
  rcases performItem_cmd_cases ht with rfl | ⟨x, rfl⟩ | ⟨-, e, -, rfl⟩ | ⟨hd, rfl⟩ | ⟨-, -, ht⟩
  · exact ⟨rfl, .inl rfl⟩
  · exact ⟨rfl, .inl rfl⟩
  · exact ⟨rfl, .inl rfl⟩
  · exact ⟨rfl, .inr ⟨rfl, by simp [hd]⟩⟩
  · rcases ht with ⟨n, -, rfl⟩ | ⟨n, -, rfl⟩ | ⟨n, -, rfl⟩ | ⟨-, hd, rfl⟩ | ⟨-, hd, rfl⟩
    · exact ⟨rfl, .inl rfl⟩
    · exact ⟨rfl, .inl rfl⟩
    · exact ⟨rfl, .inl rfl⟩
    · exact ⟨rfl, .inr ⟨rfl, by simp [hd]⟩⟩
    · exact ⟨rfl, .inr ⟨rfl, by simp [hd]⟩⟩

/-- Settles O47: a command leaves DICT, a unit at most inserts; the bound on NEXT is the invariant's after the step. -/
theorem validRowsAreNeverRewritten : Obligations.ValidRowsAreNeverRewritten := by
  intro s t h ht
  have hbound := (everyStepKeepsTheInvariant s t h ht).nextRange.2
  rcases step_ctrl_or_unit ht with rfl | ⟨w, rest, hq, hp⟩ | ⟨a, ha, he, hp⟩
  · exact ⟨fun _ _ => rfl, .inl rfl, hbound⟩
  · obtain ⟨hdict, hnext⟩ := performItem_cmd_dict hp
    refine ⟨fun c _ => by rw [hdict]; rfl, ?_, hbound⟩
    rcases hnext with hnext | ⟨hnext, hd⟩
    · exact .inl hnext
    · exact .inr (.inr ⟨by rw [hnext]; rfl, w, rest, hq, hd⟩)
  · obtain ⟨hrows, hnext⟩ := (h.agentStep_sameOrInserted ha he hp).rows_and_next
    exact ⟨hrows, hnext.imp_right .inl, hbound⟩

end Sys2Proof.Machine
end

section
/-! PROOFS of the family 10_state.md, part 5: what dead LEFT cells and dead DICT rows hold has no effect on any step (R37, R38, R41, log 4, log 5). Each operation takes two states that differ in dead memory only to two such states. -/

namespace Sys2Proof.Machine

/-! ### States with other memories -/

/-- The state with other contents of LEFT and DICT. -/
def State.withMemory (s : State) (l : Memory) (d : Dict) : State := { s with left := l, dict := d }

theorem LiveEq.eq_withMemory {s t : State} (h : LiveEq s t) : t = s.withMemory t.left t.dict := h.rest.symm

/-- What looks at no memory is the same in both states. -/
theorem LiveEq.agree {α : Type} {s t : State} (h : LiveEq s t) (f : State → α)
    (hf : f (s.withMemory t.left t.dict) = f s) : f t = f s :=
  (congrArg f h.eq_withMemory).trans hf

/-- An update that keeps both memories, and makes no row valid and no cell live, has the same effect whatever is dead. -/
theorem LiveEq.updated {s s' t : State} (h : LiveEq s t) (hleft : s'.left = s.left) (hdict : s'.dict = s.dict)
    (hnext : s'.next.toNat ≤ s.next.toNat) (hlive : ∀ k, s'.LiveCell k → s.LiveCell k) :
    LiveEq s' (s'.withMemory t.left t.dict) where
  rest := rfl
  rows c hc := by rw [hdict]; exact h.rows c (by omega)
  cells k hk := by rw [hleft]; exact h.cells k (hlive k hk)

/-- While no job runs no cell is live. -/
theorem not_liveCell {s : State} (hrun : ¬ s.Running) (k : Nat) : ¬ s.LiveCell k := fun hk => hrun hk.1

/-- Both results are next states, and these differ in dead memory only. -/
def LiveEqNext (r q : Result) : Prop := ∃ s t : State, r = .next s ∧ q = .next t ∧ LiveEq s t

theorem LiveEq.toNext {s t : State} (h : LiveEq s t) : LiveEqNext (.next s) (.next t) := ⟨s, t, rfl, rfl, h⟩

/-! ### Faults, ends of jobs, commands -/

theorem LiveEq.raised {s t : State} (h : LiveEq s t) (e : ErrCode) : LiveEq (s.raise e) (t.raise e) := by
  rw [h.eq_withMemory]
  exact h.updated rfl rfl (Nat.le_refl _) fun k hk => absurd hk (not_liveCell (not_running_of (by simp) (by simp)) k)

theorem LiveEq.completed {s t : State} (h : LiveEq s t) :
    LiveEq { s with state := .done } { t with state := .done } := by
  rw [h.eq_withMemory]
  exact h.updated rfl rfl (Nat.le_refl _) fun k hk => absurd hk (not_liveCell (not_running_of (by simp) (by simp)) k)

/-- R67, R38: no command reads LEFT or DICT, and none writes them. -/
theorem performItem_cmd_withMemory {v t : State} {w : CmdWord} (ht : performItem (.cmd w) v = .next t) (l : Memory) (d : Dict) :
    performItem (.cmd w) (v.withMemory l d) = .next (t.withMemory l d) := by
  have guardWrite : ∀ u : State, (v.withMemory l d).guardWrite (u.withMemory l d) = (v.guardWrite u).withMemory l d := fun u => by
    show (if v.state = .error then _ else if v.busy then _ else _) = _
    unfold State.guardWrite
    split
    · rfl
    · split <;> rfl
  have guardStart : ∀ u : State, (v.withMemory l d).guardStart (u.withMemory l d) = (v.guardStart u).withMemory l d := fun u => by
    show (if v.state = .error then _ else if v.busy then _ else if v.zeroDimension then _ else _) = _
    unfold State.guardStart
    split
    · rfl
    · split
      · rfl
      · split <;> rfl
  unfold performItem at ht ⊢
  cases hd : decode (.cmd w) with
  | error e =>
    rw [hd] at ht
    injection ht with ht
    subst ht
    show Host.Outcome.next (if v.state = .error then _ else _) = _
    split <;> rfl
  | ok i =>
    rw [hd] at ht
    have hch := decodeCommand_channel (show decodeCommand w = .ok i from hd)
    cases i <;> simp only [Instr.channel, reduceCtorEq] at hch <;> injection ht with ht <;> subst ht
    case wrRows n => exact congrArg _ (guardWrite { v with rows := n })
    case wrCols n => exact congrArg _ (guardWrite { v with cols := n })
    case wrChans n => exact congrArg _ (guardWrite { v with chans := n })
    case startEnc => exact congrArg _ (guardStart v.startEncode)
    case startDec => exact congrArg _ (guardStart v.startDecode)
    all_goals rfl

/-- R68: no command writes LEFT or makes a cell live: a job starts at column 0. -/
theorem performItem_cmd_left {v t : State} {w : CmdWord} (ht : performItem (.cmd w) v = .next t) :
    t.left = v.left ∧ ∀ k, t.LiveCell k → v.LiveCell k := by
  have quiet : ∀ {u : State}, ¬ u.Running → ∀ k, u.LiveCell k → v.LiveCell k := fun hrun k hk =>
    absurd hk (not_liveCell hrun k)
  have fresh : ∀ {u : State}, u.col = 0 → u.ch = 0 → ∀ k, u.LiveCell k → v.LiveCell k := fun hcol hch k hk => by
    obtain ⟨-, -, hk⟩ := hk
    rw [hcol, hch] at hk
    rcases hk with hk | hk <;> cases hk
  rcases performItem_cmd_cases ht with rfl | ⟨x, rfl⟩ | ⟨-, e, -, rfl⟩ | ⟨-, rfl⟩ | ⟨-, hb, ht⟩
  · exact ⟨rfl, fun _ => id⟩
  · exact ⟨rfl, fun _ => id⟩
  · exact ⟨rfl, quiet (not_running_of (by simp) (by simp))⟩
  · exact ⟨rfl, fresh rfl rfl⟩
  · have hrun : ¬ v.Running := fun hr => Bool.false_ne_true (hb.symm.trans (busy_iff.mpr hr))
    rcases ht with ⟨n, -, rfl⟩ | ⟨n, -, rfl⟩ | ⟨n, -, rfl⟩ | ⟨-, -, rfl⟩ | ⟨-, -, rfl⟩
    · exact ⟨rfl, quiet hrun⟩
    · exact ⟨rfl, quiet hrun⟩
    · exact ⟨rfl, quiet hrun⟩
    · exact ⟨rfl, fresh rfl rfl⟩
    · exact ⟨rfl, fresh rfl rfl⟩

theorem LiveEq.commanded {v t : State} (h : LiveEq v t) (hn : 511 ≤ v.next.toNat) (w : CmdWord) :
    LiveEqNext (performItem (.cmd w) v) (performItem (.cmd w) t) := by
  obtain ⟨v', hv'⟩ := performItem_cmd_next w v
  obtain ⟨hdict, hnext⟩ := performItem_cmd_dict hv'
  obtain ⟨hleft, hlive⟩ := performItem_cmd_left hv'
  refine ⟨v', v'.withMemory t.left t.dict, hv', ?_, h.updated hleft hdict ?_ hlive⟩
  · rw [h.eq_withMemory]
    exact performItem_cmd_withMemory hv' ..
  · rcases hnext with hnext | ⟨hnext, -⟩ <;> rw [hnext]
    exact hn

/-! ### The walk: PRED and REC -/

/-- R68: away from column 0 the cell LEFT[CH] is live. -/
theorem LiveEq.read_left {s t : State} (h : LiveEq s t) (hrun : s.Running) (hw : s.WalkerLegal) (hcol : s.col ≠ 0) :
    s.left.read s.ch.toNat = t.left.read s.ch.toNat :=
  h.cells _ ⟨hrun, hw.chLt, .inl (BitVec.toNat_pos_of_ne_zero hcol)⟩

theorem LiveEq.residual_eq {s t : State} (h : LiveEq s t) (hrun : s.Running) (hw : s.WalkerLegal) (x : Byte) :
    t.residual x = s.residual x := by
  rw [h.eq_withMemory]
  show (if s.col = 0 then _ else (x.toNat : Int) - ((t.left.read s.ch.toNat).toNat : Int)) = _
  unfold State.residual
  split
  · rfl
  · rename_i hcol
    rw [h.read_left hrun hw hcol]

theorem LiveEq.sample_eq {s t : State} (h : LiveEq s t) (hrun : s.Running) (hw : s.WalkerLegal) (r : Int) :
    t.sample r = s.sample r := by
  rw [h.eq_withMemory]
  show (if s.col = 0 then _ else mod256 (((t.left.read s.ch.toNat).toNat : Int) + r)) = _
  unfold State.sample
  split
  · rfl
  · rename_i hcol
    rw [h.read_left hrun hw hcol]

/-- R67, R68: after a write of LEFT[CH] and `advance()` the live cells are live ones from before and the one written. -/
theorem LiveEq.walked {s t : State} (h : LiveEq s t) (hw : s.WalkerLegal) (hrow : s.row.toNat < s.rows.toNat)
    (hs : s.left.wf = true) (ht : t.left.wf = true) (x : Byte) :
    LiveEq ({ s with left := s.left.write s.ch.toNat x } : State).advance
      ({ t with left := t.left.write t.ch.toNat x } : State).advance := by
  have hch : t.ch = s.ch := h.agree State.ch rfl
  refine ⟨by rw [h.eq_withMemory]; rfl, h.rows, fun k hk => ?_⟩
  obtain ⟨hrun, hk, hwritten⟩ := hk
  show (s.left.write s.ch.toNat x).read k = (t.left.write t.ch.toNat x).read k
  rw [hch]
  by_cases hkch : k = s.ch.toNat
  · rw [hkch, Memory.read_write_same _ _ hs, Memory.read_write_same _ _ ht]
  · rw [Memory.read_write_other _ _ hkch, Memory.read_write_other _ _ hkch]
    refine h.cells k ⟨hrun, hk, ?_⟩
    replace hk : k < s.chans.toNat := hk
    replace hwritten : 0 < s.advance.col.toNat ∨ k < s.advance.ch.toNat := hwritten
    rcases advance_cases hw hrow with ⟨-, -, hcol, hch⟩ | ⟨hlast, -, -, -, -⟩ | ⟨-, -, -, hcol, hch⟩
    · rw [hcol, hch] at hwritten
      omega
    · omega
    · rw [hcol, hch] at hwritten
      rcases hwritten with hwritten | hwritten <;> cases hwritten

theorem LiveEq.predicted {s t : State} (h : LiveEq s t) (hs : s.Inv) (ht : t.left.wf = true) (hrun : s.Running)
    (hrow : s.row.toNat < s.rows.toNat) (x : Byte) : LiveEqNext (execPix x s) (execPix x t) := by
  have hw := hs.walker hrun
  have hch : t.ch = s.ch := h.agree State.ch rfl
  have hres := h.residual_eq hrun hw x
  rw [execPix_of_cell hw.cell, execPix_of_cell (by rw [hch]; exact hw.cell), hres]
  have hpush : LiveEq { s with resE := s.resE ++ [flagSym s.atLast (sym9 (s.residual x))] }
      { t with resE := t.resE ++ [flagSym t.atLast (sym9 (s.residual x))] } := by
    rw [h.eq_withMemory]
    exact h.updated rfl rfl (Nat.le_refl _) fun _ => id
  have hpushed : ({ s with resE := s.resE ++ [flagSym s.atLast (sym9 (s.residual x))] } : State).WalkerLegal :=
    hw.congr rfl rfl rfl rfl rfl rfl
  exact (hpush.walked hpushed hrow hs.leftWf ht x).toNext

theorem LiveEq.decode_finished {s t : State} (h : LiveEq s t) : LiveEq s.finishDecode t.finishDecode := by
  have hcond : (t.walkDone && t.dFin) = (s.walkDone && s.dFin) :=
    h.agree (fun u => u.walkDone && u.dFin) rfl
  rw [finishDecode_eq, finishDecode_eq, hcond]
  split
  · exact h.completed
  · exact h

theorem LiveEq.reconstructed {s t : State} (h : LiveEq s t) (hw : s.WalkerLegal) (hs : s.left.wf = true) (ht : t.left.wf = true)
    (hrun : s.Running) (hrow : s.row.toNat < s.rows.toNat) (p : Sym) : LiveEqNext (execResd p s) (execResd p t) := by
  have hch : t.ch = s.ch := h.agree State.ch rfl
  have hsample := h.sample_eq hrun hw (int9 p)
  rw [execResd_of_cell hw.cell, execResd_of_cell (by rw [hch]; exact hw.cell), hsample]
  have hpush : LiveEq { s with pixOut := s.pixOut ++ [flagByte s.atLast (s.sample (int9 p))] }
      { t with pixOut := t.pixOut ++ [flagByte t.atLast (s.sample (int9 p))] } := by
    rw [h.eq_withMemory]
    exact h.updated rfl rfl (Nat.le_refl _) fun _ => id
  have hpushed : ({ s with pixOut := s.pixOut ++ [flagByte s.atLast (s.sample (int9 p))] } : State).WalkerLegal :=
    hw.congr rfl rfl rfl rfl rfl rfl
  exact (hpush.walked hpushed hrow hs ht _).decode_finished.toNext

/-! ### The dictionary: ENC and DEC -/

theorem lowestFrom_congr {f g : Nat → Bool} {count start : Nat} (h : ∀ x, x < start + count → f x = g x) :
    lowestFrom f count start = lowestFrom g count start := by
  induction count generalizing start with
  | zero => rfl
  | succ n ih => rw [lowestFrom, lowestFrom, h start (by omega), ih fun x hx => h x (by omega)]

/-- R64: the lookup looks at the valid rows only. -/
theorem LiveEq.lookup_eq {s t : State} (h : LiveEq s t) (e : Bool) (p : Code) (b : Int) : t.lookup e p b = s.lookup e p b := by
  have hcount : t.rowCount = s.rowCount := h.agree State.rowCount rfl
  have hrow : ∀ x, x < 0 + s.rowCount → rowMatches t.dict e p b x = rowMatches s.dict e p b x := fun x hx => by
    have hle : s.rowCount ≤ s.next.toNat := Nat.min_le_left _ _
    rw [rowMatches, rowMatches, h.rows x (by omega)]
  rw [State.lookup, State.lookup, hcount, lowestFrom_congr hrow]

/-- R62: the sequence of a code is told by the valid rows. -/
theorem LiveEq.seq_eq {s t : State} (h : LiveEq s t) (k : Code) : t.seq k = s.seq k := by
  have hvalid : t.validCode k = s.validCode k := h.agree (fun u => u.validCode k) rfl
  unfold State.seq
  rw [hvalid]
  split
  · rename_i hk
    exact chainSeq_congr (fun c hc => (h.rows c hc).symm) _ _ (State.validCode_iff.mp hk)
  · rfl

/-- R65: an insertion writes the same row in both, and makes that row valid. -/
theorem LiveEq.inserted {s t : State} (h : LiveEq s t) (hs : s.DictLegal) (ht : t.dict.wf = true) (p : Code) (b : Int) :
    LiveEq (s.insert p b) (t.insert p b) := by
  have hnext : t.next = s.next := h.agree State.next rfl
  by_cases hfull : s.next.toNat < 65536
  · obtain ⟨hn, hnew, hold, -⟩ := State.insert_below (p := p) (b := b) hs.dictWf hs.nextRange.1 hfull
    obtain ⟨-, hnew', hold', -⟩ :=
      State.insert_below (s := t) (p := p) (b := b) ht (by rw [hnext]; exact hs.nextRange.1) (by rw [hnext]; exact hfull)
    rw [hnext] at hnew' hold'
    refine ⟨by rw [h.eq_withMemory]; rfl, fun c hc => ?_, h.cells⟩
    by_cases hcn : c = s.next.toNat
    · rw [hcn, hnew, hnew']
    · rw [hold c hcn, hold' c hcn]
      exact h.rows c (by omega)
  · rw [State.insert_full hfull, State.insert_full (by rw [hnext]; exact hfull)]
    exact h

/-- R154: the match step on the same symbol. -/
theorem LiveEq.matched {s t : State} (h : LiveEq s t) (hs : s.DictLegal) (ht : t.dict.wf = true) (b : Int) :
    LiveEq (s.matchSymbol b) (t.matchSymbol b) := by
  have hlook : t.lookup t.sEmpty t.sCode b = s.lookup s.sEmpty s.sCode b := by
    rw [h.lookup_eq, h.eq_withMemory]
    rfl
  cases hl : s.lookup s.sEmpty s.sCode b with
  | some c =>
    rw [State.matchSymbol_hit hl, State.matchSymbol_hit (hlook.trans hl), h.eq_withMemory]
    exact h.updated rfl rfl (Nat.le_refl _) fun _ => id
  | none =>
    have hcode : t.sCode = s.sCode := h.agree State.sCode rfl
    have hemit : LiveEq (s.emit16 s.sCode false) (t.emit16 s.sCode false) := by
      rw [h.eq_withMemory]
      exact h.updated rfl rfl (Nat.le_refl _) fun _ => id
    have hins := hemit.inserted (hs.congr rfl rfl rfl rfl) ht s.sCode b
    rw [State.matchSymbol_miss hl, State.matchSymbol_miss (hlook.trans hl), hcode]
    have hupd := hins.updated (s' := { (s.emit16 s.sCode false).insert s.sCode b with sCode := seedCode b }) rfl rfl
      (Nat.le_refl _) fun _ => id
    rw [hins.eq_withMemory]
    exact hupd

theorem finishEncode_eq (s : State) (l : Bool) :
    s.finishEncode l = if l then { s.emit16 s.sCode true with state := .done } else s := by
  cases l <;> rfl

theorem LiveEq.encode_finished {s t : State} (h : LiveEq s t) (l : Bool) : LiveEq (s.finishEncode l) (t.finishEncode l) := by
  rw [finishEncode_eq, finishEncode_eq]
  split
  · have hemit : LiveEq (s.emit16 s.sCode true) (t.emit16 t.sCode true) := by
      rw [h.eq_withMemory]
      exact h.updated rfl rfl (Nat.le_refl _) fun _ => id
    exact hemit.completed
  · exact h

/-- R167 step 2: the length a code stands for. -/
theorem LiveEq.codeStandsFor {s t : State} (h : LiveEq s t) {k : Code} {n : Nat} (hk : s.codeStandsFor k n) :
    t.codeStandsFor k n := by
  have hlen : ∀ c, t.len c = s.len c := fun c => by rw [State.len_eq, State.len_eq, h.seq_eq]
  have hnext : t.next = s.next := h.agree State.next rfl
  have hempty : t.sEmpty = s.sEmpty := h.agree State.sEmpty rfl
  have hcode : t.sCode = s.sCode := h.agree State.sCode rfl
  unfold State.codeStandsFor
  rw [hlen, hlen, hnext, hempty, hcode]
  exact hk

/-- R167 steps 4 and 5. -/
theorem LiveEq.sequence_pushed {s t : State} (h : LiveEq s t) (k : Code) (n : Nat) (l : List Int) :
    LiveEq (({ s with hiValid := false } : State).output k n l) (({ t with hiValid := false } : State).output k n l) := by
  rw [h.eq_withMemory]
  exact h.updated rfl rfl (Nat.le_refl _) fun _ => id

/-- R167: the processing of the same code. -/
theorem LiveEq.code_processed {s t : State} (h : LiveEq s t) (hs : s.DictLegal) (ht : t.DictLegal) (k : Code) :
    LiveEqNext (s.processCode k) (t.processCode k) := by
  have hnext : t.next = s.next := h.agree State.next rfl
  have hempty : t.sEmpty = s.sEmpty := h.agree State.sEmpty rfl
  have hcode : t.sCode = s.sCode := h.agree State.sCode rfl
  have hcount : t.count = s.count := h.agree State.count rfl
  have hout : t.outCnt = s.outCnt := h.agree State.outCnt rfl
  rcases hs.processCode_cases k with ⟨hbad, heq⟩ | ⟨n, -, hn, hover, heq⟩ | ⟨u, l, -, hl, hfits, -, -, -, -⟩
  · have hbad' : t.badCode k := by
      unfold State.badCode
      rw [hempty, hnext]
      exact hbad
    rw [heq, State.processCode_bad hbad']
    exact (h.raised _).toNext
  · rw [heq, State.processCode_overrun (h.codeStandsFor hn) (by rw [hcount, hout]; exact hover)]
    exact (h.raised _).toNext
  · rcases hl with ⟨hk, hlen⟩ | ⟨he, hk, m, hlen, hm⟩
    · obtain ⟨b, tl, hseq⟩ := hs.seq_of_valid hk
      rw [State.len_eq, hseq, Option.map_some, Option.some.injEq] at hlen
      rw [State.processCode_known hk hseq (by omega),
        State.processCode_known (by rw [hnext]; exact hk) ((h.seq_eq k).trans hseq) (by rw [hcount, hout]; omega), hempty, hcode]
      refine (LiveEq.sequence_pushed ?_ ..).toNext
      split
      · exact h
      · exact h.inserted hs ht.dictWf ..
    · obtain ⟨b, tl, hseq⟩ := hs.seq_of_valid (hs.matchValid he)
      rw [State.len_eq, hseq, Option.map_some, Option.some.injEq] at hlen
      rw [State.processCode_special hs he hk hseq (by omega),
        State.processCode_special ht (by rw [hempty]; exact he) (by rw [hnext]; exact hk)
          ((h.seq_eq _).trans (by rw [hcode]; exact hseq)) (by rw [hcount, hout]; omega), hcode]
      exact ((h.inserted hs ht.dictWf ..).sequence_pushed ..).toNext

/-- R166: the same byte. -/
theorem LiveEq.byte_taken {s t : State} (h : LiveEq s t) (hs : s.DictLegal) (ht : t.DictLegal) (n : Byte) :
    LiveEqNext (execByte n s) (execByte n t) := by
  have hdrain : t.dDrain = s.dDrain := h.agree State.dDrain rfl
  have hheld : t.hiValid = s.hiValid := h.agree State.hiValid rfl
  have hbyte : t.hiByte = s.hiByte := h.agree State.hiByte rfl
  unfold execByte
  rw [hdrain, hheld, hbyte]
  split
  · exact h.toNext
  · split
    · exact h.code_processed hs ht _
    · refine LiveEq.toNext ?_
      rw [h.eq_withMemory]
      exact h.updated rfl rfl (Nat.le_refl _) fun _ => id

/-- R176: EOS. -/
theorem LiveEq.eos_taken {s t : State} (h : LiveEq s t) : LiveEqNext (execEos s) (execEos t) := by
  have hdrain : t.dDrain = s.dDrain := h.agree State.dDrain rfl
  have hfin : LiveEq { s with dFin := true } { t with dFin := true } := by
    rw [h.eq_withMemory]
    exact h.updated rfl rfl (Nat.le_refl _) fun _ => id
  cases hd : s.dDrain with
  | true =>
    rw [execEos_drained hd, execEos_drained (hdrain.trans hd)]
    exact hfin.decode_finished.toNext
  | false =>
    rw [execEos_early hd, execEos_early (hdrain.trans hd)]
    exact (h.raised _).toNext

theorem LiveEq.decoded {s t : State} (h : LiveEq s t) (hs : s.DictLegal) (ht : t.DictLegal) (w : FlagByte) :
    LiveEqNext (performItem (.codeIn w) s) (performItem (.codeIn w) t) := by
  cases hw : w.getLsbD 8 with
  | false =>
    rw [performItem_of_decode (decode_codeIn_byte hw), performItem_of_decode (decode_codeIn_byte hw)]
    exact h.byte_taken hs ht _
  | true =>
    rw [performItem_of_decode (decode_codeIn_eos hw), performItem_of_decode (decode_codeIn_eos hw)]
    exact h.eos_taken

/-- R154 to R156: the same residual. -/
theorem LiveEq.encoded {s t : State} (h : LiveEq s t) (hs : s.DictLegal) (ht : t.dict.wf = true) (l : Bool) (p : Sym) :
    LiveEqNext (execRes l p s) (execRes l p t) := by
  unfold execRes
  split
  · exact (h.raised _).toNext
  · exact ((h.matched hs ht _).encode_finished l).toNext

/-! ### Every step -/

/-- R41: the step of an enabled agent. -/
theorem LiveEq.agentStepped {s t : State} (h : LiveEq s t) (hs : s.Inv) (ht : t.Inv) {a : Agent} (he : a.enabled s = true) :
    LiveEqNext (agentStep a s) (agentStep a t) := by
  have hpop : ∀ {s' : State}, s'.left = s.left → s'.dict = s.dict → s'.next = s.next → (∀ k, s'.LiveCell k → s.LiveCell k) →
      LiveEq s' (s'.withMemory t.left t.dict) := fun h1 h2 h3 h4 => h.updated h1 h2 (by rw [h3]) h4
  have hlegal := hs.dictLegal
  have hleft := ht.leftWf
  have hdict := ht.dictLegal
  cases a with
  | ctrl =>
    obtain ⟨w, rest, hq⟩ := ctrl_enabled he
    rw [h.eq_withMemory, agentStep_ctrl_eq hq, agentStep_ctrl_eq (s := s.withMemory t.left t.dict) hq]
    have hv := hpop (s' := ({ s with cmd := rest } : State).nextPick) rfl rfl rfl fun _ => id
    exact hv.commanded hs.nextRange.1 w
  | pred =>
    obtain ⟨hst, hrow, x, rest, hq⟩ := pred_enabled he
    have hinv : ({ s with pixIn := rest } : State).nextPick.Inv := hs.with_ports ..
    have hv := hpop (s' := ({ s with pixIn := rest } : State).nextPick) rfl rfl rfl fun _ => id
    rw [h.eq_withMemory, agentStep_pred_eq hq, agentStep_pred_eq (s := s.withMemory t.left t.dict) hq]
    exact hv.predicted hinv hleft (.inl hst) hrow x
  | enc =>
    obtain ⟨-, w, rest, hq⟩ := enc_enabled he
    rw [h.eq_withMemory, agentStep_enc_eq hq, agentStep_enc_eq (s := s.withMemory t.left t.dict) hq]
    have hv := hpop (s' := ({ s with resE := rest } : State).nextPick) rfl rfl rfl fun _ => id
    exact hv.encoded (hlegal.congr rfl rfl rfl rfl) hdict.dictWf _ _
  | dec =>
    obtain ⟨-, -, w, rest, hq⟩ := dec_enabled he
    rw [h.eq_withMemory] at hdict
    rw [h.eq_withMemory, agentStep_dec_eq hq, agentStep_dec_eq (s := s.withMemory t.left t.dict) hq]
    have hv := hpop (s' := ({ s with codeIn := rest } : State).nextPick) rfl rfl rfl fun _ => id
    exact hv.decoded (hlegal.congr rfl rfl rfl rfl) (hdict.congr rfl rfl rfl rfl) w
  | recon =>
    obtain ⟨hst, hrow, p, rest, hq⟩ := recon_enabled he
    have hw : ({ s with resD := rest } : State).nextPick.WalkerLegal :=
      (hs.walker (.inr hst)).congr rfl rfl rfl rfl rfl rfl
    rw [h.eq_withMemory, agentStep_recon_eq hq, agentStep_recon_eq (s := s.withMemory t.left t.dict) hq]
    have hv := hpop (s' := ({ s with resD := rest } : State).nextPick) rfl rfl rfl fun _ => id
    exact hv.reconstructed hw hs.leftWf hleft (.inr hst) hrow p

/-- Settles O55: the choice of the agent looks at no memory, and neither does the agent's step at what is dead. -/
theorem deadMemoryHasNoEffect : Obligations.DeadMemoryHasNoEffect := by
  intro s t hs ht h
  have hchosen : t.chosen = s.chosen := h.agree State.chosen rfl
  show LiveEqNext (step s) (step t)
  cases hc : s.chosen with
  | none =>
    rw [step_of_chosen_none hc, step_of_chosen_none (hchosen.trans hc)]
    exact h.toNext
  | some a =>
    rw [step_of_chosen hc, step_of_chosen (hchosen.trans hc)]
    exact h.agentStepped hs ht (chosen_enabled hc)

end Sys2Proof.Machine
end

section
/-! PROOFS of the family 20_memory.md, part 1: the two memories (R60, R61, R67), the sequences (R62, R63), the lookup (R64), the insertion (R65), and the model's two stops (log 6, log 7). -/

namespace Sys2Proof.Machine

/-! ### The memories -/

/-- Settles O18. -/
theorem memoriesReadBackWhatWasWritten : Obligations.MemoriesReadBackWhatWasWritten :=
  ⟨fun m k v hwf hk => ⟨Memory.read_write_same k v hwf, fun _ hj => Memory.read_write_other m v hj, Memory.wf_write hwf hk⟩,
    fun d _ r hwf hlo hhi => ⟨Dict.row_write_same r hwf hlo, fun _ he => Dict.row_write_other d r he, Dict.wf_write hwf hhi⟩⟩

/-- R61: the symbol of a seed row, as an integer. -/
theorem seedRow_sym {i : Nat} (h : i ≤ 510) : int9 (seedRow i).sym = (i : Int) - 255 :=
  int9_sym9 (by omega) (by omega)

/-- Settles O19: below 511 every DICT reads as the seeds, a written one too. -/
theorem seedRowsAreHardwired : Obligations.SeedRowsAreHardwired := by
  intro d i hi
  have hseed : ∀ t : Dict, t.row i = seedRow i := fun t => t.row_seed (by omega)
  refine ⟨?_, ?_, ?_, fun c r => by rw [hseed, hseed]⟩ <;> rw [hseed]
  · rfl
  · rfl
  · rw [← int9_eq_toInt]
    exact seedRow_sym hi

/-! ### The sequences -/

/-- R62: nothing is defined for a code that is not valid. -/
theorem State.seq_of_not_valid {s : State} {c : Code} (h : s.next.toNat ≤ c.toNat) : s.seq c = none := by
  rw [State.seq, if_neg (State.validCode_iff.not.mpr (by omega))]

/-- R62: `seq` of a valid row with root = 0, by the row's own fields. -/
theorem State.DictLegal.seq_of_row {s : State} (h : s.DictLegal) {c : Code} (hc : c.toNat < s.next.toNat)
    (hroot : (s.dict.row c.toNat).root = false) :
    ∃ l, s.seq (s.dict.row c.toNat).prefixCode = some l ∧ s.seq c = some (l ++ [int9 (s.dict.row c.toNat).sym]) := by
  have hlo : 511 ≤ c.toNat := by
    by_contra hseed
    rw [Dict.row_seed _ (by omega)] at hroot
    cases hroot
  have hprefix := (h.rowsGrounded _ hlo hc).2
  obtain ⟨b, tl, hl⟩ := h.seq_of_valid (Nat.lt_trans hprefix hc)
  refine ⟨_, hl, ?_⟩
  rw [State.seq_of_valid hc, chainSeq_extend hroot hprefix, ← State.seq_of_valid (Nat.lt_trans hprefix hc), hl]
  rfl

/-- Settles O20: `first` and `len` are the head and the length of `seq`, which follows the chain of rows. -/
theorem sequenceFollowsThePrefixChain : Obligations.SequenceFollowsThePrefixChain := by
  refine ⟨fun s c h hc => ⟨fun hroot => ?_, fun hroot => ?_, ?_⟩, fun s c hc => ?_⟩
  · rw [State.seq_of_valid hc, chainSeq_root hroot, int9_eq_toInt]
  · rw [← int9_eq_toInt]
    exact h.dictLegal.seq_of_row hc hroot
  · obtain ⟨b, tl, hl⟩ := h.dictLegal.seq_of_valid hc
    exact ⟨_, hl, by rw [State.first_eq, hl]; rfl, by rw [State.len_eq, hl]; rfl, by simp⟩
  · have hnone := State.seq_of_not_valid hc
    exact ⟨hnone, by rw [State.first_eq, hnone]; rfl, by rw [State.len_eq, hnone]; rfl⟩

/-- Settles O21: the bound is that of the chain of rows, and a code has 16 bits. -/
theorem sequenceLengthIsBounded : Obligations.SequenceLengthIsBounded := by
  intro s c h hc
  obtain ⟨l, hl, hpos, hseed, hrow⟩ := chainSeq_grounded (t := s.dict) (n := s.next.toNat) h.rowsGrounded c.toNat hc
  have hcode := c.isLt
  refine ⟨l.length, by rw [State.len_eq, State.seq_of_valid hc, hl]; rfl, hpos, ?_, hseed, hrow⟩
  by_cases hlo : c.toNat < 511
  · rw [hseed hlo]; omega
  · have := hrow (by omega); omega

/-! ### The lookup and the insertion -/

/-- R64 with S not empty: what it is for a row to match. -/
theorem rowMatches_row_iff {d : Dict} {p : Code} {b : Sym} {c : Nat} :
    rowMatches d false p (int9 b) c = true ↔ (d.row c).root = false ∧ (d.row c).prefixCode = p ∧ (d.row c).sym = b := by
  simp [rowMatches, and_assoc]

/-- R61: a valid row is a seed exactly when its number is below 511. -/
theorem State.DictLegal.root_iff {s : State} (h : s.DictLegal) {c : Nat} (hc : c < s.next.toNat) :
    (s.dict.row c).root = true ↔ c < 511 := by
  by_cases hlo : c < 511
  · rw [Dict.row_seed _ hlo]
    exact ⟨fun _ => hlo, fun _ => rfl⟩
  · rw [(h.rowsGrounded c (by omega) hc).1]
    simp [hlo]

/-- R43 item 6, R61: in an encode job two valid rows with one key are one row. -/
theorem State.Inv.row_unique {s : State} (h : s.Inv) (hs : s.state = .enc) {c x : Nat} (hc : c < s.next.toNat)
    (hx : x < s.next.toNat) (hroot : (s.dict.row c).root = (s.dict.row x).root)
    (hprefix : (s.dict.row c).prefixCode = (s.dict.row x).prefixCode) (hsym : (s.dict.row c).sym = (s.dict.row x).sym) :
    c = x := by
  have hiff : c < 511 ↔ x < 511 := by rw [← h.dictLegal.root_iff hc, ← h.dictLegal.root_iff hx, hroot]
  by_cases hlo : c < 511
  · rw [Dict.row_seed _ hlo, Dict.row_seed _ (hiff.mp hlo)] at hsym
    have hc' := seedRow_sym (i := c) (by omega)
    rw [hsym, seedRow_sym (by omega)] at hc'
    omega
  · have distinct : ∀ a e, 511 ≤ a → a < e → e < s.next.toNat → (s.dict.row a).prefixCode = (s.dict.row e).prefixCode →
        (s.dict.row a).sym ≠ (s.dict.row e).sym := fun a e h1 h2 h3 hp => (h.keysUnique hs a e h1 h2 h3).resolve_left (not_not.mpr hp)
    rcases Nat.lt_trichotomy c x with hlt | heq | hgt
    · exact absurd hsym (distinct c x (by omega) hlt hx hprefix)
    · exact heq
    · exact absurd hsym.symm (distinct x c (by omega) hgt hc hprefix.symm)

/-- Settles O22. -/
theorem lookupFindsTheMatchingRow : Obligations.LookupFindsTheMatchingRow := by
  refine ⟨fun s p b c hn => ⟨?_, ?_⟩, fun s p b hn h1 h2 => ⟨_, State.lookup_empty p hn h1 h2, seedCode_toNat h1 h2⟩,
    fun s c x h hs hc hx => h.row_unique hs hc hx⟩
  · simp only [State.lookup_eq_some, State.rowCount_eq hn, ← Bool.not_eq_true, rowMatches_row_iff]
  · simp only [State.lookup_eq_none, State.rowCount_eq hn, ← Bool.not_eq_true, rowMatches_row_iff]

/-- Settles O23. -/
theorem insertWritesTheNextRow : Obligations.InsertWritesTheNextRow := by
  refine ⟨fun s p b hwf hlo hhi => ?_, fun s p b hfull => State.insert_full (by omega)⟩
  obtain ⟨hnext, hnew, hold, -⟩ := State.insert_below (p := p) (b := b) hwf hlo hhi
  exact ⟨hnext, hnew, hold, rfl⟩

/-! ### The model's two stops -/

/-- Settles O15. -/
theorem absentLeftCellStops : Obligations.AbsentLeftCellStops := by
  intro s hch
  have hcell : ¬ s.leftCellExists = true := State.leftCellExists_iff.not.mpr (by omega)
  exact ⟨fun x => by rw [exec, execPix, if_neg hcell], fun p => by rw [exec, execResd, if_neg hcell]⟩

/-- Log 7: the length of the code's sequence is asked for first, and there is none. -/
theorem State.processCode_undefined {s : State} {k : Code} {kind : CodeKind} (hkind : s.classify k = some kind)
    (hlen : s.codeLength k kind = none) : s.processCode k = .fault .sequenceUndefined := by
  unfold State.processCode
  rw [hkind]
  simp only [hlen]

/-- Settles O32: a valid code is FIRST or KNOWN, the code NEXT with S not empty is SPECIAL. -/
theorem undefinedSequenceStops : Obligations.UndefinedSequenceStops := by
  intro n s k hd hv hk hseq
  rw [exec, execByte_of_pair hd hv hk]
  rcases hseq with ⟨hvalid, hseq⟩ | ⟨he, hnext, hseq⟩
  · have hvalid : s.validCode k = true := State.validCode_iff.mpr hvalid
    have hlen : s.len k = none := by rw [State.len_eq, hseq]; rfl
    cases he : s.sEmpty with
    | true => exact State.processCode_undefined (kind := .first) (by simp [State.classify, he, hvalid]) hlen
    | false => exact State.processCode_undefined (kind := .known) (by simp [State.classify, he, hvalid]) hlen
  · have hvalid : s.validCode k = false := by simp [State.validCode, hnext]
    have hlen : s.codeLength k .special = none := by rw [State.codeLength, State.len_eq, hseq]; rfl
    exact State.processCode_undefined (kind := .special) (by simp [State.classify, he, hvalid, hnext]) hlen

end Sys2Proof.Machine
end

section
/-! PROOFS of the family 20_memory.md, part 2: what each unit owns (R75), and the order of two units that step one after the other (R81). -/

namespace Sys2Proof.Machine

/-! ### What a unit owns -/

/-- R75: the state `t` with what the unit `a` owns taken from `r`: its registers and memories, the channels it pops and
pushes, and the model's own two fields. CTRL may write the dimensions and start a job, so its part is the whole state. -/
def State.withUnit (t : State) (a : Agent) (r : State) : State :=
  match a with
  | .ctrl => r
  | .pred =>
    { t with
      row := r.row, col := r.col, ch := r.ch, left := r.left, resE := r.resE, pixIn := r.pixIn
      sched := r.sched, pick := r.pick }
  | .enc =>
    { t with
      sEmpty := r.sEmpty, sCode := r.sCode, next := r.next, dict := r.dict, resE := r.resE, codeOut := r.codeOut
      state := r.state, err := r.err, sched := r.sched, pick := r.pick }
  | .dec =>
    { t with
      sEmpty := r.sEmpty, sCode := r.sCode, next := r.next, dict := r.dict, hiValid := r.hiValid, hiByte := r.hiByte
      outCnt := r.outCnt, dDrain := r.dDrain, dFin := r.dFin, resD := r.resD, codeIn := r.codeIn
      state := r.state, err := r.err, sched := r.sched, pick := r.pick }
  | .recon =>
    { t with
      row := r.row, col := r.col, ch := r.ch, left := r.left, resD := r.resD, pixOut := r.pixOut
      state := r.state, sched := r.sched, pick := r.pick }

/-- R75: `t` differs from `s` at most in what the unit `a` owns. -/
def WritesOnly (a : Agent) (s t : State) : Prop := t.withUnit a s = s

theorem WritesOnly.refl (a : Agent) (s : State) : WritesOnly a s s := by
  cases a <;> rfl

theorem WritesOnly.trans {a : Agent} {s t u : State} (hst : WritesOnly a s t) (htu : WritesOnly a t u) : WritesOnly a s u := by
  have huts : (u.withUnit a t).withUnit a s = u.withUnit a s := by cases a <;> rfl
  unfold WritesOnly at *
  rw [← huts, htu, hst]

/-- What looks at nothing the unit owns is the same after it. -/
theorem WritesOnly.agree {α : Type} {a : Agent} {s t : State} (h : WritesOnly a s t) (f : State → α)
    (hf : f (t.withUnit a s) = f t) : f t = f s :=
  hf.symm.trans (congrArg f h)

theorem WritesOnly.eq_withUnit {a : Agent} {s t : State} (h : WritesOnly a s t) : t = s.withUnit a t := by
  calc t = (t.withUnit a s).withUnit a t := by cases a <;> rfl
    _ = s.withUnit a t := by rw [h]

theorem execPix_writes {v t : State} {x : Byte} (h : execPix x v = .next t) : WritesOnly .pred v t := by
  rw [execPix_cases h]
  rfl

theorem matchSymbol_writesOnly (s : State) (b : Int) : WritesOnly .enc s (s.matchSymbol b) := by
  obtain ⟨_, _, _, _, _, hm⟩ := s.matchSymbol_writes b
  rw [hm]
  rfl

theorem execRes_writes {v t : State} {l : Bool} {p : Sym} (h : execRes l p v = .next t) : WritesOnly .enc v t := by
  rcases execRes_cases h with ⟨-, rfl⟩ | ⟨-, rfl⟩
  · rfl
  · exact (matchSymbol_writesOnly v (int9 p)).trans rfl

theorem processCode_writesOnly {v t : State} {k : Code} (h : v.processCode k = .next t) : WritesOnly .dec v t := by
  obtain ⟨_, _, _, _, _, _, _, _, _, _, rfl⟩ := processCode_writes h
  rfl

theorem performItem_codeIn_writes {v t : State} {w : FlagByte} (h : performItem (.codeIn w) v = .next t) : WritesOnly .dec v t := by
  rcases performItem_codeIn_cases h with rfl | ⟨-, n, rfl⟩ | ⟨-, k, h⟩ | ⟨-, rfl⟩ | rfl
  case inr.inr.inl => exact processCode_writesOnly h
  all_goals rfl

theorem execResd_writes {v t : State} {p : Sym} (h : execResd p v = .next t) : WritesOnly .recon v t := by
  rw [execResd_cases h]
  rfl

/-- Settles O42: the pop of a unit takes from a channel it owns, its transaction writes what it owns. -/
theorem unitsWriteOnlyWhatTheyOwn : Obligations.UnitsWriteOnlyWhatTheyOwn := by
  intro s t
  refine ⟨fun he h => ?_, fun he h => ?_, fun he h => ?_, fun he h => ?_⟩
  · obtain ⟨-, -, x, rest, -, -, h⟩ := agentStep_pred he h
    have hpop : WritesOnly .pred s ({ s with pixIn := rest } : State).nextPick := rfl
    exact hpop.trans (execPix_writes h)
  · obtain ⟨-, w, rest, -, -, h⟩ := agentStep_enc he h
    have hpop : WritesOnly .enc s ({ s with resE := rest } : State).nextPick := rfl
    exact hpop.trans (execRes_writes h)
  · obtain ⟨-, -, w, rest, -, -, h⟩ := agentStep_dec he h
    have hpop : WritesOnly .dec s ({ s with codeIn := rest } : State).nextPick := rfl
    exact hpop.trans (performItem_codeIn_writes h)
  · obtain ⟨-, -, p, rest, -, -, h⟩ := agentStep_recon he h
    have hpop : WritesOnly .recon s ({ s with resD := rest } : State).nextPick := rfl
    exact hpop.trans (execResd_writes h)

/-! ### The transactions, case by case -/

theorem execRes_of_symbol {p : Sym} (hp : isSymbol p = true) (l : Bool) (v : State) :
    execRes l p v = .next ((v.matchSymbol (int9 p)).finishEncode l) := by
  rw [execRes, if_neg (of_decide_eq_true hp)]

/-- R154: a residual without `last` is the match step alone. -/
theorem execRes_not_last {p : Sym} (hp : isSymbol p = true) (v : State) :
    execRes false p v = .next (v.matchSymbol (int9 p)) :=
  execRes_of_symbol hp false v

/-- R172: after the last residual every byte is dropped. -/
theorem execByte_drained {s : State} {n : Byte} (hd : s.dDrain = true) : execByte n s = .next s := by
  rw [execByte, if_pos hd]

/-- R166: the first byte of a pair is held. -/
theorem execByte_held {s : State} {n : Byte} (hd : s.dDrain = false) (hv : s.hiValid = false) :
    execByte n s = .next { s with hiByte := n, hiValid := true } := by
  simp [execByte, hd, hv]

/-- R131: before the EOS the job goes on. -/
theorem finishDecode_of_not_fin {s : State} (h : s.dFin = false) : s.finishDecode = s := by
  simp [finishDecode_eq, h]

/-- R131: while a sample is left the job goes on. -/
theorem finishDecode_of_walking {s : State} (h : s.row.toNat < s.rows.toNat) : s.finishDecode = s := by
  have hne : s.row ≠ s.rows := fun he => by rw [he] at h; exact Nat.lt_irrefl _ h
  simp [finishDecode_eq, State.walkDone, hne]

/-! ### When a unit is enabled (R140, R150, R165, R185) -/

theorem enabled_pred_of {s : State} (hs : s.state = .enc) (hrow : s.row.toNat < s.rows.toNat) (hq : s.pixIn ≠ []) :
    Agent.pred.enabled s = true := by
  simp [Agent.enabled, hs, hrow, hq]

theorem enabled_enc_of {s : State} (hs : s.state = .enc) (hq : s.resE ≠ []) : Agent.enc.enabled s = true := by
  simp [Agent.enabled, hs, hq]

theorem enabled_dec_of {s : State} (hs : s.state = .dec) (hf : s.dFin = false) (hq : s.codeIn ≠ []) :
    Agent.dec.enabled s = true := by
  simp [Agent.enabled, hs, hf, hq]

theorem enabled_recon_of {s : State} (hs : s.state = .dec) (hrow : s.row.toNat < s.rows.toNat) (hq : s.resD ≠ []) :
    Agent.recon.enabled s = true := by
  simp [Agent.enabled, hs, hrow, hq]

/-! ### PRED and ENC -/

/-- R81: the match step of ENC neither reads nor writes what PRED owns. -/
theorem matchSymbol_withPred (s r : State) (b : Int) :
    (s.withUnit .pred r).matchSymbol b = (s.matchSymbol b).withUnit .pred r := by
  have hl : (s.withUnit .pred r).lookup s.sEmpty s.sCode b = s.lookup s.sEmpty s.sCode b := rfl
  cases h : s.lookup s.sEmpty s.sCode b with
  | some c =>
    rw [State.matchSymbol_hit h, State.matchSymbol_hit (hl.trans h)]
    rfl
  | none =>
    rw [State.matchSymbol_miss h, State.matchSymbol_miss (hl.trans h)]
    rfl

/-- R81 for PRED and ENC: while a sample is left, no residual on RES_E is the last one, so ENC does not end the job. -/
theorem State.Inv.pred_enc_commute {s a b : State} (h : s.Inv) (hpred : Agent.pred.enabled s = true)
    (henc : Agent.enc.enabled s = true) (ha : agentStep .pred s = .next a) (hb : agentStep .enc s = .next b) :
    Agent.enc.enabled a = true ∧ Agent.pred.enabled b = true ∧ agentStep .enc a = agentStep .pred b := by
  obtain ⟨hs, hrow, x, samples, hpixIn⟩ := pred_enabled hpred
  obtain ⟨-, w, residuals, hresE⟩ := enc_enabled henc
  have hmem : w ∈ s.resE := by rw [hresE]; exact List.mem_cons_self
  have hsym := h.resESymbols w hmem
  have hlast := h.lastOnly hs hrow w hmem
  have hcell : s.ch.toNat < 65535 := (h.walker (.inl hs)).cell
  rw [agentStep_pred_eq hpixIn, execPix_of_cell (s := ({ s with pixIn := samples } : State).nextPick) hcell] at ha
  rw [agentStep_enc_eq hresE, hlast, execRes_not_last hsym] at hb
  injection ha with ha
  injection hb with hb
  have haresE : a.resE = w :: (residuals ++ [flagSym s.atLast (sym9 (s.residual x))]) := by
    rw [← ha]
    exact congrArg (· ++ _) hresE
  obtain ⟨e, c, n, d, o, hm⟩ :=
    State.matchSymbol_writes ({ s with resE := residuals } : State).nextPick (int9 (w.extractLsb' 0 9))
  rw [hm] at hb
  have hbpixIn : b.pixIn = x :: samples := by rw [← hb]; exact hpixIn
  refine ⟨enabled_enc_of (by rw [← ha]; exact hs) (by rw [haresE]; simp),
    enabled_pred_of (by rw [← hb]; exact hs) (by rw [← hb]; exact hrow) (by rw [hbpixIn]; simp), ?_⟩
  rw [agentStep_enc_eq haresE, hlast, execRes_not_last hsym, agentStep_pred_eq hbpixIn,
    execPix_of_cell (s := ({ b with pixIn := samples } : State).nextPick) (by rw [← hb]; exact hcell)]
  have hmatch := matchSymbol_withPred ({ s with resE := residuals } : State).nextPick
    ({ a with resE := residuals ++ [flagSym s.atLast (sym9 (s.residual x))] } : State).nextPick (int9 (w.extractLsb' 0 9))
  rw [hm] at hmatch
  rw [← hb]
  rw [← ha] at hmatch ⊢
  exact congrArg _ hmatch

/-! ### DEC and REC -/

/-- What a step of DEC did to `v`, done where REC's part is that of `r`: the residuals go after those that wait in `r`. -/
def State.pushedBeside (t r : State) (more : List Sym) : State := { t.withUnit .recon r with resD := r.resD ++ more }

/-- R81: the processing of a code reads nothing that REC owns, and of that it writes at the end of RES_D alone. -/
theorem State.DictLegal.processCode_beside {v t : State} (h : v.DictLegal) {k : Code} (ht : v.processCode k = .next t)
    (hne : t.state ≠ .error) (r : State) :
    ∃ more, t.resD = v.resD ++ more ∧ t.state = v.state ∧ t.dFin = v.dFin ∧
      (v.withUnit .recon r).processCode k = .next (t.pushedBeside r more) := by
  have not_raised : ∀ e, v.processCode k ≠ .next (v.raise e) := fun e heq => by
    rw [ht] at heq
    injection heq with heq
    rw [heq] at hne
    exact hne rfl
  rcases h.processCode_cases k with ⟨-, heq⟩ | ⟨n, -, -, -, heq⟩ | ⟨u, l, -, hl, hfits, -, -, -, -⟩
  · exact absurd heq (not_raised _)
  · exact absurd heq (not_raised _)
  · rcases hl with ⟨hk, hlen⟩ | ⟨he, hk, m, hlen, hm⟩
    · obtain ⟨b, tl, hseq⟩ := h.seq_of_valid hk
      rw [State.len_eq, hseq, Option.map_some, Option.some.injEq] at hlen
      rw [State.processCode_known hk hseq (by omega)] at ht
      injection ht with ht
      refine ⟨(b :: tl).map sym9, ?_, ?_, ?_,
        (State.processCode_known (s := v.withUnit .recon r) hk hseq (by rw [hlen]; exact hfits)).trans ?_⟩ <;> subst ht
      · split <;> rfl
      · split <;> rfl
      · split <;> rfl
      · have hupdate : (if v.sEmpty = true then v.withUnit .recon r else (v.withUnit .recon r).insert v.sCode b) =
            (if v.sEmpty = true then v else v.insert v.sCode b).withUnit .recon r := by split <;> rfl
        exact congrArg (fun u => Host.Outcome.next (({ u with hiValid := false } : State).output k (b :: tl).length (b :: tl))) hupdate
    · obtain ⟨b, tl, hseq⟩ := h.seq_of_valid (h.matchValid he)
      rw [State.len_eq, hseq, Option.map_some, Option.some.injEq] at hlen
      rw [State.processCode_special h he hk hseq (by omega)] at ht
      injection ht with ht
      have h' : (v.withUnit .recon r).DictLegal := h.congr rfl rfl rfl rfl
      refine ⟨((b :: tl) ++ [b]).map sym9, ?_, ?_, ?_,
        (State.processCode_special h' he hk hseq (by rw [hlen, ← hm]; exact hfits)).trans ?_⟩ <;> subst ht <;> rfl

/-- R81: the same of every item of CODE_IN. An EOS ends the job only where REC has finished, which `finishDecode` says. -/
theorem State.DictLegal.codeIn_beside {v t : State} (h : v.DictLegal) {w : FlagByte} (ht : performItem (.codeIn w) v = .next t)
    (hne : t.state ≠ .error) (hrow : v.row.toNat < v.rows.toNat) (hfin : v.dFin = false) (r : State) :
    ∃ more, t.resD = v.resD ++ more ∧ t.state = v.state ∧
      performItem (.codeIn w) (v.withUnit .recon r) = .next (t.pushedBeside r more).finishDecode := by
  have keep : ∀ {u : State}, u.resD = v.resD → u.state = v.state → u.dFin = v.dFin →
      ∃ more, u.resD = v.resD ++ more ∧ u.state = v.state ∧
        (.next (u.withUnit .recon r) : Result) = .next (u.pushedBeside r more).finishDecode := by
    intro u hresD hstate hufin
    refine ⟨[], by rw [hresD, List.append_nil], hstate, ?_⟩
    rw [finishDecode_of_not_fin (s := u.pushedBeside r []) (hufin.trans hfin), State.pushedBeside, List.append_nil]
    rfl
  cases hw : w.getLsbD 8 with
  | false =>
    rw [performItem_of_decode (decode_codeIn_byte hw)] at ht ⊢
    simp only [exec] at ht ⊢
    by_cases hd : v.dDrain = true
    · rw [execByte_drained hd] at ht
      injection ht with ht
      subst ht
      rw [execByte_drained (s := v.withUnit .recon r) hd]
      exact keep rfl rfl rfl
    · rw [Bool.not_eq_true] at hd
      by_cases hv : v.hiValid = true
      · rw [execByte_of_pair hd hv (codeOfBytes_toNat _ _)] at ht
        obtain ⟨more, hresD, hstate, htfin, hp⟩ := h.processCode_beside ht hne r
        refine ⟨more, hresD, hstate, ?_⟩
        rw [execByte_of_pair (s := v.withUnit .recon r) hd hv (codeOfBytes_toNat _ _),
          finishDecode_of_not_fin (s := t.pushedBeside r more) (htfin.trans hfin)]
        exact hp
      · rw [Bool.not_eq_true] at hv
        rw [execByte_held hd hv] at ht
        injection ht with ht
        subst ht
        rw [execByte_held (s := v.withUnit .recon r) hd hv]
        exact keep rfl rfl rfl
  | true =>
    rw [performItem_of_decode (decode_codeIn_eos hw)] at ht ⊢
    simp only [exec] at ht ⊢
    by_cases hd : v.dDrain = true
    · rw [execEos_drained hd, finishDecode_of_walking (s := { v with dFin := true }) hrow] at ht
      injection ht with ht
      subst ht
      refine ⟨[], (List.append_nil _).symm, rfl, ?_⟩
      rw [execEos_drained (v := v.withUnit .recon r) hd, State.pushedBeside, List.append_nil]
      rfl
    · rw [execEos_early (Bool.eq_false_iff.mpr hd)] at ht
      injection ht with ht
      rw [← ht] at hne
      exact absurd rfl hne

/-- R81 for DEC and REC: DEC pushes at the end of RES_D, REC pops at its head; an EOS that DEC takes while a sample is left
leaves the end of the job to REC. -/
theorem State.Inv.dec_recon_commute {s a b : State} (h : s.Inv) (hdec : Agent.dec.enabled s = true)
    (hrec : Agent.recon.enabled s = true) (ha : agentStep .dec s = .next a) (hne : a.state ≠ .error)
    (hb : agentStep .recon s = .next b) :
    Agent.recon.enabled a = true ∧ Agent.dec.enabled b = true ∧ agentStep .recon a = agentStep .dec b := by
  obtain ⟨hs, hfin, w, items, hcodeIn⟩ := dec_enabled hdec
  obtain ⟨-, hrow, p, residuals, hresD⟩ := recon_enabled hrec
  have hcell : s.ch.toNat < 65535 := (h.walker (.inr hs)).cell
  have hlegal : ({ s with codeIn := items } : State).nextPick.DictLegal := h.dictLegal.congr rfl rfl rfl rfl
  obtain ⟨hsched, hpick⟩ := agentStep_pick hdec ha
  rw [agentStep_dec_eq hcodeIn] at ha
  rw [agentStep_recon_eq hresD, execResd_of_cell (s := ({ s with resD := residuals } : State).nextPick) hcell] at hb
  injection hb with hb
  rw [finishDecode_of_not_fin (by exact hfin)] at hb
  have hbcodeIn : b.codeIn = w :: items := by rw [← hb]; exact hcodeIn
  obtain ⟨more, hmore, hstate, hp⟩ :=
    hlegal.codeIn_beside ha hne hrow hfin ({ b with codeIn := items } : State).nextPick
  have haresD : a.resD = p :: (residuals ++ more) := hmore.trans (congrArg (· ++ more) hresD)
  have hwrites := performItem_codeIn_writes ha
  have harow : a.row.toNat < a.rows.toNat := by
    rw [hwrites.agree State.row rfl, hwrites.agree State.rows rfl]
    exact hrow
  have hacell : a.ch.toNat < 65535 := by
    rw [hwrites.agree State.ch rfl]
    exact hcell
  refine ⟨enabled_recon_of (hstate.trans hs) harow (by rw [haresD]; simp),
    enabled_dec_of (by rw [← hb]; exact hs) (by rw [← hb]; exact hfin) (by rw [hbcodeIn]; simp), ?_⟩
  rw [agentStep_recon_eq haresD, execResd_of_cell (s := ({ a with resD := residuals ++ more } : State).nextPick) hacell,
    agentStep_dec_eq hbcodeIn]
  obtain ⟨q, hq⟩ : ∃ q : State,
      a = { s.withUnit .dec q with state := s.state, sched := s.sched.tail, pick := s.pick + 1 } :=
    ⟨a, by rw [← show a.state = s.state from hstate, ← hsched, ← hpick]; exact hwrites.eq_withUnit⟩
  subst hb
  refine Eq.trans ?_ hp.symm
  subst hq
  rfl

/-- Settles O54. -/
theorem unitsCommute : Obligations.UnitsCommute :=
  ⟨fun _ _ _ h => h.pred_enc_commute, fun _ _ _ h => h.dec_recon_commute⟩

end Sys2Proof.Machine
end

section
/-! PROOFS of the family 20_memory.md, part 3: the decoder rebuilds the encoder's dictionary one row behind it (R79), and gives back the symbols the encoder popped (R80). -/

namespace Sys2Proof.Machine

/-! ### The sequence of S after the match step -/

/-- R62: the sequence of a seed. -/
theorem State.seq_seedCode {s : State} (hn : 511 ≤ s.next.toNat) {b : Int} (h1 : -255 ≤ b) (h2 : b ≤ 255) :
    s.seq (seedCode b) = some [b] := by
  have hcode := seedCode_toNat h1 h2
  have hrow : s.dict.row (seedCode b).toNat = seedRow (seedCode b).toNat := Dict.row_seed _ (by omega)
  rw [State.seq_of_valid (by omega), chainSeq_root (by rw [hrow]; rfl), hrow, seedRow_sym (by omega), hcode]
  simp

/-- R62, R64: on a hit the sequence of S grows by the symbol. -/
theorem State.DictLegal.seq_of_hit {s : State} (h : s.DictLegal) {p : Sym} {q c : Code} {l : List Int}
    (hl : s.seq q = some l) (hit : s.lookup false q (int9 p) = some c) : s.seq c = some (l ++ [int9 p]) := by
  obtain ⟨hc, hmatch, -⟩ := State.lookup_eq_some.mp hit
  rw [State.rowCount_eq h.nextRange.2] at hc
  obtain ⟨hroot, hprefix, hsym⟩ := rowMatches_row_iff.mp hmatch
  obtain ⟨l', hl', hseq⟩ := h.seq_of_row hc hroot
  rw [hprefix, hl, Option.some.injEq] at hl'
  rw [hseq, hsym, ← hl']

/-- R62, R154: after a miss the sequence of S is the symbol alone. -/
theorem State.DictLegal.seq_of_miss {s : State} (h : s.DictLegal) {b : Int} (h1 : -255 ≤ b) (h2 : b ≤ 255)
    (miss : s.lookup s.sEmpty s.sCode b = none) : (s.matchSymbol b).seq (s.matchSymbol b).sCode = some [b] := by
  have hnext := (h.matched h1 h2).nextRange.1
  rw [State.matchSymbol_miss miss] at hnext ⊢
  exact State.seq_seedCode hnext h1 h2

/-- R62: a sequence is the same in two dictionaries that agree on the rows up to it. -/
theorem seq_congr {s t : State} {n : Nat} (hrows : ∀ c, c < n → s.dict.row c = t.dict.row c) {k : Code} (hk : k.toNat < n)
    (hs : k.toNat < s.next.toNat) (ht : k.toNat < t.next.toNat) : s.seq k = t.seq k := by
  rw [State.seq_of_valid hs, State.seq_of_valid ht]
  exact chainSeq_congr hrows _ _ hk

/-! ### In step -/

/-- R79: the first symbol of the code is what the decoder's pending row lacks. With it inserted the decoder has the
encoder's rows, the last one too. -/
theorem InStep.caught_up {e d : State} (h : InStep e d) (hd : d.DictLegal) (hS : d.sEmpty = false) {b : Int}
    (hb : e.first e.sCode = some b) :
    (d.insert d.sCode b).next = e.next ∧ ∀ c, c < e.next.toNat → e.dict.row c = (d.insert d.sCode b).dict.row c := by
  obtain ⟨hbelow, hcap⟩ := h.lag hS
  by_cases hlt : d.next.toNat < 65536
  · have hnext := hbelow hlt
    obtain ⟨hinext, hnew, hold, -⟩ := State.insert_below (p := d.sCode) (b := b) hd.dictWf hd.nextRange.1 hlt
    refine ⟨BitVec.eq_of_toNat_eq (by omega), fun c hc => ?_⟩
    by_cases hcn : c = d.next.toNat
    · obtain ⟨b', hb', hrow⟩ := h.pending hS hlt
      rw [hb, Option.some.injEq] at hb'
      rw [hcn, hrow, hnew, hb']
    · rw [hold c hcn]
      exact h.rows c (by omega)
  · have hnext := hcap (by omega)
    have hrange := hd.nextRange.2
    rw [State.insert_full hlt]
    exact ⟨BitVec.eq_of_toNat_eq (by omega), fun c hc => h.rows c (by omega)⟩

/-- R79: where the encoder's S is the row the decoder lacks, its sequence is the one of the decoder's S with its own first
symbol at the end (the special case, R170). -/
theorem InStep.seq_of_pending {e d : State} (h : InStep e d) (he : e.DictLegal) (hd : d.DictLegal) (hdS : d.sEmpty = false)
    (hcode : e.sCode.toNat = d.next.toNat) (hvalid : e.sCode.toNat < e.next.toNat) {b : Int} {tl : List Int}
    (hseq : e.seq e.sCode = some (b :: tl)) : ∃ tl₀, d.seq d.sCode = some (b :: tl₀) ∧ b :: tl = (b :: tl₀) ++ [b] := by
  have hlt := e.sCode.isLt
  have hdvalid := hd.matchValid hdS
  have hbounds := he.seq_symbols hseq b (by simp)
  obtain ⟨b', hb', hrow⟩ := h.pending hdS (by omega)
  obtain rfl : b = b' := by
    rw [State.first_eq, hseq] at hb'
    exact Option.some.inj hb'
  obtain ⟨b₀, tl₀, hdseq⟩ := hd.seq_of_valid hdvalid
  have heseq : e.seq d.sCode = some (b₀ :: tl₀) := (seq_congr h.rows hdvalid (by omega) hdvalid).trans hdseq
  obtain ⟨l, hl, hext⟩ := he.seq_of_row hvalid (by rw [hcode, hrow])
  rw [hcode, hrow] at hl hext
  rw [heseq, Option.some.injEq] at hl
  rw [hseq, ← hl, int9_sym9 (by omega) hbounds.2, Option.some.injEq] at hext
  obtain rfl : b = b₀ := (List.cons.inj hext).1
  exact ⟨tl₀, hdseq, hext⟩

/-- R79: the decoder, given the code of the encoder's S, outputs the sequence of S and then has the encoder's rows: the code
is FIRST, KNOWN, or the SPECIAL one of the row the decoder lacks. -/
theorem InStep.code_processed {e d : State} (h : InStep e d) (he : e.DictLegal) (hd : d.DictLegal) (hS : e.sEmpty = false)
    {l : List Int} (hl : e.seq e.sCode = some l) (hfits : d.outCnt.toNat + l.length ≤ d.count.toNat) :
    ∃ t : Dict, (∀ c, c < e.next.toNat → e.dict.row c = t.row c) ∧
      d.processCode e.sCode =
        .next (({ d with hiValid := false, next := e.next, dict := t } : State).output e.sCode l.length l) := by
  have hvalid := he.matchValid hS
  obtain ⟨b, tl, hseq⟩ := he.seq_of_valid hvalid
  obtain rfl : b :: tl = l := Option.some.inj (hseq.symm.trans hl)
  cases hdS : d.sEmpty with
  | true =>
    obtain ⟨hdn, hen⟩ := h.starts hdS
    have hnext : e.next = d.next := BitVec.eq_of_toNat_eq (by omega)
    refine ⟨d.dict, fun c hc => h.rows c (by omega), ?_⟩
    have hdseq := (seq_congr h.rows (k := e.sCode) (by omega) hvalid (by omega)).symm.trans hseq
    rw [State.processCode_known (by omega) hdseq hfits, hdS, hnext]
    rfl
  | false =>
    have hfirst : e.first e.sCode = some b := by rw [State.first_eq, hseq]; rfl
    obtain ⟨hnext, hrows⟩ := h.caught_up hd hdS hfirst
    refine ⟨_, hrows, ?_⟩
    by_cases hknown : e.sCode.toNat < d.next.toNat
    · have hdseq := (seq_congr h.rows hknown hvalid hknown).symm.trans hseq
      rw [State.processCode_known hknown hdseq hfits, hdS, ← hnext]
      rfl
    · have hlag := h.lag hdS
      have hspecial : e.sCode.toNat = d.next.toNat := by have := e.sCode.isLt; omega
      obtain ⟨tl₀, hdseq, hext⟩ := h.seq_of_pending he hd hdS hspecial hvalid hseq
      have hlen : (b :: tl).length = (b :: tl₀).length + 1 := by rw [hext]; simp
      rw [State.processCode_special hd hdS hspecial hdseq (by rw [← hlen]; exact hfits), ← hnext, hlen, hext]
      rfl

/-- R79: a hit leaves the two in step: S keeps its first symbol. -/
theorem InStep.of_hit {e d : State} (h : InStep e d) (he : e.DictLegal) (hS : e.sEmpty = false) {p : Sym} {c : Code}
    (hit : e.lookup e.sEmpty e.sCode (int9 p) = some c) : InStep (e.matchSymbol (int9 p)) d := by
  obtain ⟨b, tl, hseq⟩ := he.seq_of_valid (he.matchValid hS)
  rw [State.matchSymbol_hit hit]
  rw [hS] at hit
  refine ⟨h.starts, fun _ => rfl, h.lag, h.rows, fun hdS hlt => ?_⟩
  obtain ⟨b', hb', hrow⟩ := h.pending hdS hlt
  refine ⟨b', ?_, hrow⟩
  have hfirst : e.first c = e.first e.sCode := by
    rw [State.first_eq, State.first_eq, he.seq_of_hit hseq hit, hseq]
    rfl
  exact hfirst.trans hb'

/-- R79: a decoder with the encoder's rows and its code is in step after the encoder's miss, which adds the row the decoder
lacks. -/
theorem InStep.of_miss {e d : State} (he : e.DictLegal) (hS : e.sEmpty = false) {b : Int} (h1 : -255 ≤ b) (h2 : b ≤ 255)
    (miss : e.lookup e.sEmpty e.sCode b = none) (hdS : d.sEmpty = false) (hcode : d.sCode = e.sCode) (hnext : d.next = e.next)
    (hrows : ∀ c, c < e.next.toNat → e.dict.row c = d.dict.row c) : InStep (e.matchSymbol b) d := by
  have hrange := he.nextRange
  have hgrow : e.next.toNat < 65536 →
      (e.insert e.sCode b).next.toNat = e.next.toNat + 1 ∧
      (e.insert e.sCode b).dict.row e.next.toNat = { root := false, prefixCode := e.sCode, sym := sym9 b } := fun hlt => by
    obtain ⟨hgrown, hnew, -, -⟩ := State.insert_below (p := e.sCode) (b := b) he.dictWf hrange.1 hlt
    exact ⟨hgrown, hnew⟩
  have hfull : 65536 ≤ e.next.toNat → (e.insert e.sCode b).next = e.next := fun hle => by rw [State.insert_full (by omega)]
  rw [State.matchSymbol_miss miss]
  refine ⟨fun ht => by simp [hdS] at ht, fun _ => hS, fun _ => ?_, fun c hc => ?_, fun _ hlt => ?_⟩
  · rw [hnext]
    exact ⟨fun hlt => (hgrow hlt).1, fun hle => (congrArg BitVec.toNat (hfull hle)).trans (by omega)⟩
  · rw [hnext] at hc
    exact (e.insert_row_lt e.sCode b hc).trans (hrows c hc)
  · rw [hnext] at hlt ⊢
    refine ⟨b, ?_, (hgrow hlt).2.trans (by rw [hcode])⟩
    have hseq := he.seq_of_miss h1 h2 miss
    rw [State.matchSymbol_miss miss] at hseq
    rw [State.first_eq, hseq]
    rfl

/-- What the decoder `d` is after the two bytes of the code of the encoder's S, whose sequence is `l`: it has pushed `l`, and
it has the encoder's rows. -/
structure Received (e d d' : State) (l : List Int) : Prop where
  resD : d'.resD = d.resD ++ l.map sym9
  outCnt : d'.outCnt.toNat = d.outCnt.toNat + l.length
  drain : d'.dDrain = true ↔ d'.outCnt = d.count
  hiValid : d'.hiValid = false
  sEmpty : d'.sEmpty = false
  sCode : d'.sCode = e.sCode
  next : d'.next = e.next
  rows : ∀ c, c < e.next.toNat → e.dict.row c = d'.dict.row c
  legal : d'.DictLegal
  writes : WritesOnly .dec d d'
  state : d'.state = d.state
  err : d'.err = d.err

/-- R73, R79: the two bytes of the code, most significant first. -/
theorem InStep.code_received {e d : State} (h : InStep e d) (he : e.DictLegal) (hd : d.DictLegal) (hS : e.sEmpty = false)
    (hdrain : d.dDrain = false) (hheld : d.hiValid = false) {l : List Int} (hl : e.seq e.sCode = some l)
    (hfits : d.outCnt.toNat + l.length ≤ d.count.toNat) :
    ∃ d₁ d' : State, exec (.byte (codeHigh e.sCode)) d = .next d₁ ∧ exec (.byte (codeLow e.sCode)) d₁ = .next d' ∧
      Received e d d' l := by
  have hstep : InStep e ({ d with hiByte := codeHigh e.sCode, hiValid := true } : State) :=
    ⟨h.starts, h.holds, h.lag, h.rows, h.pending⟩
  have hlegal : ({ d with hiByte := codeHigh e.sCode, hiValid := true } : State).DictLegal := hd.congr rfl rfl rfl rfl
  obtain ⟨t, hrows, hp⟩ := hstep.code_processed he hlegal hS hl hfits
  have hpair := execByte_of_pair (s := { d with hiByte := codeHigh e.sCode, hiValid := true }) (n := codeLow e.sCode) hdrain rfl
    ((congrArg BitVec.toNat (codeOfBytes_high_low e.sCode)).symm.trans (codeOfBytes_toNat _ _))
  exact ⟨_, _, execByte_held hdrain hheld, hpair.trans hp, {
    resD := rfl
    outCnt := State.output_count hfits
    drain := State.output_drain hdrain hfits
    hiValid := rfl
    sEmpty := rfl
    sCode := rfl
    next := rfl
    rows := hrows
    legal := hlegal.processed hp
    writes := rfl
    state := rfl
    err := rfl }⟩

/-- R102: what the symbol hypotheses of the statements say. -/
theorem symbol_bounds {p : Sym} (hp : p ≠ 0x100#9) : -255 ≤ int9 p ∧ int9 p ≤ 255 :=
  ⟨(isSymbol_iff p).mp (decide_eq_true hp), (int9_range p).2⟩

/-- Settles O56. -/
theorem decoderStaysInStep : Obligations.DecoderStaysInStep := by
  intro e d e' p tl he hd h hS hp hdrain hheld hseq hfits hexec
  obtain ⟨h1, h2⟩ := symbol_bounds hp
  rw [exec, execRes_not_last (decide_eq_true hp)] at hexec
  injection hexec with hexec
  subst hexec
  refine ⟨fun hit => ?_, fun miss => ?_⟩
  · obtain ⟨c, hc⟩ := Option.ne_none_iff_exists'.mp hit
    exact h.of_hit he hS (by rw [hS]; exact hc)
  · obtain ⟨d₁, d', hhigh, hlow, hrec⟩ := h.code_received he hd hS hdrain hheld hseq hfits
    exact ⟨d₁, d', hhigh, hlow, hrec.resD,
      .of_miss he hS h1 h2 (by rw [hS]; exact miss) hrec.sEmpty hrec.sCode hrec.next hrec.rows⟩

end Sys2Proof.Machine
end

section
/-! PROOFS of the family 20_memory.md, part 4: the code stream of a list of symbols, decoded, is the list (R80). -/

namespace Sys2Proof.Machine

/-! ### Lists of transactions -/

theorem execAll_append {is js : List Instr} {s t : State} (h : execAll is s = .next t) : execAll (is ++ js) s = execAll js t := by
  induction is generalizing s with
  | nil =>
    injection h with h
    rw [h]
    rfl
  | cons i is ih =>
    simp only [List.cons_append, execAll] at h ⊢
    split at h
    · exact ih h
    · cases h
    · cases h

theorem execAll_cons {i : Instr} {is : List Instr} {s t : State} (h : exec i s = .next t) :
    execAll (i :: is) s = execAll is t := by
  rw [execAll, h]

/-- The match steps of a list of symbols (R154). -/
def State.matchAll (s : State) (ps : List Sym) : State := ps.foldl (fun u p => u.matchSymbol (int9 p)) s

theorem State.matchAll_cons (s : State) (p : Sym) (ps : List Sym) :
    s.matchAll (p :: ps) = (s.matchSymbol (int9 p)).matchAll ps := rfl

theorem matchAll_writesOnly (s : State) (ps : List Sym) : WritesOnly .enc s (s.matchAll ps) := by
  induction ps generalizing s with
  | nil => exact .refl _ _
  | cons p ps ih => exact (matchSymbol_writesOnly s _).trans (ih _)

/-- R154, R155: the state after an encode job that has popped the symbols `ps`. -/
def State.encodedAll (s : State) (ps : List Sym) : State := (s.matchAll ps).finishEncode true

theorem encodedAll_state (s : State) (ps : List Sym) : (s.encodedAll ps).state = .done := rfl

theorem encodedAll_writesOnly (s : State) (ps : List Sym) : WritesOnly .enc s (s.encodedAll ps) :=
  (matchAll_writesOnly s ps).trans rfl

/-- R154: the match steps keep the dictionary legal. -/
theorem State.DictLegal.matchedAll {s : State} (h : s.DictLegal) {ps : List Sym} (hsym : ∀ p ∈ ps, p ≠ 0x100#9) :
    (s.matchAll ps).DictLegal := by
  induction ps generalizing s with
  | nil => exact h
  | cons p ps ih =>
    obtain ⟨h1, h2⟩ := symbol_bounds (hsym p (by simp))
    exact ih (h.matched h1 h2) fun q hq => hsym q (by simp [hq])

theorem State.DictLegal.encodedAll {s : State} (h : s.DictLegal) {ps : List Sym} (hsym : ∀ p ∈ ps, p ≠ 0x100#9) :
    (s.encodedAll ps).DictLegal := (h.matchedAll hsym).congr rfl rfl rfl rfl

/-- R154, R155: RES of the symbols in order, the last with `last`, is their match steps and the end of the job. -/
theorem execAll_res {ps : List Sym} {p : Sym} (hsym : ∀ q ∈ ps ++ [p], q ≠ 0x100#9) (e : State) :
    execAll (ps.map (Instr.res false) ++ [.res true p]) e = .next (e.encodedAll (ps ++ [p])) := by
  induction ps generalizing e with
  | nil => exact execAll_cons (execRes_of_symbol (decide_eq_true (hsym p (by simp))) true e)
  | cons q qs ih =>
    have hstep : exec (.res false q) e = .next (e.matchSymbol (int9 q)) :=
      execRes_not_last (decide_eq_true (hsym q (by simp))) e
    exact (execAll_cons hstep).trans (ih (fun x hx => hsym x (by simp [hx])) _)

/-! ### The items of a code -/

/-- The BYTE that takes the byte of an item of CODE_OUT (R99, R166). -/
def byteOf (x : FlagByte) : Instr := .byte (x.extractLsb' 0 8)

/-- R152: the items of a code. -/
def itemsOf (c : Code) (l : Bool) : List FlagByte := [flagByte false (codeHigh c), flagByte l (codeLow c)]

theorem byteOf_itemsOf (c : Code) (l : Bool) : (itemsOf c l).map byteOf = [.byte (codeHigh c), .byte (codeLow c)] := by
  simp [itemsOf, byteOf]

/-! ### Encoder and decoder linked -/

/-- R79: a legal encoder and a legal decoder in step, the decoder between two codes with residuals to come, and the symbols
`l` in the encoder's S, which the decoder has not seen yet. -/
structure Linked (e d : State) (l : List Int) : Prop where
  encLegal : e.DictLegal
  decLegal : d.DictLegal
  inStep : InStep e d
  nonempty : e.sEmpty = false
  ahead : e.seq e.sCode = some l
  between : d.hiValid = false
  goesOn : d.dDrain = false

/-- R79: the decoder takes the items of the code of S. -/
theorem Linked.code_received {e d : State} {l : List Int} (h : Linked e d l) (hfits : d.outCnt.toNat + l.length ≤ d.count.toNat)
    (last : Bool) : ∃ d' : State, execAll ((itemsOf e.sCode last).map byteOf) d = .next d' ∧ Received e d d' l := by
  obtain ⟨d₁, d', hhigh, hlow, hrec⟩ :=
    h.inStep.code_received h.encLegal h.decLegal h.nonempty h.goesOn h.between h.ahead hfits
  refine ⟨d', ?_, hrec⟩
  rw [byteOf_itemsOf, execAll_cons hhigh, execAll_cons hlow]
  rfl

/-- From `e`, `d` to `e'`, `d'` the encoder has popped the symbols `ps`, and the decoder has taken the items emitted on the
way. Popped and not yet pushed are the symbols of S: `l` before, `l'` after. -/
structure Relayed (e d e' d' : State) (l l' : List Int) (ps : List Sym) : Prop where
  stream : ∃ items, e'.codeOut = e.codeOut ++ items ∧ execAll (items.map byteOf) d = .next d'
  linked : Linked e' d' l'
  symbols : d'.resD ++ l'.map sym9 = d.resD ++ l.map sym9 ++ ps
  counted : d'.outCnt.toNat + l'.length = d.outCnt.toNat + l.length + ps.length
  writes : WritesOnly .dec d d'
  state : d'.state = d.state
  err : d'.err = d.err

theorem Linked.relayed_nil {e d : State} {l : List Int} (h : Linked e d l) : Relayed e d e d l l [] where
  stream := ⟨[], by simp, rfl⟩
  linked := h
  symbols := by simp
  counted := by simp
  writes := .refl _ _
  state := rfl
  err := rfl

theorem Relayed.trans {e d e' d' e'' d'' : State} {l l' l'' : List Int} {ps qs : List Sym} (h : Relayed e d e' d' l l' ps)
    (h' : Relayed e' d' e'' d'' l' l'' qs) : Relayed e d e'' d'' l l'' (ps ++ qs) := by
  obtain ⟨items, hout, hexec⟩ := h.stream
  obtain ⟨items', hout', hexec'⟩ := h'.stream
  exact {
    stream := ⟨items ++ items', by rw [hout', hout, List.append_assoc], by rw [List.map_append, execAll_append hexec, hexec']⟩
    linked := h'.linked
    symbols := by rw [h'.symbols, h.symbols, List.append_assoc]
    counted := by rw [h'.counted, h.counted, List.length_append, Nat.add_assoc]
    writes := h.writes.trans h'.writes
    state := h'.state.trans h.state
    err := h'.err.trans h.err }

/-- R157: the first symbol of a job hits its seed and emits nothing; encoder and decoder are in step with the seeds alone. -/
theorem relayed_first {e d : State} (heS : e.sEmpty = true) (hen : e.next = 511) (hewf : e.dict.wf = true)
    (hdS : d.sEmpty = true) (hdn : d.next = 511) (hdwf : d.dict.wf = true) (hheld : d.hiValid = false) (hdrain : d.dDrain = false)
    {p : Sym} (hp : p ≠ 0x100#9) : Relayed e d (e.matchSymbol (int9 p)) d [] [int9 p] [p] := by
  obtain ⟨h1, h2⟩ := symbol_bounds hp
  have helegal : e.DictLegal := .of_seeds heS hen hewf
  have hdlegal : d.DictLegal := .of_seeds hdS hdn hdwf
  have hit : e.lookup e.sEmpty e.sCode (int9 p) = some (seedCode (int9 p)) := by
    rw [heS]
    exact State.lookup_empty _ helegal.nextRange.1 h1 h2
  have hmatched := helegal.matched h1 h2
  rw [State.matchSymbol_hit hit] at hmatched ⊢
  have hstep : InStep ({ e with sEmpty := false, sCode := seedCode (int9 p) } : State) d := by
    refine ⟨fun _ => ⟨by rw [hdn]; rfl, congrArg BitVec.toNat hen⟩, fun _ => rfl, fun ht => by simp [hdS] at ht, fun c hc => ?_,
      fun ht => by simp [hdS] at ht⟩
    have hseed : c < 511 := by simpa [hdn] using hc
    exact (Dict.row_seed _ hseed).trans (Dict.row_seed _ hseed).symm
  exact {
    stream := ⟨[], by simp, rfl⟩
    linked := ⟨hmatched, hdlegal, hstep, rfl, State.seq_seedCode hmatched.nextRange.1 h1 h2, hheld, hdrain⟩
    symbols := by simp
    counted := by simp
    writes := .refl _ _
    state := rfl
    err := rfl }

/-- R79: the next symbol. A hit makes S longer; a miss emits the code of S, which the decoder takes. -/
theorem Linked.relayed_symbol {e d : State} {l : List Int} (h : Linked e d l) (hfits : d.outCnt.toNat + l.length < d.count.toNat)
    {p : Sym} (hp : p ≠ 0x100#9) : ∃ d' l', Relayed e d (e.matchSymbol (int9 p)) d' l l' [p] := by
  obtain ⟨h1, h2⟩ := symbol_bounds hp
  have hmatched := h.encLegal.matched h1 h2
  cases hl : e.lookup e.sEmpty e.sCode (int9 p) with
  | some c =>
    have hstep := h.inStep.of_hit h.encLegal h.nonempty hl
    rw [State.matchSymbol_hit hl] at hmatched hstep ⊢
    rw [h.nonempty] at hl
    exact ⟨d, l ++ [int9 p], {
      stream := ⟨[], by simp, rfl⟩
      linked := ⟨hmatched, h.decLegal, hstep, rfl, h.encLegal.seq_of_hit h.ahead hl, h.between, h.goesOn⟩
      symbols := by simp
      counted := by rw [List.length_append]; rfl
      writes := .refl _ _
      state := rfl
      err := rfl }⟩
  | none =>
    obtain ⟨d', hexec, hrec⟩ := h.code_received (by omega) false
    have hstep := InStep.of_miss h.encLegal h.nonempty h1 h2 hl hrec.sEmpty hrec.sCode hrec.next hrec.rows
    have hdrain : d'.dDrain = false := by
      rw [Bool.eq_false_iff, ne_eq, hrec.drain, ← BitVec.toNat_inj, hrec.outCnt]
      omega
    have hS : (e.matchSymbol (int9 p)).sEmpty = false := by rw [State.matchSymbol_miss hl]; exact h.nonempty
    exact ⟨d', [int9 p], {
      stream := ⟨itemsOf e.sCode false, by rw [State.matchSymbol_miss hl]; rfl, hexec⟩
      linked := ⟨hmatched, hrec.legal, hstep, hS, h.encLegal.seq_of_miss h1 h2 hl, hrec.hiValid, hdrain⟩
      symbols := by rw [hrec.resD]; simp
      counted := by rw [hrec.outCnt]; rfl
      writes := hrec.writes
      state := hrec.state
      err := hrec.err }⟩

/-- R79: a list of symbols. -/
theorem Linked.relayed_symbols {e d : State} {l : List Int} (h : Linked e d l) {ps : List Sym} (hsym : ∀ p ∈ ps, p ≠ 0x100#9)
    (hfits : d.outCnt.toNat + l.length + ps.length ≤ d.count.toNat) : ∃ d' l', Relayed e d (e.matchAll ps) d' l l' ps := by
  induction ps generalizing e d l with
  | nil => exact ⟨d, l, h.relayed_nil⟩
  | cons p ps ih =>
    rw [List.length_cons] at hfits
    obtain ⟨d₁, l₁, h₁⟩ := h.relayed_symbol (by omega) (hsym p (by simp))
    have hcounted := h₁.counted
    rw [List.length_singleton] at hcounted
    have hcount : d₁.count = d.count := h₁.writes.agree State.count rfl
    obtain ⟨d', l', h'⟩ := ih h₁.linked (fun q hq => hsym q (by simp [hq])) (by rw [hcount]; omega)
    exact ⟨d', l', h₁.trans h'⟩

/-- R80: what an encode job from the state `e` that popped the symbols `ps` has emitted, and what a decode job makes of it. -/
structure Inverted (e d e' d' : State) (items : List FlagByte) (ps : List Sym) : Prop where
  codeOut : e'.codeOut = e.codeOut ++ items
  decoded : execAll (items.map byteOf) d = .next d'
  resD : d'.resD = d.resD ++ ps
  outCnt : d'.outCnt = d'.count
  dDrain : d'.dDrain = true
  writes : WritesOnly .dec d d'
  state : d'.state = d.state
  err : d'.err = d.err

/-- R80: from fresh dictionaries, with COUNT the number of symbols. -/
theorem stream_inverted {e d : State} (heS : e.sEmpty = true) (hen : e.next = 511) (hewf : e.dict.wf = true)
    (hdS : d.sEmpty = true) (hdn : d.next = 511) (hdwf : d.dict.wf = true) (hheld : d.hiValid = false) (hdrain : d.dDrain = false)
    (hzero : d.outCnt = 0) {ps : List Sym} (hne : ps ≠ []) (hcount : d.count.toNat = ps.length) (hsym : ∀ p ∈ ps, p ≠ 0x100#9) :
    ∃ d' items, Inverted e d (e.encodedAll ps) d' items ps := by
  obtain ⟨p, qs, rfl⟩ := List.exists_cons_of_ne_nil hne
  rw [List.length_cons] at hcount
  have hout : d.outCnt.toNat = 0 := by rw [hzero]; rfl
  have hfirst := relayed_first heS hen hewf hdS hdn hdwf hheld hdrain (hsym p (by simp))
  obtain ⟨d₁, l, hrest⟩ := hfirst.linked.relayed_symbols (ps := qs) (fun q hq => hsym q (by simp [hq]))
    (by rw [List.length_singleton]; omega)
  have hall := hfirst.trans hrest
  have hcounted := hall.counted
  simp only [List.length_nil, List.singleton_append, List.length_cons] at hcounted
  have hcount₁ : d₁.count = d.count := hall.writes.agree State.count rfl
  obtain ⟨items, hitems, hexec⟩ := hall.stream
  obtain ⟨d', hexec', hrec⟩ := hrest.linked.code_received (by rw [hcount₁]; omega) true
  have hend : d'.outCnt = d₁.count := by
    apply BitVec.eq_of_toNat_eq
    rw [hrec.outCnt, hcount₁]
    omega
  exact ⟨d', items ++ itemsOf ((e.matchSymbol (int9 p)).matchAll qs).sCode true, {
    codeOut := by
      rw [← List.append_assoc, ← hitems]
      rfl
    decoded := by rw [List.map_append, execAll_append hexec, hexec']
    resD := by rw [hrec.resD, hall.symbols]; simp
    outCnt := hend.trans (hrec.writes.agree State.count rfl).symm
    dDrain := hrec.drain.mpr hend
    writes := hall.writes.trans hrec.writes
    state := hrec.state.trans hall.state
    err := hrec.err.trans hall.err }⟩

/-- Settles O57. -/
theorem decoderInvertsEncoder : Obligations.DecoderInvertsEncoder := by
  intro ps p e d heS hen hewf hdS hdn hdwf hheld hdrain hzero hcount hsym
  obtain ⟨d', items, h⟩ := stream_inverted heS hen hewf hdS hdn hdwf hheld hdrain hzero (ps := ps ++ [p]) (by simp)
    (by simpa using hcount) hsym
  exact ⟨_, d', items, execAll_res hsym e, rfl, h.codeOut, h.decoded, by rw [h.resD, List.append_assoc], h.outCnt, h.dDrain,
    h.state, h.err⟩

end Sys2Proof.Machine
end

section
/-! PROOFS of the family 20_memory.md, part 5: predict, encode, decode and reconstruct give every image back (95_test_vectors.md P1, R80, R189). -/

namespace Sys2Proof.Machine

/-! ### One sample -/

/-- R141: the state after PIX x. -/
def State.afterPix (s : State) (x : Byte) : State :=
  ({ s with
    left := s.left.write s.ch.toNat x
    resE := s.resE ++ [flagSym s.atLast (sym9 (s.residual x))] } : State).advance

/-- R186: the state after RESD p. -/
def State.afterResd (s : State) (p : Sym) : State :=
  ({ s with
    left := s.left.write s.ch.toNat (s.sample (int9 p))
    pixOut := s.pixOut ++ [flagByte s.atLast (s.sample (int9 p))] } : State).advance.finishDecode

theorem exec_pix {s : State} (hcell : s.ch.toNat < 65535) (x : Byte) : exec (.pix x) s = .next (s.afterPix x) :=
  execPix_of_cell hcell x

theorem exec_resd {s : State} (hcell : s.ch.toNat < 65535) (p : Sym) : exec (.resd p) s = .next (s.afterResd p) :=
  execResd_of_cell hcell p

/-- R189: the two states have the same dimensions and stand at the same position, and the left neighbours of the samples to
come in this row are the same. -/
structure SameWalk (s u : State) : Prop where
  rows : u.rows = s.rows
  cols : u.cols = s.cols
  chans : u.chans = s.chans
  row : u.row = s.row
  col : u.col = s.col
  ch : u.ch = s.ch
  cells : ∀ k, k < s.chans.toNat → s.col ≠ 0 ∨ k < s.ch.toNat → u.left.read k = s.left.read k

/-- R142, R188: the residual of a sample, reconstructed at the same place, is the sample. -/
theorem SameWalk.sample_residual {s u : State} (h : SameWalk s u) (hch : s.ch.toNat < s.chans.toNat) (x : Byte) :
    u.sample (int9 (sym9 (s.residual x))) = x := by
  obtain ⟨h1, h2⟩ := s.residual_bounds x
  rw [int9_sym9 (by omega) h2, State.sample, State.residual, h.col, h.ch]
  split
  · exact mod256_of_range rfl
  · rename_i hcol
    rw [h.cells _ hch (.inl hcol)]
    exact mod256_of_range (by omega)

/-- R67, R31: after the same sample is written at LEFT[CH], and `advance()`, the left neighbours are those from before and
the one written. -/
theorem SameWalk.advanced {s u : State} (h : SameWalk s u) (hs : s.left.wf = true) (hu : u.left.wf = true) (x : Byte) :
    SameWalk ({ s with left := s.left.write s.ch.toNat x } : State).advance
      ({ u with left := u.left.write u.ch.toNat x } : State).advance := by
  have hchWraps : u.chWraps = s.chWraps := by rw [State.chWraps, State.chWraps, h.ch, h.chans]
  have hcolWraps : u.colWraps = s.colWraps := by rw [State.colWraps, State.colWraps, hchWraps, h.col, h.cols]
  refine ⟨h.rows, h.cols, h.chans, ?_, ?_, ?_, fun k hk hlive => ?_⟩
  · show (if u.colWraps then u.row + 1 else u.row) = if s.colWraps then s.row + 1 else s.row
    rw [hcolWraps, h.row]
  · show (if u.colWraps then 0 else if u.chWraps then u.col + 1 else u.col) =
      if s.colWraps then 0 else if s.chWraps then s.col + 1 else s.col
    rw [hcolWraps, hchWraps, h.col]
  · show (if u.chWraps then 0 else u.ch + 1) = if s.chWraps then 0 else s.ch + 1
    rw [hchWraps, h.ch]
  · show (u.left.write u.ch.toNat x).read k = (s.left.write s.ch.toNat x).read k
    replace hk : k < s.chans.toNat := hk
    rw [h.ch]
    by_cases hkch : k = s.ch.toNat
    · rw [hkch, Memory.read_write_same _ _ hs, Memory.read_write_same _ _ hu]
    · rw [Memory.read_write_other _ _ hkch, Memory.read_write_other _ _ hkch]
      refine h.cells k hk ?_
      replace hlive : s.advance.col ≠ 0 ∨ k < s.advance.ch.toNat := hlive
      rw [advance_col, advance_ch] at hlive
      by_cases hwraps : s.chWraps = true
      · have hlast := chWraps_iff.mp hwraps
        exact .inr (by omega)
      · have hno : ¬ s.colWraps = true := fun hc => hwraps (by simp [State.colWraps] at hc; exact hc.1)
        rw [if_neg hno, if_neg hwraps, if_neg hwraps] at hlive
        have hle : (s.ch + 1).toNat ≤ s.ch.toNat + 1 := by
          rw [BitVec.toNat_add]
          exact Nat.mod_le _ _
        exact hlive.imp_right fun hlt => by omega

/-! ### An image -/

/-- The reconstructor `u` follows the predictor `s`: it stands where `s` stands, all residuals have come (R176), and it has
completed its job if the walk is at its end. -/
structure Follows (s u : State) : Prop where
  walk : SameWalk s u
  leftWf : u.left.wf = true
  dFin : u.dFin = true
  ended : u.row = u.rows → u.state = .done

theorem finishDecode_done {s : State} (hf : s.dFin = true) (hrow : s.row = s.rows) : s.finishDecode.state = .done := by
  simp [State.walkDone, hf, hrow]

/-- R189: for one sample. -/
theorem Follows.reconstructed {s u : State} (h : Follows s u) (hw : s.WalkerLegal) (hwf : s.left.wf = true) (x : Byte) :
    exec (.resd (sym9 (s.residual x))) u = .next (u.afterResd (sym9 (s.residual x))) ∧
    (∃ last, (u.afterResd (sym9 (s.residual x))).pixOut = u.pixOut ++ [flagByte last x]) ∧
    Follows (s.afterPix x) (u.afterResd (sym9 (s.residual x))) := by
  have hcell : u.ch.toNat < 65535 := by rw [h.walk.ch]; exact hw.cell
  have hback := h.walk.sample_residual hw.chLt x
  obtain ⟨hrows, hcols, hchans, hrow, hcol, hch, hcells⟩ := h.walk.advanced hwf h.leftWf x
  refine ⟨exec_resd hcell _, ⟨u.atLast, ?_⟩, ?_⟩
  · rw [State.afterResd, hback]
    rfl
  · rw [State.afterResd, hback]
    exact ⟨⟨hrows, hcols, hchans, hrow, hcol, hch, hcells⟩, Memory.wf_write h.leftWf hcell, h.dFin,
      fun hend => finishDecode_done h.dFin hend⟩

/-- What PRED makes of the samples `xs`: it pushes the residuals `ws`, and a reconstructor that follows it gives `xs` back. -/
structure Predicted (s s' : State) (xs : List Byte) (ws : List FlagSym) : Prop where
  exec : execAll (xs.map Instr.pix) s = .next s'
  inv : s'.Inv
  writes : WritesOnly .pred s s'
  position : s'.position = s.position + xs.length
  resE : s'.resE = s.resE ++ ws
  length : ws.length = xs.length
  back : ∀ u, Follows s u → ∃ u' samples, execAll (ws.map fun w => Instr.resd (w.extractLsb' 0 9)) u = .next u' ∧
    u'.pixOut = u.pixOut ++ samples ∧ samples.map (fun x => x.extractLsb' 0 8) = xs ∧ Follows s' u'

theorem State.Inv.afterPix {s : State} (h : s.Inv) (hs : s.state = .enc) (hrow : s.row.toNat < s.rows.toNat) (x : Byte) :
    (s.afterPix x).Inv := h.predicted hs hrow x

/-- R141, R189: by induction on the samples, as long as there are positions for them. -/
theorem State.Inv.image_predicted {s : State} (h : s.Inv) (hs : s.state = .enc) {xs : List Byte}
    (hfits : s.position + xs.length ≤ s.rows.toNat * s.cols.toNat * s.chans.toNat) : ∃ s' ws, Predicted s s' xs ws := by
  induction xs generalizing s with
  | nil =>
    exact ⟨s, [], {
      exec := rfl
      inv := h
      writes := .refl _ _
      position := rfl
      resE := (List.append_nil _).symm
      length := rfl
      back := fun u hu => ⟨u, [], rfl, (List.append_nil _).symm, rfl, hu⟩ }⟩
  | cons x xs ih =>
    rw [List.length_cons] at hfits
    have hw := h.walker (.inl hs)
    have hrow := (row_lt_iff_position_lt hw).mpr (by omega)
    have hpos : (s.afterPix x).position = s.position + 1 := by
      rw [← advance_position hw hrow]
      rfl
    obtain ⟨s', ws, hrest⟩ := ih (s := s.afterPix x) (h.afterPix hs hrow x) hs (by
      rw [hpos]
      show _ ≤ s.rows.toNat * s.cols.toNat * s.chans.toNat
      omega)
    refine ⟨s', flagSym s.atLast (sym9 (s.residual x)) :: ws, {
      exec := (execAll_cons (exec_pix hw.cell x)).trans hrest.exec
      inv := hrest.inv
      writes := WritesOnly.trans (t := s.afterPix x) rfl hrest.writes
      position := by rw [hrest.position, hpos, List.length_cons]; omega
      resE := hrest.resE.trans (List.append_assoc ..)
      length := congrArg (· + 1) hrest.length
      back := fun u hu => ?_ }⟩
    obtain ⟨hexec, ⟨last, hout⟩, hnext⟩ := hu.reconstructed hw h.leftWf x
    obtain ⟨u', samples, hexec', hout', hback, hend⟩ := hrest.back _ hnext
    refine ⟨u', flagByte last x :: samples, ?_, by rw [hout', hout, List.append_assoc]; rfl, ?_, hend⟩
    · rw [List.map_cons, flagSym_sym]
      exact (execAll_cons hexec).trans hexec'
    · rw [List.map_cons, flagByte_byte, hback]

/-! ### The jobs -/

theorem zeroDimension_of_dims {s : State} (hdims : s.rows ≠ 0 ∧ s.cols ≠ 0 ∧ s.chans ≠ 0) : s.zeroDimension = false := by
  simpa [State.zeroDimension] using hdims

/-- R43 item 7. -/
theorem State.Inv.dims_ne_zero {s : State} (h : s.Inv) (hrun : s.Running) : s.rows ≠ 0 ∧ s.cols ≠ 0 ∧ s.chans ≠ 0 := by
  have ne : ∀ {n : Dim}, 1 ≤ n.toNat → n ≠ 0 := fun hpos hzero => by
    rw [hzero] at hpos
    exact absurd hpos (by decide)
  obtain ⟨hrows, hcols, hchans, -⟩ := h.jobDims hrun
  exact ⟨ne hrows, ne hcols, ne hchans⟩

/-- R124: outside a job, with no dimension zero, a START is performed. -/
theorem guardStart_started {s u : State} (hs : s.state = .idle ∨ s.state = .done)
    (hdims : s.rows ≠ 0 ∧ s.cols ≠ 0 ∧ s.chans ≠ 0) : s.guardStart u = u := by
  rcases hs with hs | hs <;> simp [State.guardStart, State.busy, hs, zeroDimension_of_dims hdims]

/-- R129, R176: START_DEC, the bytes of the code stream, EOS. No sample has been reconstructed yet, so the job goes on. -/
theorem Inverted.decode_job {e₀ e d : State} {items : List FlagByte} {ps : List Sym} (h : Inverted e₀ e.startDecode e d items ps)
    (hdone : e.state = .done) (hdims : e.rows ≠ 0 ∧ e.cols ≠ 0 ∧ e.chans ≠ 0) :
    execAll (.startDec :: items.map byteOf ++ [.eos]) e = .next { d with dFin := true } := by
  have hstart : exec .startDec e = .next e.startDecode := congrArg Host.Outcome.next (guardStart_started (.inr hdone) hdims)
  have hwalking : d.row.toNat < d.rows.toNat := by
    rw [h.writes.agree State.row rfl, h.writes.agree State.rows rfl]
    exact BitVec.toNat_pos_of_ne_zero hdims.1
  have heos : exec .eos d = .next { d with dFin := true } :=
    (execEos_drained h.dDrain).trans (congrArg Host.Outcome.next (finishDecode_of_walking (s := { d with dFin := true }) hwalking))
  exact (execAll_append ((execAll_cons hstart).trans h.decoded)).trans (execAll_cons heos)

/-- R97, R146 (f): the residuals of a whole image, as the transactions of ENC: only the final one has `last`. -/
theorem State.Inv.residuals_of_image {p : State} (h : p.Inv) (hs : p.state = .enc) (hrow : p.row = p.rows) :
    ∃ (ps : List Sym) (q : Sym), p.resE.map (fun w => w.extractLsb' 0 9) = ps ++ [q] ∧
      p.resE.map decodeRese = ps.map (Instr.res false) ++ [.res true q] := by
  obtain ⟨front, w, hresE, hlast, hfront⟩ := h.lastThere hs hrow
  refine ⟨front.map (fun w => w.extractLsb' 0 9), w.extractLsb' 0 9, by rw [hresE, List.map_append]; rfl, ?_⟩
  rw [hresE, List.map_append, List.map_map]
  congr 1
  · exact List.map_congr_left fun v hv => congrArg (Instr.res · _) (hfront v hv)
  · exact congrArg (fun l => [Instr.res l (w.extractLsb' 0 9)]) hlast

/-- What ENC and DEC make of the residuals of an image, from the state `p` in which PRED has pushed them all: the items
pushed on CODE_OUT give a decode job the same residuals, from the first position on, in a LEFT that neither has touched. -/
structure ImageCoded (p e d : State) (items : List FlagByte) : Prop where
  encoded : execAll (p.resE.map decodeRese) { p with resE := [] } = .next e
  done : e.state = .done
  codeOut : e.codeOut = p.codeOut ++ items
  decoded : execAll (.startDec :: items.map byteOf ++ [.eos]) e = .next d
  resD : d.resD = p.resE.map fun w => w.extractLsb' 0 9
  dFin : d.dFin = true
  rows : d.rows = p.rows
  cols : d.cols = p.cols
  chans : d.chans = p.chans
  left : d.left = p.left
  pixOut : d.pixOut = p.pixOut
  atOrigin : d.row = 0 ∧ d.col = 0 ∧ d.ch = 0

/-- R80, R126, R176: an encode job that has popped the residuals of an image, and the decode job after it. -/
theorem State.Inv.image_coded {p : State} (h : p.Inv) (hs : p.state = .enc) (hrow : p.row = p.rows) (hS : p.sEmpty = true)
    (hcount : p.resE.length = p.rows.toNat * p.cols.toNat * p.chans.toNat) : ∃ e d items, ImageCoded p e d items := by
  obtain ⟨ps, q, hsyms, hres⟩ := h.residuals_of_image hs hrow
  have hsym : ∀ v ∈ ps ++ [q], v ≠ 0x100#9 := fun v hv => by
    rw [← hsyms] at hv
    obtain ⟨w, hw, rfl⟩ := List.mem_map.mp hv
    exact of_decide_eq_true (h.resESymbols w hw)
  have hlegal : ({ p with resE := [] } : State).DictLegal := h.dictLegal.congr rfl rfl rfl rfl
  obtain ⟨e, he⟩ : ∃ e : State, ({ p with resE := [] } : State).encodedAll (ps ++ [q]) = e := ⟨_, rfl⟩
  have henc : WritesOnly .enc { p with resE := [] } e := he ▸ encodedAll_writesOnly _ _
  have heRows : e.rows = p.rows := henc.agree State.rows rfl
  have heCols : e.cols = p.cols := henc.agree State.cols rfl
  have heChans : e.chans = p.chans := henc.agree State.chans rfl
  have hdims : e.rows ≠ 0 ∧ e.cols ≠ 0 ∧ e.chans ≠ 0 := by
    rw [heRows, heCols, heChans]
    exact h.dims_ne_zero (.inl hs)
  have hcounted : e.startDecode.count.toNat = (ps ++ [q]).length := by
    refine (initJob_count_toNat e).trans ?_
    rw [heRows, heCols, heChans, ← hcount, ← hsyms, List.length_map]
  obtain ⟨d, items, hd⟩ := stream_inverted (e := { p with resE := [] }) (d := e.startDecode) hS (h.emptyFresh hS) h.dictWf rfl rfl
    (he ▸ (hlegal.encodedAll hsym).dictWf) rfl rfl rfl (by simp) hcounted hsym
  rw [he] at hd
  have hdone : e.state = .done := he ▸ encodedAll_state _ _
  exact ⟨e, { d with dFin := true }, items, {
    encoded := by rw [hres, ← he]; exact execAll_res hsym _
    done := hdone
    codeOut := hd.codeOut
    decoded := hd.decode_job hdone hdims
    resD := by rw [hsyms]; exact hd.resD
    dFin := rfl
    rows := (hd.writes.agree State.rows rfl).trans heRows
    cols := (hd.writes.agree State.cols rfl).trans heCols
    chans := (hd.writes.agree State.chans rfl).trans heChans
    left := (hd.writes.agree State.left rfl).trans (henc.agree State.left rfl)
    pixOut := (hd.writes.agree State.pixOut rfl).trans (henc.agree State.pixOut rfl)
    atOrigin := ⟨hd.writes.agree State.row rfl, hd.writes.agree State.col rfl, hd.writes.agree State.ch rfl⟩ }⟩

/-- Settles O58. -/
theorem roundTripGivesTheImageBack : Obligations.RoundTripGivesTheImageBack := by
  intro xs s h hidle hrows hcols hchans hlen
  have hdims := And.intro hrows (And.intro hcols hchans)
  have hstart : exec .startEnc s = .next s.startEncode := congrArg Host.Outcome.next (guardStart_started hidle hdims)
  have hinv : s.startEncode.Inv := h.started (zeroDimension_of_dims hdims) .enc (by decide)
  have horigin : s.startEncode.position = 0 := position_at_origin rfl rfl rfl
  obtain ⟨p, ws, hp⟩ := hinv.image_predicted rfl (xs := xs) (by rw [horigin, hlen]; exact Nat.le_of_eq (Nat.zero_add _))
  have hpRows : p.rows = s.rows := hp.writes.agree State.rows rfl
  have hpCols : p.cols = s.cols := hp.writes.agree State.cols rfl
  have hpChans : p.chans = s.chans := hp.writes.agree State.chans rfl
  have hpState : p.state = .enc := hp.writes.agree State.state rfl
  have hresE : p.resE = ws := hp.resE
  have hpEnd : p.row = p.rows :=
    (walk_end_of_position (hp.inv.walker (.inl hpState)) (by
      rw [hp.position, horigin, Nat.zero_add, hlen, hpRows, hpCols, hpChans])).1
  obtain ⟨e, d, items, hc⟩ := hp.inv.image_coded hpState hpEnd (hp.writes.agree State.sEmpty rfl)
    (by rw [hresE, hp.length, hlen, hpRows, hpCols, hpChans])
  obtain ⟨hrow0, hcol0, hch0⟩ := hc.atOrigin
  have hfollows : Follows s.startEncode { d with resD := [] } := {
    walk := ⟨hc.rows.trans hpRows, hc.cols.trans hpCols, hc.chans.trans hpChans, hrow0, hcol0, hch0,
      fun k _ hlive => by rcases hlive with hlive | hlive <;> simp at hlive⟩
    leftWf := (congrArg Memory.wf hc.left).trans hp.inv.leftWf
    dFin := hc.dFin
    ended := fun hend => absurd (hrow0.symm.trans (hend.trans (hc.rows.trans hpRows))).symm hrows }
  obtain ⟨u, samples, himage, hout, hback, hend⟩ := hp.back _ hfollows
  refine ⟨p, e, d, u, items, samples, (execAll_cons hstart).trans hp.exec, hc.encoded, hc.done,
    hc.codeOut.trans (congrArg (· ++ items) (hp.writes.agree State.codeOut rfl)), hc.decoded, ?_,
    hend.ended (hend.walk.row.trans (hpEnd.trans hend.walk.rows.symm)),
    hout.trans (congrArg (· ++ samples) (hc.pixOut.trans (hp.writes.agree State.pixOut rfl))), hback⟩
  rw [hc.resD, hresE, List.map_map]
  exact himage

end Sys2Proof.Machine
end

section
/-! PROOFS of the family 30_encoding.md, part 1: the rows of the command map (R92) by their fields (R91, R93), the words that match them, and the round trip between transactions and items (R90, R95 to R98, R105). -/

namespace Sys2Proof

/-! ### The rows of the command map, by op and reg -/

/-- R92: a row that fixes the whole word. -/
def exactRow (op reg : BitVec 4) (i : Instr) : CommandRow := ⟨commandWord op reg 0#16, 0xFFFFFFFF#32, fun _ => i⟩

/-- R92: a row that leaves the data field open. -/
def dataRow (op reg : BitVec 4) (build : Dim → Instr) : CommandRow := ⟨commandWord op reg 0#16, 0xFFFF0000#32, build⟩

/-- R92: each row stands for one op and one reg, with zero = 0, and only a WR row has open data. -/
theorem commandRows_by_fields : commandRows =
    [exactRow 0#4 0#4 .nop, dataRow 1#4 0#4 .wrRows, dataRow 1#4 1#4 .wrCols, dataRow 1#4 2#4 .wrChans,
     exactRow 2#4 0#4 .rdRows, exactRow 2#4 1#4 .rdCols, exactRow 2#4 2#4 .rdChans, exactRow 2#4 3#4 .rdStatus,
     exactRow 2#4 4#4 .rdDnext, exactRow 3#4 0#4 .startEnc, exactRow 4#4 0#4 .startDec, exactRow 5#4 0#4 .abort] := rfl

theorem eq_commandWord {w : CmdWord} {op reg : BitVec 4} {data : BitVec 16} :
    w = commandWord op reg data ↔
      w.extractLsb' 28 4 = op ∧ w.extractLsb' 24 4 = reg ∧ w.extractLsb' 16 8 = 0#8 ∧ w.extractLsb' 0 16 = data := by
  conv_lhs => rw [word_fields w, commandWord]
  rw [append_inj, append_inj, append_inj]
  tauto

/-- R92: an exact row accepts one word. -/
theorem exactRow_accepts {w : CmdWord} {op reg : BitVec 4} {i : Instr} :
    (exactRow op reg i).accepts w = true ↔
      w.extractLsb' 28 4 = op ∧ w.extractLsb' 24 4 = reg ∧ w.extractLsb' 16 8 = 0#8 ∧ w.extractLsb' 0 16 = 0#16 :=
  accepts_full.trans eq_commandWord

/-- R92: a data row does not look at the data. -/
theorem dataRow_accepts {w : CmdWord} {op reg : BitVec 4} {f : Dim → Instr} :
    (dataRow op reg f).accepts w = true ↔
      w.extractLsb' 28 4 = op ∧ w.extractLsb' 24 4 = reg ∧ w.extractLsb' 16 8 = 0#8 := accepts_high op reg

/-! ### No word matches two rows -/

/-- A word of two rows agrees with both patterns where both masks look. -/
theorem patterns_meet {w : CmdWord} {r q : CommandRow} (hr : r.accepts w = true) (hq : q.accepts w = true) :
    r.pattern &&& q.mask = q.pattern &&& r.mask := by
  simp only [CommandRow.accepts, decide_eq_true_iff] at hr hq
  rw [← hr, ← hq, BitVec.and_assoc, BitVec.and_assoc, BitVec.and_comm r.mask]

/-- R92: any two rows differ in a bit that both their masks look at. -/
theorem commandRows_disjoint : commandRows.Pairwise (fun r q => r.pattern &&& q.mask ≠ q.pattern &&& r.mask) := by
  decide

theorem row_of_word_unique {w : CmdWord} {r q : CommandRow} (hr : r ∈ commandRows) (hq : q ∈ commandRows)
    (hrw : r.accepts w = true) (hqw : q.accepts w = true) : r = q := by
  by_contra hne
  have : Std.Symm (fun r q : CommandRow => r.pattern &&& q.mask ≠ q.pattern &&& r.mask) := ⟨fun _ _ => Ne.symm⟩
  exact commandRows_disjoint.forall hr hq hne (patterns_meet hrw hqw)

/-- The transaction of a word is the one of the row that accepts it, wherever in the map the row stands. -/
theorem decodeCommand_of_accepts {w : CmdWord} {r : CommandRow} (hr : r ∈ commandRows) (ha : r.accepts w = true) :
    decodeCommand w = .ok (r.build (dataField w)) := by
  obtain ⟨i, hi⟩ := decodeCommand_legal.mpr ⟨r, hr, ha⟩
  obtain ⟨q, hq, hqa, rfl⟩ := decodeCommand_ok hi
  rw [hi, row_of_word_unique hr hq ha hqa]

/-! ### The round trip of a command word -/

theorem encode_of_exactRow {w : CmdWord} {op reg : BitVec 4} {i : Instr} (hi : encode i = .cmd (commandWord op reg 0#16))
    (ha : (exactRow op reg i).accepts w = true) : encode i = .cmd w := by
  rw [hi, eq_commandWord.mpr (exactRow_accepts.mp ha)]

theorem encode_of_dataRow {w : CmdWord} {op reg : BitVec 4} {f : Dim → Instr}
    (hf : ∀ n, encode (f n) = .cmd (commandWord op reg n)) (ha : (dataRow op reg f).accepts w = true) :
    encode (f (dataField w)) = .cmd w := by
  obtain ⟨hop, hreg, hzero⟩ := dataRow_accepts.mp ha
  have hw : w = commandWord op reg (dataField w) := eq_commandWord.mpr ⟨hop, hreg, hzero, rfl⟩
  rw [hf, ← hw]

/-- The transaction that a row reads from a word is encoded as that word. -/
theorem encode_of_accepts {w : CmdWord} {r : CommandRow} (hr : r ∈ commandRows) (ha : r.accepts w = true) :
    encode (r.build (dataField w)) = .cmd w := by
  simp only [commandRows_by_fields, List.mem_cons, List.not_mem_nil, or_false] at hr
  rcases hr with rfl | rfl | rfl | rfl | rfl | rfl | rfl | rfl | rfl | rfl | rfl | rfl
  case inr.inl | inr.inr.inl | inr.inr.inr.inl => exact encode_of_dataRow (fun _ => rfl) ha
  all_goals exact encode_of_exactRow rfl ha

/-- Every word of a data row, whatever its data, is read by that row. -/
theorem decodeCommand_data {op reg : BitVec 4} {f : Dim → Instr} (hr : dataRow op reg f ∈ commandRows) (n : Dim) :
    decodeCommand (commandWord op reg n) = .ok (f n) := by
  rw [decodeCommand_of_accepts hr (dataRow_accepts.mpr ⟨commandWord_op .., commandWord_reg .., commandWord_zero ..⟩)]
  exact congrArg (fun d => Except.ok (f d)) (commandWord_data op reg n)

/-! ### The data items -/

/-- R97: a RES_E item is its flag and its symbol. -/
theorem flagSym_fields (w : FlagSym) : Machine.flagSym (w.getLsbD 9) (w.extractLsb' 0 9) = w := by
  have hflag : BitVec.ofBool (w.getLsbD 9) = w.extractLsb' 9 1 := by
    ext k hk
    simp [Nat.lt_one_iff.mp hk]
  rw [Machine.flagSym, hflag, BitVec.extractLsb'_append_extractLsb'_eq_extractLsb' (by omega)]
  simp

theorem decodeRese_flagSym (l : Bool) (p : Sym) : decodeRese (Machine.flagSym l p) = .res l p := by
  rw [decodeRese, Machine.flagSym_last, Machine.flagSym_sym]

/-! ### The round trip -/

theorem encode_channel (i : Instr) : (encode i).channel = i.channel := by cases i <;> rfl

theorem decode_encode (i : Instr) : decode (encode i) = .ok i := by
  cases i with
  | wrRows n => exact decodeCommand_data (f := .wrRows) (by simp [commandRows_by_fields]) n
  | wrCols n => exact decodeCommand_data (f := .wrCols) (by simp [commandRows_by_fields]) n
  | wrChans n => exact decodeCommand_data (f := .wrChans) (by simp [commandRows_by_fields]) n
  | byte n => exact congrArg _ (decodeCin_byte n)
  | eos => exact congrArg _ (decodeCin_eos 0)
  | res l p => exact congrArg _ (decodeRese_flagSym l p)
  | _ => rfl

/-- On its own channel the raw value of an item is read as the item is. -/
theorem decodeRaw_value (item : Item) : decodeRaw item.channel item.value = decode item := by
  rw [decodeRaw, item.ofRaw_value]

/-- R105: an item read as a transaction other than EOS has no bit that the decoder ignores. -/
theorem encode_of_decode {item : Item} {i : Instr} (h : decode item = .ok i) (hi : i ≠ .eos) : encode i = item := by
  cases item with
  | cmd w =>
    obtain ⟨r, hr, ha, rfl⟩ := decodeCommand_ok h
    exact encode_of_accepts hr ha
  | pixIn w => cases h; rfl
  | codeIn w =>
    cases h
    rcases flagByte_cases w with hw | hw <;> rw [hw] at hi ⊢
    · rw [decodeCin_byte]; rfl
    · exact absurd (decodeCin_eos _) hi
  | resE w => cases h; exact congrArg Item.resE (flagSym_fields w)
  | resD w => cases h; rfl

/-- R96: EOS is the CODE_IN items with bit 8 set. -/
theorem decode_eq_eos {item : Item} : decode item = .ok .eos ↔ ∃ b : Byte, item = .codeIn (1#1 ++ b) := by
  constructor
  · intro h
    cases item with
    | codeIn w =>
      rcases flagByte_cases w with hw | hw
      · rw [hw] at h
        rw [decode, decodeCin_byte] at h
        cases h
      · exact ⟨_, congrArg _ hw⟩
    | cmd w => exact absurd (decodeCommand_channel h) (by decide)
    | pixIn w => cases h
    | resE w => cases h
    | resD w => cases h
  · rintro ⟨b, rfl⟩
    exact congrArg _ (decodeCin_eos b)

/-! ### The register numbers (R93) -/

theorem wrRegister_iff : ∀ r : BitVec 4, wrRegister r = true ↔ r = 0#4 ∨ r = 1#4 ∨ r = 2#4 := by decide

theorem rdRegister_iff : ∀ r : BitVec 4, rdRegister r = true ↔ r = 0#4 ∨ r = 1#4 ∨ r = 2#4 ∨ r = 3#4 ∨ r = 4#4 := by decide

/-! ### The statements -/

/-- Settles O1: every transaction is read from its own row or format, and a raw value is its item. -/
theorem decodeOfEncodeIsTheTransaction : Obligations.DecodeOfEncodeIsTheTransaction := by
  intro i
  refine ⟨decode_encode i, ?_, encode_channel i⟩
  rw [← encode_channel i, decodeRaw_value, decode_encode]

/-- Settles O2. -/
theorem acceptedItemIsTheEncoding : Obligations.AcceptedItemIsTheEncoding :=
  ⟨fun _ _ => encode_of_decode, fun _ => decode_eq_eos⟩

/-- Settles O3: a legal word has the fields of one of the rows. -/
theorem legalCommandWordsExactly : Obligations.LegalCommandWordsExactly := by
  intro w
  rw [decodeCommand_legal, commandRows_by_fields]
  simp only [List.mem_cons, List.not_mem_nil, or_false, exists_eq_or_imp, exists_eq_left, exactRow_accepts, dataRow_accepts,
    wrRegister_iff, rdRegister_iff]
  constructor
  · rintro (h | h | h | h | h | h | h | h | h | h | h | h) <;> simp [h]
  · rintro ⟨hzero, ⟨hop, h | h | h⟩ | ⟨hdata, ⟨hop, h | h | h | h | h⟩ | ⟨h, hop | hop | hop | hop⟩⟩⟩ <;> simp [*]

/-- Settles O4: a word of two rows is a word of one row twice. -/
theorem noWordMatchesTwoRows : Obligations.NoWordMatchesTwoRows := by
  intro w r q hr hq hrw hqw
  rw [row_of_word_unique hr hq hrw hqw]
  exact ⟨rfl, rfl⟩

/-- Settles O5: each written-out word evaluates. -/
theorem writtenOutWordsDecode : Obligations.WrittenOutWordsDecode := by
  unfold Obligations.WrittenOutWordsDecode
  decide

end Sys2Proof
end

section
/-! PROOFS of the family 30_encoding.md, part 2: the step that runs a table word's transaction (R109, logs 9 and 10). -/

namespace Sys2Proof.Machine

/-! ### A state ready for an item -/

/-- R124: a job started on the dimensions made acceptable has a first position. -/
theorem nonZeroDim_pos (n : Dim) : 0 < (nonZeroDim n).toNat := by
  unfold nonZeroDim
  split
  case isTrue => decide
  case isFalse hn => exact Nat.pos_of_ne_zero fun h => hn (BitVec.eq_of_toNat_eq h)

/-- Log 10: making ready leaves the model's own two fields alone. -/
theorem readyFor_pick (s : State) (item : Item) :
    (s.readyFor item).sched = s.sched ∧ (s.readyFor item).pick = s.pick := by
  cases item
  case cmd => exact ⟨rfl, rfl⟩
  all_goals
    simp only [State.readyFor]
    split <;> exact ⟨rfl, rfl⟩

/-- Log 10: the state made ready for an item meets what the item's agent asks for besides the item (R120, R140, R150, R165,
R185): `s` does already, or the job started does. -/
theorem withItem_enabled (s : State) (item : Item) : (itemAgent item).enabled (s.withItem item) = true := by
  cases item
  case cmd => rfl
  all_goals
    simp only [itemAgent, State.withItem, State.readyFor, State.putFirst, Agent.enabled]
    split
    case isTrue hready => simp [hready]
    case isFalse => simp [State.withDims, nonZeroDim_pos]

theorem withItem_chosen (s : State) (item : Item) : (s.withItem item).chosen = some (itemAgent item) :=
  chosen_of_sched rfl (withItem_enabled s item)

/-- The item put first is the item popped. -/
theorem withItem_fetch (s : State) (item : Item) :
    (s.withItem item).fetch (itemAgent item) =
      some (item, { s.readyFor item with sched := itemAgent item :: s.sched }) := by
  cases item <;> rfl

theorem step_withItem {item : Item} {i : Instr} (h : decode item = .ok i) (s : State) :
    step (s.withItem item) = exec i { s.readyFor item with pick := s.pick + 1 } := by
  obtain ⟨hsched, hpick⟩ := readyFor_pick s item
  calc step (s.withItem item) = agentStep (itemAgent item) (s.withItem item) := step_of_chosen (withItem_chosen s item)
    _ = exec i { s.readyFor item with sched := s.sched, pick := (s.readyFor item).pick + 1 } :=
      (agentStep_of_fetch (withItem_fetch s item)).trans (performItem_of_decode h _)
    _ = exec i { s.readyFor item with pick := s.pick + 1 } := by rw [← hsched, hpick]

/-! ### Table words -/

theorem decodeTableWord_of_item {nbits w : Nat} {item : Item} {i : Instr} (hw : tableItem nbits w = some item)
    (h : decode item = .ok i) : decodeTableWord nbits w = some i := by
  simp only [decodeTableWord, hw, h]

theorem withFetchWord_of_item {nbits w : Nat} {item : Item} (hw : tableItem nbits w = some item) (s : State) :
    s.withFetchWord nbits w = s.withItem item := by
  simp only [State.withFetchWord, hw]

/-- Settles O41: the schedule names the item's agent, which is enabled and pops the item. -/
theorem fetchWordIsTheNextTransaction : Obligations.FetchWordIsTheNextTransaction := by
  intro s nbits w item i hw h
  refine ⟨decodeTableWord_of_item hw h, ?_⟩
  rw [withFetchWord_of_item hw]
  exact step_withItem h s

end Sys2Proof.Machine
end

section
/-! PROOFS of the family 40_control.md, part 1: what a command word does (R120 to R129), by the checks of R124 in their order. -/

namespace Sys2Proof.Machine

/-! ### When an agent is enabled -/

/-- Settles O38: each conjunct of the model's condition, with "not empty" for the channel. -/
theorem agentsAreEnabledExactlyWhen : Obligations.AgentsAreEnabledExactlyWhen := by
  intro s
  simp [Agent.enabled, and_assoc]

/-- R132: in DONE no unit is enabled. -/
theorem not_enabled_of_done {s : State} (hs : s.state = .done) {a : Agent} (ha : a ≠ .ctrl) : a.enabled s = false := by
  cases a with
  | ctrl => exact absurd rfl ha
  | _ => simp [Agent.enabled, hs]

/-! ### The checks of R124, one lemma an outcome -/

theorem not_running_of_idle {s : State} (hs : s.state = .idle ∨ s.state = .done) : ¬ s.Running := by
  rcases hs with hs | hs <;> exact not_running_of (by simp [hs]) (by simp [hs])

theorem not_error_of_running {s : State} (hs : s.Running) : s.state ≠ .error := by
  rcases hs with hs | hs <;> simp [hs]

theorem guardWrite_discarded {s : State} (hs : s.state = .error) (u : State) : s.guardWrite u = s := by
  rw [State.guardWrite, if_pos hs]

theorem guardWrite_busy {s : State} (hs : s.Running) (u : State) : s.guardWrite u = s.raise .busy := by
  rw [State.guardWrite, if_neg (not_error_of_running hs), if_pos (busy_iff.mpr hs)]

theorem guardWrite_performed {s : State} (hs : s.state = .idle ∨ s.state = .done) (u : State) : s.guardWrite u = u := by
  rcases hs with hs | hs <;> simp [State.guardWrite, State.busy, hs]

theorem guardStart_discarded {s : State} (hs : s.state = .error) (u : State) : s.guardStart u = s := by
  rw [State.guardStart, if_pos hs]

theorem guardStart_busy {s : State} (hs : s.Running) (u : State) : s.guardStart u = s.raise .busy := by
  rw [State.guardStart, if_neg (not_error_of_running hs), if_pos (busy_iff.mpr hs)]

theorem guardStart_cfg {s : State} (hs : s.state = .idle ∨ s.state = .done) (hz : s.rows = 0 ∨ s.cols = 0 ∨ s.chans = 0)
    (u : State) : s.guardStart u = s.raise .cfg := by
  have hzero : s.zeroDimension = true := decide_eq_true hz
  rcases hs with hs | hs <;> simp [State.guardStart, State.busy, hs, hzero]

/-- R24: a STATE that is not ERROR is in a job or outside one. -/
theorem running_or_idle {s : State} (hs : s.state ≠ .error) : s.Running ∨ s.state = .idle ∨ s.state = .done := by
  by_cases hrun : s.Running
  · exact .inl hrun
  · exact .inr (idle_or_done_of_not_busy hs (Bool.eq_false_iff.mpr (busy_iff.not.mpr hrun)))

/-- R130: STATE after a WR. -/
theorem guardWrite_state {s u : State} (hu : u.state = s.state) :
    (s.guardWrite u).state = if s.state = .enc ∨ s.state = .dec then .error else s.state := by
  by_cases herr : s.state = .error
  · rw [guardWrite_discarded herr, herr]
    rfl
  · rcases running_or_idle herr with hrun | hidle
    · rw [guardWrite_busy hrun]
      exact (if_pos hrun).symm
    · rw [guardWrite_performed hidle, hu]
      exact (if_neg (not_running_of_idle hidle)).symm

/-- R130: STATE after a START. -/
theorem guardStart_state {s u : State} (hs : s.state ≠ .error) :
    (s.guardStart u).state =
      if (s.state = .enc ∨ s.state = .dec) ∨ s.rows = 0 ∨ s.cols = 0 ∨ s.chans = 0 then .error else u.state := by
  rcases running_or_idle hs with hrun | hidle
  · rw [guardStart_busy hrun, if_pos (.inl hrun)]
    rfl
  · by_cases hz : s.rows = 0 ∨ s.cols = 0 ∨ s.chans = 0
    · rw [guardStart_cfg hidle hz, if_pos (.inr hz)]
      rfl
    · rw [guardStart_started hidle (by simpa using hz)]
      exact (if_neg (not_or.mpr ⟨not_running_of_idle hidle, hz⟩)).symm

/-! ### The transactions by kind -/

/-- R122: the three WR differ in the state they would leave, and none of these differs in STATE. -/
theorem exec_wr {i : Instr} {n : Dim} (hi : i ∈ [Instr.wrRows n, .wrCols n, .wrChans n]) (s : State) :
    ∃ u : State, u.state = s.state ∧ exec i s = .next (s.guardWrite u) := by
  simp only [List.mem_cons, List.not_mem_nil, or_false] at hi
  rcases hi with rfl | rfl | rfl
  · exact ⟨{ s with rows := n }, rfl, rfl⟩
  · exact ⟨{ s with cols := n }, rfl, rfl⟩
  · exact ⟨{ s with chans := n }, rfl, rfl⟩

/-- R125, R129: the two STARTs differ in the state they would leave. -/
theorem exec_start {i : Instr} (hi : i ∈ [Instr.startEnc, .startDec]) (s : State) :
    ∃ u : State, u.state = (if i = .startEnc then .enc else .dec) ∧ exec i s = .next (s.guardStart u) := by
  simp only [List.mem_cons, List.not_mem_nil, or_false] at hi
  rcases hi with rfl | rfl
  · exact ⟨s.startEncode, rfl, rfl⟩
  · exact ⟨s.startDecode, rfl, rfl⟩

/-- R121, R123: NOP and RD are performed in every STATE and leave it. -/
theorem exec_nop_or_rd {i : Instr} (hi : i ∈ [Instr.nop, .rdRows, .rdCols, .rdChans, .rdStatus, .rdDnext]) (s : State) :
    ∃ u : State, u.state = s.state ∧ exec i s = .next u := by
  simp only [List.mem_cons, List.not_mem_nil, or_false] at hi
  rcases hi with rfl | rfl | rfl | rfl | rfl | rfl
  · exact ⟨s, rfl, rfl⟩
  · exact ⟨s.respond s.rows, rfl, rfl⟩
  · exact ⟨s.respond s.cols, rfl, rfl⟩
  · exact ⟨s.respond s.chans, rfl, rfl⟩
  · exact ⟨s.respond s.status, rfl, rfl⟩
  · exact ⟨s.respond s.dnext, rfl, rfl⟩

/-- R124, check 3. -/
theorem exec_busy {i : Instr} {n : Dim} (hi : i ∈ [Instr.wrRows n, .wrCols n, .wrChans n, .startEnc, .startDec]) {s : State}
    (hs : s.Running) : exec i s = .next (s.raise .busy) := by
  rcases List.mem_append.mp (show i ∈ [Instr.wrRows n, .wrCols n, .wrChans n] ++ [.startEnc, .startDec] from hi) with hi | hi
  · obtain ⟨u, -, hexec⟩ := exec_wr hi s
    rw [hexec, guardWrite_busy hs]
  · obtain ⟨u, -, hexec⟩ := exec_start hi s
    rw [hexec, guardStart_busy hs]

/-- R124, check 4. -/
theorem exec_start_cfg {i : Instr} (hi : i ∈ [Instr.startEnc, .startDec]) {s : State} (hs : s.state = .idle ∨ s.state = .done)
    (hz : s.rows = 0 ∨ s.cols = 0 ∨ s.chans = 0) : exec i s = .next (s.raise .cfg) := by
  obtain ⟨u, -, hexec⟩ := exec_start hi s
  rw [hexec, guardStart_cfg hs hz]

/-- R124, check 1: in ERROR every command but RD and ABORT is discarded. -/
theorem exec_discarded {i : Instr} (hch : i.channel = .cmd)
    (hi : i ∉ [Instr.rdRows, .rdCols, .rdChans, .rdStatus, .rdDnext, .abort]) {s : State} (hs : s.state = .error) :
    exec i s = .next s := by
  cases i with
  | nop => rfl
  | wrRows n => exact congrArg _ (guardWrite_discarded hs _)
  | wrCols n => exact congrArg _ (guardWrite_discarded hs _)
  | wrChans n => exact congrArg _ (guardWrite_discarded hs _)
  | startEnc => exact congrArg _ (guardStart_discarded hs _)
  | startDec => exact congrArg _ (guardStart_discarded hs _)
  | rdRows | rdCols | rdChans | rdStatus | rdDnext | abort => simp at hi
  | pix x | byte n | eos | res l p | resd p => cases hch

/-! ### Illegal words -/

theorem performItem_of_illegal {item : Item} {e : Reject} (h : decode item = .error e) (s : State) :
    performItem item s = illegalCommand s := by
  simp only [performItem, h]

theorem illegalCommand_discarded {s : State} (hs : s.state = .error) : illegalCommand s = .next s := by
  rw [illegalCommand, if_pos hs]

theorem illegalCommand_raises {s : State} (hs : s.state ≠ .error) : illegalCommand s = .next (s.raise .cmd) := by
  rw [illegalCommand, if_neg hs]

/-- R105: a command word without a transaction is illegal. -/
theorem decode_cmd_illegal {w : CmdWord} (h : ¬ ∃ i, decodeCommand w = .ok i) : decode (.cmd w) = .error .illegalCommand := by
  refine decodeCommand_illegal.mpr fun r hr => ?_
  rw [Bool.eq_false_iff]
  exact fun ha => h (decodeCommand_legal.mpr ⟨r, hr, ha⟩)

/-- R128: such a word raises ERR_CMD outside ERROR. -/
theorem illegal_word_raises {w : CmdWord} (h : ¬ ∃ i, decodeCommand w = .ok i) :
    decode (.cmd w) = .error .illegalCommand ∧
    ∀ s : State, s.state ≠ .error → performItem (.cmd w) s = .next { s with state := .error, err := .cmd } :=
  ⟨decode_cmd_illegal h, fun s hs => (performItem_of_illegal (decode_cmd_illegal h) s).trans (illegalCommand_raises hs)⟩

/-- R92, R93: a word with the op of WR is legal only with the number of a register that WR accepts. -/
theorem illegal_of_wr_register {w : CmdWord} (hop : w.extractLsb' 28 4 = 1#4) (hreg : 3 ≤ (w.extractLsb' 24 4).toNat) :
    ¬ ∃ i, decodeCommand w = .ok i := by
  have hno : ¬ wrRegister (w.extractLsb' 24 4) = true := by
    rw [wrRegister, decide_eq_true_iff]
    omega
  rw [legalCommandWordsExactly, hop]
  simp [hno]

/-- R92, R93: a word with the op of RD is legal only with the number of a register that RD accepts, and without data. -/
theorem illegal_of_rd_register {w : CmdWord} (hop : w.extractLsb' 28 4 = 2#4)
    (hfields : 5 ≤ (w.extractLsb' 24 4).toNat ∨ w.extractLsb' 0 16 ≠ 0#16) : ¬ ∃ i, decodeCommand w = .ok i := by
  have hno : ¬ (w.extractLsb' 0 16 = 0#16 ∧ rdRegister (w.extractLsb' 24 4) = true) := by
    rw [rdRegister, decide_eq_true_iff]
    rintro ⟨hdata, hle⟩
    exact hfields.elim (fun hreg => by omega) (fun hne => hne hdata)
  rw [legalCommandWordsExactly, hop]
  simpa using fun _ => not_and.mp hno

/-! ### NOP and WR -/

/-- Settles O6. -/
theorem nopChangesNothing : Obligations.NopChangesNothing :=
  ⟨decode_encode .nop, fun _ => rfl⟩

/-- Settles O7: the outcomes of the guard in turn, then the words. -/
theorem wrWritesTheNamedDimension : Obligations.WrWritesTheNamedDimension := by
  refine ⟨fun n s hs => ?_, fun n s i hi hs => ?_, fun n s i hi hs => ?_, fun w hop hreg => ?_, fun n => ?_⟩
  · have write : ∀ u, (.next (s.guardWrite u) : Result) = .next u := fun u => congrArg _ (guardWrite_performed hs u)
    exact ⟨write _, write _, write _⟩
  · exact exec_busy (n := n) (List.mem_append_left [.startEnc, .startDec] hi) hs
  · obtain ⟨u, -, hexec⟩ := exec_wr hi s
    rw [hexec, guardWrite_discarded hs]
  · exact illegal_word_raises (illegal_of_wr_register hop hreg)
  · exact ⟨decode_encode (.wrRows n), decode_encode (.wrCols n), decode_encode (.wrChans n)⟩

/-! ### RD -/

/-- The value of two fields side by side (R8). -/
theorem append_toNat_weight {a b : Nat} (x : BitVec a) (y : BitVec b) : (x ++ y).toNat = 2 ^ b * x.toNat + y.toNat := by
  rw [BitVec.toNat_append, ← Nat.shiftLeft_add_eq_or_of_lt y.isLt, Nat.shiftLeft_eq, Nat.mul_comm]

/-- R27: STATUS by the weights of its fields. -/
theorem status_toNat (s : State) :
    s.status.toNat = s.state.bits.toNat + 8 * s.job.bits.toNat + 16 * s.err.bits.toNat + 256 * s.full.toNat := by
  simp only [State.status, append_toNat_weight, BitVec.toNat_ofBool, BitVec.toNat_ofNat]
  omega

/-- Settles O8: STATUS field by field; DNEXT is the low half of NEXT. -/
theorem rdPushesTheRegister : Obligations.RdPushesTheRegister := by
  refine ⟨fun s => ⟨rfl, rfl, rfl, ⟨s.status, rfl, ?_⟩, s.dnext, rfl, dnext_toNat s⟩,
    fun w hop hfields => illegal_word_raises (illegal_of_rd_register hop hfields),
    decode_encode .rdRows, decode_encode .rdCols, decode_encode .rdChans, decode_encode .rdStatus, decode_encode .rdDnext⟩
  rw [status_toNat]
  refine congrArg₂ _ (congrArg₂ _ (congrArg₂ _ ?state (congrArg _ ?job)) (congrArg _ ?err)) (congrArg _ ?full)
  case state => cases s.state <;> rfl
  case job => cases s.job <;> rfl
  case err => cases s.err <;> rfl
  case full => exact Bool.cond_decide (s.next.toNat = 65536) 1 0

/-! ### START and ABORT -/

/-- R126, R140, R165: a job just started is at the first position and before its EOS. -/
theorem startEncode_pred_enabled {s : State} (hrows : s.rows ≠ 0) : Agent.pred.enabled s.startEncode = true ↔ s.pixIn ≠ [] := by
  have hpos : 0 < s.rows.toNat := BitVec.toNat_pos_of_ne_zero hrows
  simp [Agent.enabled, hpos]

theorem startDecode_dec_enabled (s : State) : Agent.dec.enabled s.startDecode = true ↔ s.codeIn ≠ [] := by
  simp [Agent.enabled]

/-- Settles O10: the outcomes of the guard in turn. -/
theorem startInitialisesTheJob : Obligations.StartInitialisesTheJob := by
  have start : ∀ {s u : State}, s.state = .idle ∨ s.state = .done → s.rows ≠ 0 → s.cols ≠ 0 → s.chans ≠ 0 →
      (.next (s.guardStart u) : Result) = .next u :=
    fun hs hrows hcols hchans => congrArg _ (guardStart_started hs ⟨hrows, hcols, hchans⟩)
  refine ⟨fun s hs hrows hcols hchans => ?_, fun s i hi hs => ?_, fun s i hi hs hz => exec_start_cfg hi hs hz,
    fun s i hi hs => ?_, fun s t hs hrows hcols hchans => ⟨?_, ?_, fun ht => ?_, fun ht => ?_⟩,
    decode_encode .startEnc, decode_encode .startDec⟩
  · exact ⟨s.initJob.count, initJob_count_toNat s, start hs hrows hcols hchans, start hs hrows hcols hchans⟩
  · exact exec_busy (n := 0) (List.mem_append_right [.wrRows 0, .wrCols 0, .wrChans 0] hi) hs
  · obtain ⟨u, -, hexec⟩ := exec_start hi s
    rw [hexec, guardStart_discarded hs]
  · exact Bool.eq_false_iff.mpr fun he => not_running_of_idle hs (.inl (pred_enabled he).1)
  · exact Bool.eq_false_iff.mpr fun he => not_running_of_idle hs (.inr (dec_enabled he).1)
  · cases ht.symm.trans (start (u := s.startEncode) hs hrows hcols hchans)
    exact startEncode_pred_enabled hrows
  · cases ht.symm.trans (start (u := s.startDecode) hs hrows hcols hchans)
    exact startDecode_dec_enabled s

/-- Settles O11: of all that a command can do in ERROR, only ABORT writes STATE. -/
theorem abortReturnsToIdle : Obligations.AbortReturnsToIdle := by
  refine ⟨fun s => rfl, fun s t w hs ht hne => ?_, decode_encode .abort⟩
  rcases performItem_cmd_cases ht with rfl | ⟨x, rfl⟩ | ⟨herr, -⟩ | ⟨hd, -⟩ | ⟨herr, -⟩
  · exact absurd hs hne
  · exact absurd hs hne
  · exact absurd hs herr
  · exact hd
  · exact absurd hs herr

/-! ### The order of the checks -/

/-- Settles O12: each check by the kind of the word, legal or not. -/
theorem commandChecksInOrder : Obligations.CommandChecksInOrder := by
  refine ⟨fun w s hs => ⟨fun i hd _ => performItem_of_decode hd s, fun hno => ?_⟩, fun w s hs hd => ?_,
    fun w s i hs hd hi => ?_, fun w s i hs hd hi hz => ?_, fun w s i hd => performItem_of_decode hd s⟩
  · cases hd : decode (.cmd w) with
    | error e => rw [performItem_of_illegal hd, illegalCommand_discarded hs]
    | ok i => rw [performItem_of_decode hd, exec_discarded (decodeCommand_channel hd) (hno i hd) hs]
  · rw [performItem_of_illegal hd, illegalCommand_raises hs]
    rfl
  · obtain ⟨n, hi⟩ := hi
    rw [performItem_of_decode hd, exec_busy hi hs]
    rfl
  · rw [performItem_of_decode hd, exec_start_cfg hi hs hz]
    rfl

end Sys2Proof.Machine
end

section
/-! PROOFS of the family 40_control.md, part 2: the job sequencer, STATE after the step of each agent (R130, R131), and what holds when a job has completed (R132, R185). -/

namespace Sys2Proof.Machine

/-! ### STATE after a command word -/

theorem performItem_abort_state {v t : State} {w : CmdWord} (ht : performItem (.cmd w) v = .next t)
    (hd : decode (.cmd w) = .ok .abort) : t.state = .idle := by
  cases (performItem_of_decode hd v).symm.trans ht
  rfl

/-- R216: no command but ABORT leaves ERROR. -/
theorem performItem_stays_in_error {v t : State} {w : CmdWord} (ht : performItem (.cmd w) v = .next t)
    (hd : decode (.cmd w) ≠ .ok .abort) (hv : v.state = .error) : t.state = .error :=
  by_contra fun hne => hd (abortReturnsToIdle.2.1 v t w hv ht hne)

theorem performItem_illegal_state {v t : State} {w : CmdWord} {e : Reject} (ht : performItem (.cmd w) v = .next t)
    (hd : decode (.cmd w) = .error e) : t.state = .error := by
  rw [performItem_of_illegal hd] at ht
  by_cases hv : v.state = .error
  · cases (illegalCommand_discarded hv).symm.trans ht
    exact hv
  · cases (illegalCommand_raises hv).symm.trans ht
    rfl

theorem performItem_wr_state {v t : State} {w : CmdWord} {i : Instr} {n : Dim} (ht : performItem (.cmd w) v = .next t)
    (hd : decode (.cmd w) = .ok i) (hi : i ∈ [Instr.wrRows n, .wrCols n, .wrChans n]) :
    t.state = if v.state = .enc ∨ v.state = .dec then .error else v.state := by
  obtain ⟨u, hu, hexec⟩ := exec_wr hi v
  cases ((performItem_of_decode hd v).trans hexec).symm.trans ht
  exact guardWrite_state hu

theorem performItem_nop_or_rd_state {v t : State} {w : CmdWord} {i : Instr} (ht : performItem (.cmd w) v = .next t)
    (hd : decode (.cmd w) = .ok i) (hi : i ∈ [Instr.nop, .rdRows, .rdCols, .rdChans, .rdStatus, .rdDnext]) :
    t.state = v.state := by
  obtain ⟨u, hu, hexec⟩ := exec_nop_or_rd hi v
  cases ((performItem_of_decode hd v).trans hexec).symm.trans ht
  exact hu

theorem performItem_start_state {v t : State} {w : CmdWord} {i : Instr} (ht : performItem (.cmd w) v = .next t)
    (hd : decode (.cmd w) = .ok i) (hi : i ∈ [Instr.startEnc, .startDec]) (hv : v.state ≠ .error) :
    t.state = if (v.state = .enc ∨ v.state = .dec) ∨ v.rows = 0 ∨ v.cols = 0 ∨ v.chans = 0 then .error
      else if i = .startEnc then .enc else .dec := by
  obtain ⟨u, hu, hexec⟩ := exec_start hi v
  cases ((performItem_of_decode hd v).trans hexec).symm.trans ht
  rw [guardStart_state hv, hu]

/-! ### STATE after a residual -/

theorem matchSymbol_state (s : State) (b : Int) : (s.matchSymbol b).state = s.state := by
  obtain ⟨_, _, _, _, _, hm⟩ := s.matchSymbol_writes b
  rw [hm]

/-- R155, R156. -/
theorem execRes_state {v t : State} {l : Bool} {p : Sym} (ht : execRes l p v = .next t) (hv : v.state = .enc) :
    t.state = if p = 0x100#9 then .error else if l = true then .done else .enc := by
  rcases execRes_cases ht with ⟨hp, rfl⟩ | ⟨hp, rfl⟩
  · have hp : p = 0x100#9 := not_not.mp (of_decide_eq_false hp)
    rw [if_pos hp]
    rfl
  · rw [if_neg (of_decide_eq_true hp), finishEncode_state, matchSymbol_state, hv]

/-! ### STATE after a CODE_IN item -/

/-- R131: the check for the end of a decode job. -/
theorem finishDecode_state_eq (s : State) : s.finishDecode.state = if s.row = s.rows ∧ s.dFin = true then .done else s.state := by
  simp [State.walkDone]

/-- R176, R131. -/
theorem execEos_state {v t : State} (ht : execEos v = .next t) :
    t.state = if v.dDrain = false then .error else if v.row = v.rows then .done else v.state := by
  cases hd : v.dDrain with
  | false =>
    cases (execEos_early hd).symm.trans ht
    rfl
  | true =>
    cases (execEos_drained hd).symm.trans ht
    rw [finishDecode_state_eq]
    simp

/-- R166, R172: a byte that completes no code, or comes after the last residual. -/
theorem execByte_state_of_no_code {v t : State} {n : Byte} (ht : execByte n v = .next t)
    (hv : v.dDrain = true ∨ v.hiValid = false) : t.state = v.state := by
  cases hd : v.dDrain with
  | true =>
    cases (execByte_drained hd).symm.trans ht
    rfl
  | false =>
    cases (execByte_held hd (hv.resolve_left (by simp [hd]))).symm.trans ht
    rfl

/-- R173, R174, R167: a code is refused, or its sequence pushed. -/
theorem State.DictLegal.processCode_state {v t : State} (h : v.DictLegal) {k : Code} (ht : v.processCode k = .next t) :
    (t.state = .error ∧ (v.badCode k ∨ ∃ m, v.codeStandsFor k m ∧ v.count.toNat < v.outCnt.toNat + m)) ∨
    (t.state = v.state ∧ ¬ v.badCode k ∧ ∃ m, v.codeStandsFor k m ∧ v.outCnt.toNat + m ≤ v.count.toNat) := by
  rcases h.processCode_cases k with ⟨hbad, heq⟩ | ⟨m, -, hm, hover, heq⟩ | ⟨u, l, hgood, hl, hfits, hu, -, -, heq⟩ <;>
    cases ht.symm.trans heq
  · exact .inl ⟨rfl, .inl hbad⟩
  · exact .inl ⟨rfl, .inr ⟨m, hm, hover⟩⟩
  · refine .inr ⟨?_, hgood, l.length, hl, hfits⟩
    rcases hu with rfl | ⟨b, -, -, -, rfl⟩ <;> rfl

/-! ### The table of R130 and R131 -/

/-- Settles O43: each agent's item is the head of its channel, popped; then STATE by the transaction performed. -/
theorem stateChangesExactlyAsListed : Obligations.StateChangesExactlyAsListed := by
  refine ⟨fun s t u w he hf ht => ?ctrl, fun s t he ht => ?pred, fun s t u w he hf ht => ?enc, fun s t u w h he hf ht => ?dec,
    fun s t he ht => ?recon, fun s => rfl⟩
  case ctrl =>
    obtain ⟨_, rest, hq⟩ := ctrl_enabled he
    cases (fetch_ctrl_cons hq).symm.trans hf
    rw [agentStep_ctrl_eq hq] at ht
    exact ⟨performItem_abort_state ht, fun hd hs => performItem_stays_in_error ht hd hs, performItem_illegal_state ht,
      fun _ _ hd hi => (performItem_wr_state ht hd hi :), fun _ hd hi => (performItem_nop_or_rd_state ht hd hi :),
      fun _ hd hi hs => (performItem_start_state ht hd hi hs :)⟩
  case pred =>
    obtain ⟨hs, -, x, rest, hq⟩ := pred_enabled he
    rw [agentStep_pred_eq hq] at ht
    rw [execPix_cases ht]
    exact hs
  case enc =>
    obtain ⟨hs, _, rest, hq⟩ := enc_enabled he
    cases (fetch_enc_cons hq).symm.trans hf
    rw [agentStep_enc_eq hq] at ht
    exact execRes_state ht hs
  case dec =>
    obtain ⟨hs, -, _, rest, hq⟩ := dec_enabled he
    cases (fetch_dec_cons hq).symm.trans hf
    rw [agentStep_dec_eq hq] at ht
    refine ⟨fun hw => ?_, fun hw hno => ?_, fun k hw hd hv hk => ?_⟩
    · rw [performItem_of_decode (decode_codeIn_eos hw)] at ht
      rw [← hs]
      exact (execEos_state ht :)
    · rw [performItem_of_decode (decode_codeIn_byte hw)] at ht
      exact (execByte_state_of_no_code ht hno).trans hs
    · have hpair : k.toNat = s.hiByte.toNat * 256 + (w.extractLsb' 0 8).toNat := by
        rw [hk, BitVec.extractLsb'_toNat, Nat.shiftRight_zero]
      have hdict : ({ s with codeIn := rest } : State).nextPick.DictLegal := h.dictLegal.congr rfl rfl rfl rfl
      rw [performItem_of_decode (decode_codeIn_byte hw)] at ht
      have hexec := execByte_of_pair (s := ({ s with codeIn := rest } : State).nextPick) hd hv hpair
      rw [← hs]
      exact hdict.processCode_state (hexec.symm.trans ht)
  case recon =>
    obtain ⟨hs, -, p, rest, hq⟩ := recon_enabled he
    rw [agentStep_recon_eq hq] at ht
    rw [execResd_cases ht, finishDecode_state_eq, ← hs]
    rfl

/-! ### A completed job -/

/-- R130: no command completes a job. -/
theorem performItem_cmd_not_done {v t : State} {w : CmdWord} (hv : v.state = .dec) (ht : performItem (.cmd w) v = .next t) :
    t.state ≠ .done := by
  have hne : v.state ≠ .done := by simp [hv]
  rcases performItem_cmd_cases ht with rfl | ⟨x, rfl⟩ | ⟨-, e, -, rfl⟩ | ⟨-, rfl⟩ | ⟨-, hb, -⟩
  · exact hne
  · exact hne
  · simp
  · simp
  · exact absurd (busy_iff.mpr (.inr hv)) (by simp [hb])

theorem finishDecode_completes {s : State} (hs : s.state = .dec) (ht : s.finishDecode.state = .done) :
    s.finishDecode.row = s.finishDecode.rows ∧ s.finishDecode.dFin = true := by
  by_contra hno
  replace hno : ¬ (s.row = s.rows ∧ s.dFin = true) := hno
  rw [finishDecode_state_eq, if_neg hno, hs] at ht
  cases ht

/-- R131: a step that completes a decode job is DEC's at an EOS or REC's at the last position, with the check of both. -/
theorem State.Inv.decode_completes {s t : State} (h : s.Inv) (hs : s.state = .dec) {a : Agent} (he : a.enabled s = true)
    (ht : agentStep a s = .next t) (hdone : t.state = .done) : t.row = t.rows ∧ t.dFin = true := by
  cases a with
  | ctrl =>
    obtain ⟨w, rest, hq⟩ := ctrl_enabled he
    rw [agentStep_ctrl_eq hq] at ht
    have hv : ({ s with cmd := rest } : State).nextPick.state = .dec := hs
    exact absurd hdone (performItem_cmd_not_done hv ht)
  | pred => cases hs.symm.trans (pred_enabled he).1
  | enc => cases hs.symm.trans (enc_enabled he).1
  | dec =>
    obtain ⟨-, -, w, rest, hq⟩ := dec_enabled he
    rw [agentStep_dec_eq hq] at ht
    have hv : ({ s with codeIn := rest } : State).nextPick.state = .dec := hs
    rcases performItem_codeIn_cases ht with rfl | ⟨-, n, rfl⟩ | ⟨-, k, ht⟩ | ⟨-, rfl⟩ | rfl
    · cases hv.symm.trans hdone
    · cases hv.symm.trans hdone
    · have hdict : ({ s with codeIn := rest } : State).nextPick.DictLegal := h.dictLegal.congr rfl rfl rfl rfl
      rcases hdict.processCode_state ht with ⟨hst, -⟩ | ⟨hst, -⟩
      · cases hst.symm.trans hdone
      · cases (hst.trans hv).symm.trans hdone
    · exact finishDecode_completes hv hdone
    · cases hdone
  | recon =>
    obtain ⟨-, -, p, rest, hq⟩ := recon_enabled he
    rw [agentStep_recon_eq hq] at ht
    cases execResd_cases ht
    exact finishDecode_completes hs hdone

/-- Settles O53: the channels and the counters by the invariant after the step. -/
theorem completedJobIsQuiet : Obligations.CompletedJobIsQuiet := by
  intro s t h ht hdone hne
  have hinv := everyStepKeepsTheInvariant s t h ht
  obtain ⟨hresE, hresD⟩ := hinv.doneEmpty hdone
  refine ⟨hresE, hresD, fun a ha => not_enabled_of_done hdone ha, fun hs => ?_⟩
  rcases step_agent ht with rfl | ⟨a, he, ha⟩
  · exact absurd hdone hne
  · obtain ⟨hrow, hfin⟩ := h.decode_completes hs he ha hdone
    exact ⟨hrow, hfin, hinv.outCount.2.1 (hinv.outCount.2.2 hfin)⟩

end Sys2Proof.Machine
end

section
/-! PROOFS of the family 41_predictor.md: what PIX pushes, writes and moves (R141, R142), and the range of the residuals (R143). -/

namespace Sys2Proof.Machine

/-! ### The walker in the words of R31 -/

theorem advance_ch_eq (s : State) : s.advance.ch = if s.ch.toNat + 1 = s.chans.toNat then 0 else s.ch + 1 :=
  if_congr chWraps_iff rfl rfl

theorem advance_col_eq (s : State) :
    s.advance.col =
      if s.ch.toNat + 1 = s.chans.toNat then (if s.col.toNat + 1 = s.cols.toNat then 0 else s.col + 1) else s.col := by
  rw [advance_col, if_congr colWraps_iff rfl rfl, if_congr chWraps_iff rfl rfl]
  by_cases hch : s.ch.toNat + 1 = s.chans.toNat
  · simp only [hch, true_and, if_true]
  · simp only [hch, false_and, if_false]

theorem advance_row_eq (s : State) :
    s.advance.row = if s.ch.toNat + 1 = s.chans.toNat ∧ s.col.toNat + 1 = s.cols.toNat then s.row + 1 else s.row :=
  if_congr colWraps_iff rfl rfl

/-! ### The item pushed -/

/-- R141: the item PIX x pushes on RES_E. -/
def State.residualItem (s : State) (x : Byte) : FlagSym := flagSym s.atLast (sym9 (s.residual x))

theorem afterPix_resE (s : State) (x : Byte) : (s.afterPix x).resE = s.resE ++ [s.residualItem x] := rfl

theorem residualItem_last (s : State) (x : Byte) : (s.residualItem x).getLsbD 9 = s.atLast := flagSym_last _ _

theorem residualItem_sym (s : State) (x : Byte) : (s.residualItem x).extractLsb' 0 9 = sym9 (s.residual x) := flagSym_sym _ _

/-- R142, R143: 9 bits hold the residual as an integer, so nothing of it is lost. -/
theorem residualItem_toInt (s : State) (x : Byte) : ((s.residualItem x).extractLsb' 0 9).toInt = s.residual x := by
  obtain ⟨hlo, hhi⟩ := s.residual_bounds x
  rw [residualItem_sym, ← int9_eq_toInt, int9_sym9 (by omega) hhi]

/-- R143: the pattern 0x100 is that of -256, which is below every residual. -/
theorem residualItem_ne_reserved (s : State) (x : Byte) : (s.residualItem x).extractLsb' 0 9 ≠ 0x100#9 := by
  obtain ⟨hlo, hhi⟩ := s.residual_bounds x
  rw [residualItem_sym]
  exact of_decide_eq_true (isSymbol_sym9 hlo hhi)

/-- R143: at column 0 the residual is the sample. -/
theorem residual_nonneg_of_col_zero {s : State} (hcol : s.col = 0) (x : Byte) : 0 ≤ s.residual x := by
  rw [State.residual, if_pos hcol]
  exact Int.natCast_nonneg _

/-! ### The statements -/

/-- Settles O13: the item, LEFT, the walker and the frame of the state after PIX. -/
theorem pixPushesTheResidual : Obligations.PixPushesTheResidual := by
  refine ⟨fun x s hwf hcell => ⟨s.afterPix x, s.residualItem x, exec_pix hcell x, afterPix_resE s x, ?_⟩,
    fun x => decode_encode (.pix x)⟩
  have hsame : (s.afterPix x).left.read s.ch.toNat = x := Memory.read_write_same _ _ hwf
  have hother : ∀ k, k ≠ s.ch.toNat → (s.afterPix x).left.read k = s.left.read k :=
    fun _ hk => Memory.read_write_other _ _ hk
  exact ⟨residualItem_toInt s x, residualItem_last s x, hsame, hother, advance_ch_eq s, advance_col_eq s, advance_row_eq s, rfl⟩

/-- Settles O14: the item of any PIX that answers a next state, by the range of the residual. -/
theorem residualsAreSymbols : Obligations.ResidualsAreSymbols := by
  intro x s t ht
  obtain ⟨hlo, hhi⟩ := s.residual_bounds x
  have hpush : t.resE = s.resE ++ [s.residualItem x] := by
    rw [execPix_cases ht]
    rfl
  refine ⟨s.residualItem x, hpush, residualItem_ne_reserved s x, ?_⟩
  rw [residualItem_toInt]
  exact ⟨hlo, hhi, fun hcol => residual_nonneg_of_col_zero hcol x⟩

end Sys2Proof.Machine
end

section
/-! PROOFS of the family 42_encoder.md: what RES does on a hit and on a miss (R152, R154, R155), the first symbol of a job (R157), and the reserved symbol, which no step raises from the invariant (R156). -/

namespace Sys2Proof.Machine

/-! ### A residual that is a symbol -/

theorem exec_res_of_symbol {p : Sym} (hp : p ≠ 0x100#9) (l : Bool) (s : State) :
    exec (.res l p) s = .next ((s.matchSymbol (int9 p)).finishEncode l) :=
  execRes_of_symbol (decide_eq_true hp) l s

/-- R156. -/
theorem exec_res_reserved (l : Bool) (s : State) : exec (.res l 0x100#9) s = .next (s.raise .sym) := by
  rw [exec, execRes, if_pos rfl]

/-- R155: the items of the code of S, at the end of input only. -/
theorem finishEncode_items (s : State) (l : Bool) :
    (s.finishEncode l).codeOut = s.codeOut ++ if l then itemsOf s.sCode true else [] := by
  cases l with
  | true => rfl
  | false => exact (List.append_nil _).symm

/-- R154 on a hit, with R155. -/
theorem exec_res_hit {s : State} {p : Sym} {c : Code} (hp : p ≠ 0x100#9) (hit : s.lookup s.sEmpty s.sCode (int9 p) = some c)
    (l : Bool) :
    exec (.res l p) s = .next { s with
      sEmpty := false, sCode := c
      codeOut := s.codeOut ++ if l then itemsOf c true else []
      state := if l then .done else s.state } := by
  have hitems := finishEncode_items { s with sEmpty := false, sCode := c } l
  rw [exec_res_of_symbol hp, State.matchSymbol_hit hit, ← hitems]
  rfl

/-- The seed code of a symbol (R61), in the words of the statements. -/
theorem seedCode_int9_toNat {p : Sym} (hp : p ≠ 0x100#9) : ((seedCode (int9 p)).toNat : Int) = p.toInt + 255 := by
  obtain ⟨hlo, hhi⟩ := symbol_bounds hp
  rw [seedCode_toNat hlo hhi, int9_eq_toInt]

/-! ### The match step -/

/-- R65 in one statement, below the cap and at it. -/
theorem State.insert_at_next {s : State} (hwf : s.dict.wf = true) (hlo : 511 ≤ s.next.toNat) (hhi : s.next.toNat ≤ 65536)
    (p : Code) (b : Int) :
    (s.insert p b).next.toNat = (if s.next.toNat < 65536 then s.next.toNat + 1 else 65536) ∧
    (s.next.toNat < 65536 → (s.insert p b).dict.row s.next.toNat = { root := false, prefixCode := p, sym := sym9 b }) ∧
    (∀ c, c ≠ s.next.toNat → (s.insert p b).dict.row c = s.dict.row c) ∧
    (s.next.toNat = 65536 → (s.insert p b).dict = s.dict) := by
  by_cases hcap : s.next.toNat < 65536
  · obtain ⟨hnext, hnew, hold, -⟩ := State.insert_below (p := p) (b := b) hwf hlo hcap
    rw [if_pos hcap]
    exact ⟨hnext, fun _ => hnew, hold, fun hfull => by omega⟩
  · rw [if_neg hcap, State.insert_full hcap]
    exact ⟨by omega, fun hlt => absurd hlt hcap, fun _ _ => rfl, fun _ => rfl⟩

theorem matchSymbol_err (s : State) (b : Int) : (s.matchSymbol b).err = s.err := by
  obtain ⟨_, _, _, _, _, hm⟩ := s.matchSymbol_writes b
  rw [hm]

/-- R157: once S holds a symbol it is never empty again. -/
theorem matchSymbol_sEmpty {s : State} (hS : s.sEmpty = false) (b : Int) : (s.matchSymbol b).sEmpty = false := by
  cases hl : s.lookup s.sEmpty s.sCode b with
  | some c => rw [State.matchSymbol_hit hl]
  | none =>
    rw [State.matchSymbol_miss hl]
    exact hS

/-! ### The errors a step can raise (R200) -/

/-- R122 to R128: CTRL keeps ERR, clears it, or raises one of its own three. -/
theorem performItem_cmd_err {v t : State} {w : CmdWord} (ht : performItem (.cmd w) v = .next t) :
    t.err = v.err ∨ t.err ∈ [.noFault, .cmd, .busy, .cfg] := by
  rcases performItem_cmd_cases ht with rfl | ⟨_, rfl⟩ | ⟨-, e, he, rfl⟩ | ⟨-, rfl⟩ | ⟨-, -, hwrote⟩
  · exact .inl rfl
  · exact .inl rfl
  · exact .inr (by simpa using .inr he)
  · exact .inr (by simp)
  · rcases hwrote with ⟨_, -, rfl⟩ | ⟨_, -, rfl⟩ | ⟨_, -, rfl⟩ | ⟨-, -, rfl⟩ | ⟨-, -, rfl⟩ <;> simp

/-- R173, R174: a code that is processed keeps ERR, or raises ERR_BADCODE or ERR_OVERRUN. -/
theorem State.DictLegal.processCode_err {v t : State} (h : v.DictLegal) {k : Code} (ht : v.processCode k = .next t) :
    t.err = v.err ∨ t.err ∈ [.badCode, .overrun] := by
  rcases h.processCode_cases k with ⟨-, heq⟩ | ⟨_, -, -, -, heq⟩ | ⟨u, _, -, -, -, hu, -, -, heq⟩ <;> cases ht.symm.trans heq
  · exact .inr (by simp)
  · exact .inr (by simp)
  · left
    rcases hu with rfl | ⟨b, -, -, -, rfl⟩ <;> rfl

/-- R173, R174, R176: DEC keeps ERR, or raises one of its own three. -/
theorem State.DictLegal.performItem_codeIn_err {v t : State} (h : v.DictLegal) {w : FlagByte}
    (ht : performItem (.codeIn w) v = .next t) : t.err = v.err ∨ t.err ∈ [.short, .badCode, .overrun] := by
  rcases performItem_codeIn_cases ht with rfl | ⟨-, n, rfl⟩ | ⟨-, k, ht⟩ | ⟨-, rfl⟩ | rfl
  · exact .inl rfl
  · exact .inl rfl
  · exact (h.processCode_err ht).imp_right (List.mem_cons_of_mem _)
  · exact .inl rfl
  · exact .inr (by simp)

/-- R156: CTRL and DEC raise other errors, PRED and REC none, and ENC pops a symbol (R143). -/
theorem State.Inv.agentStep_err_of_sym {s t : State} (h : s.Inv) {a : Agent} (he : a.enabled s = true)
    (ht : agentStep a s = .next t) (hsym : t.err = .sym) : s.err = .sym := by
  cases a with
  | ctrl =>
    obtain ⟨w, rest, hq⟩ := ctrl_enabled he
    rw [agentStep_ctrl_eq hq] at ht
    have hkept := (performItem_cmd_err ht).resolve_right (by simp [hsym])
    exact hkept.symm.trans hsym
  | pred =>
    obtain ⟨-, -, x, rest, hq⟩ := pred_enabled he
    rw [agentStep_pred_eq hq] at ht
    rw [execPix_cases ht] at hsym
    exact hsym
  | enc =>
    obtain ⟨-, w, rest, hq⟩ := enc_enabled he
    have hw := h.resESymbols w (by rw [hq]; exact List.mem_cons_self)
    rw [agentStep_enc_eq hq, execRes_of_symbol hw] at ht
    cases ht
    rw [finishEncode_err, matchSymbol_err] at hsym
    exact hsym
  | dec =>
    obtain ⟨-, -, w, rest, hq⟩ := dec_enabled he
    rw [agentStep_dec_eq hq] at ht
    have hdict : ({ s with codeIn := rest } : State).nextPick.DictLegal := h.dictLegal.congr rfl rfl rfl rfl
    have hkept := (hdict.performItem_codeIn_err ht).resolve_right (by simp [hsym])
    exact hkept.symm.trans hsym
  | recon =>
    obtain ⟨-, -, p, rest, hq⟩ := recon_enabled he
    rw [agentStep_recon_eq hq] at ht
    rw [execResd_cases ht] at hsym
    exact hsym

/-! ### The statements -/

/-- Settles O24: a miss is the emission of the code of S, the insertion at NEXT, and the seed of the symbol. -/
theorem resExtendsOrEmits : Obligations.ResExtendsOrEmits := by
  refine ⟨fun l p s c hp hit => exec_res_hit hp hit l, fun l p s hp miss hwf hlo hhi => ?_, exec_res_reserved, fun w => rfl⟩
  obtain ⟨hnext, hnew, hold, hfull⟩ := State.insert_at_next hwf hlo hhi s.sCode (int9 p)
  rw [sym9_int9] at hnew
  refine ⟨_, exec_res_of_symbol hp l s, ?_⟩
  rw [State.matchSymbol_miss miss]
  exact ⟨seedCode_int9_toNat hp, finishEncode_items _ l, rfl, hnext, hnew, hold, hfull, rfl⟩

/-- Settles O25: a step is the step of an enabled agent, or nothing. -/
theorem reservedSymbolFaultsAndNeverArises : Obligations.ReservedSymbolFaultsAndNeverArises := by
  refine ⟨exec_res_reserved, fun s t h ht hsym => ?_⟩
  rcases step_agent ht with rfl | ⟨a, he, ha⟩
  · exact hsym
  · exact h.agentStep_err_of_sym he ha hsym

/-- Settles O26: with S empty the lookup hits the seed of the symbol (R64), and no match step empties S. -/
theorem firstSymbolHitsItsSeed : Obligations.FirstSymbolHitsItsSeed := by
  refine ⟨fun l p s hS hn hp => ?_, fun l p s t hS ht => ?_⟩
  · obtain ⟨hlo, hhi⟩ := symbol_bounds hp
    have hit : s.lookup s.sEmpty s.sCode (int9 p) = some (seedCode (int9 p)) := by
      rw [hS]
      exact State.lookup_empty _ hn hlo hhi
    refine ⟨_, exec_res_hit hp hit l, rfl, seedCode_int9_toNat hp, rfl, rfl, fun hl => ?_⟩
    rw [hl]
    exact List.append_nil _
  · rcases execRes_cases ht with ⟨-, rfl⟩ | ⟨-, rfl⟩
    · exact hS
    · exact matchSymbol_sEmpty hS (int9 p)

end Sys2Proof.Machine
end

section
/-! PROOFS of the family 43_decoder.md: what BYTE does with a code (R166 to R175) and what EOS does (R176, R177). -/

namespace Sys2Proof.Machine

/-! ### A byte that completes no code -/

/-- Settles O27. -/
theorem byteIsDroppedOrHeld : Obligations.ByteIsDroppedOrHeld :=
  fun _ _ => ⟨execByte_drained, execByte_held⟩

/-! ### The byte that completes a code -/

/-- Settles O28: the first code inserts nothing (R168), a later one inserts where capacity allows (R169). -/
theorem knownCodeOutputsItsSequence : Obligations.KnownCodeOutputsItsSequence := by
  intro n s k b tl h hd hv hk hknown hseq hfits
  have hexec := (execByte_of_pair hd hv hk).trans (State.processCode_known hknown hseq hfits)
  have hcount := State.output_count hfits
  have hdrain := State.output_drain hd hfits
  cases he : s.sEmpty with
  | true =>
    rw [he, if_pos rfl] at hexec
    exact ⟨_, hexec, rfl, hcount, rfl, rfl, rfl, hdrain, fun _ => ⟨rfl, rfl⟩, nofun, by rw [← he]; rfl⟩
  | false =>
    rw [he, if_neg Bool.false_ne_true] at hexec
    obtain ⟨hnext, hnew, hold, -⟩ := State.insert_at_next h.dictWf h.nextRange.1 h.nextRange.2 s.sCode b
    refine ⟨_, hexec, rfl, hcount, rfl, rfl, rfl, hdrain, fun hfull => ?_, fun _ hlt => ?_, by rw [← he]; rfl⟩
    · have hfull : s.next.toNat = 65536 := hfull.resolve_left (by simp)
      rw [State.insert_full (by omega)]
      exact ⟨rfl, rfl⟩
    · rw [if_pos hlt] at hnext
      exact ⟨hnext, hnew hlt, hold⟩

/-- R170 once NEXT = 65536: a code has 16 bits, so every code is below NEXT. -/
theorem not_badCode_of_full {s : State} (hfull : s.next.toNat = 65536) (k : Code) : ¬ s.badCode k := by
  have hcode := k.isLt
  rintro (⟨-, hbad⟩ | ⟨-, hbad⟩) <;> omega

theorem State.DictLegal.processCode_err_of_full {s t : State} (h : s.DictLegal) (hfull : s.next.toNat = 65536) {k : Code}
    (ht : s.processCode k = .next t) (herr : s.err ≠ .badCode) : t.err ≠ .badCode := by
  rcases h.processCode_cases k with ⟨hbad, -⟩ | ⟨_, -, -, -, heq⟩ | ⟨u, _, -, -, -, hu, -, -, heq⟩
  · exact absurd hbad (not_badCode_of_full hfull k)
  · cases ht.symm.trans heq
    exact nofun
  · cases ht.symm.trans heq
    rcases hu with rfl | ⟨_, -, -, -, rfl⟩ <;> exact herr

/-- Settles O29: the code NEXT is the row just inserted, S extended by its own first element. -/
theorem specialCodeExtendsS : Obligations.SpecialCodeExtendsS := by
  refine ⟨fun n s k b tl h hd hv hk he hspecial hseq hfits => ?special, fun n s t h hfull herr ht => ?full⟩
  case special =>
    have hb := h.dictLegal.seq_symbols hseq b List.mem_cons_self
    have hexec := (execByte_of_pair hd hv hk).trans (State.processCode_special h.dictLegal he hspecial hseq hfits)
    have hrow := h.dictLegal.seq_inserted (h.matchValid he) hb.1 hb.2 hspecial hseq
    obtain ⟨hnext, hnew, hold, -⟩ := State.insert_below (p := s.sCode) (b := b) h.dictWf h.nextRange.1 (hspecial ▸ k.isLt)
    rw [← hspecial] at hnext hnew hold
    exact ⟨_, hexec, rfl, State.output_count hfits, hrow, rfl, rfl, rfl, State.output_drain hd hfits, hnext, hnew, hold, rfl⟩
  case full =>
    cases hd : s.dDrain with
    | true =>
      cases (execByte_drained hd).symm.trans ht
      exact herr
    | false =>
      cases hv : s.hiValid with
      | false =>
        cases (execByte_held hd hv).symm.trans ht
        exact herr
      | true =>
        have hcode := execByte_of_pair hd hv (codeOfBytes_toNat s.hiByte n)
        exact h.dictLegal.processCode_err_of_full hfull (hcode.symm.trans ht) herr

/-- Settles O30: before the first code NEXT = 511, so the two cases are those of R173. -/
theorem undecodableCodeFaults : Obligations.UndecodableCodeFaults := by
  intro n s k h hd hv hk hbad
  have hbad : s.badCode k := hbad.imp_left fun ⟨he, hlarge⟩ => ⟨he, by rw [h.emptyFresh he]; exact hlarge⟩
  exact (execByte_of_pair hd hv hk).trans (State.processCode_bad hbad)

/-- Settles O31. -/
theorem overrunningCodeFaults : Obligations.OverrunningCodeFaults :=
  fun _ _ _ _ _ hd hv hk hlen hover => (execByte_of_pair hd hv hk).trans (State.processCode_overrun hlen hover)

/-! ### EOS -/

/-- R131, R176: after the last residual EOS ends the stream, and the job too where REC has finished. -/
theorem exec_eos_drained {s : State} (hd : s.dDrain = true) :
    exec .eos s = .next { s with dFin := true, state := if s.row = s.rows then .done else s.state } := by
  simp [exec, execEos, hd, State.walkDone]

/-- R35: while residuals are missing the block does not drain. -/
theorem State.Inv.not_drained_of_short {s : State} (h : s.Inv) (hshort : s.outCnt.toNat < s.count.toNat) : s.dDrain = false := by
  rw [Bool.eq_false_iff]
  intro hd
  rw [h.outCount.2.1 hd] at hshort
  exact Nat.lt_irrefl _ hshort

/-- R43 item 7: a job has a sample. -/
theorem State.Inv.count_pos {s : State} (h : s.Inv) (hrun : s.Running) : 0 < s.count.toNat := by
  obtain ⟨hrows, hcols, hchans, hcount⟩ := h.jobDims hrun
  rw [hcount]
  exact Nat.mul_pos (Nat.mul_pos hrows hcols) hchans

/-- Settles O34. -/
theorem shortStreamFaults : Obligations.ShortStreamFaults :=
  fun _ h _ hshort => execEos_early (h.not_drained_of_short hshort)

/-- Settles O33: with a high byte held, or no residual out, the block does not drain. -/
theorem eosEndsTheStream : Obligations.EosEndsTheStream := by
  refine ⟨fun s => ⟨fun hd hwalk => ?_, fun hd hwalk => ?_, execEos_early⟩, fun b => congrArg _ (decodeCin_eos b),
    fun s h hv => ⟨h.pairHeld hv, execEos_early (h.pairHeld hv)⟩, fun s h hs hzero => ?_⟩
  · rw [exec_eos_drained hd, if_neg hwalk]
  · rw [exec_eos_drained hd, if_pos hwalk]
  · have hd := h.not_drained_of_short (by rw [hzero]; exact h.count_pos (.inr hs))
    exact ⟨hd, execEos_early hd⟩

end Sys2Proof.Machine
end

section
/-! PROOFS of the family 44_reconstructor.md: what RESD pushes, writes and moves (R186, R188), the 8-bit adder that gives the same sample (R187), and the inverse of PIX (R189). -/

namespace Sys2Proof.Machine

/-! ### The item pushed -/

/-- R186: the item RESD p pushes on PIX_OUT. -/
def State.sampleItem (s : State) (p : Sym) : FlagByte := flagByte s.atLast (s.sample (int9 p))

theorem afterResd_pixOut (s : State) (p : Sym) : (s.afterResd p).pixOut = s.pixOut ++ [s.sampleItem p] := rfl

theorem sampleItem_byte (s : State) (p : Sym) : (s.sampleItem p).extractLsb' 0 8 = s.sample (int9 p) := flagByte_byte _ _

theorem sampleItem_last (s : State) (p : Sym) : (s.sampleItem p).getLsbD 8 = s.atLast := flagByte_flag _ _

/-! ### The sample modulo 256 -/

theorem mod256_natCast_add (b : Byte) (r : Int) : mod256 ((b.toNat : Int) + r) = b + mod256 r := by
  rw [mod256, mod256, BitVec.ofInt_add, BitVec.ofInt_natCast, BitVec.ofNat_toNat, BitVec.setWidth_eq]

/-- R187: modulo 256 the sign of a residual pattern does not matter, as 512 is a multiple of 256. -/
theorem mod256_int9 (p : Sym) : mod256 (int9 p) = p.extractLsb' 0 8 := by
  have hvalue : int9 p % 256 = (p.toNat : Int) % 256 := by
    unfold int9
    split <;> omega
  apply BitVec.eq_of_toNat_eq
  apply Int.natCast_inj.mp
  rw [mod256_toNat, hvalue, BitVec.extractLsb'_toNat, Nat.shiftRight_zero]
  norm_cast

/-- R187. -/
theorem sample_eq_adder (s : State) (p : Sym) :
    s.sample (int9 p) = if s.col = 0 then p.extractLsb' 0 8 else s.left.read s.ch.toNat + p.extractLsb' 0 8 := by
  rw [State.sample, mod256_natCast_add, mod256_int9]

/-! ### The inverse of PIX -/

/-- R31: `at_last()` looks at the position and the dimensions only. -/
theorem SameWalk.atLast_eq {s u : State} (h : SameWalk s u) : u.atLast = s.atLast := by
  rw [State.atLast, State.atLast, h.rows, h.cols, h.chans, h.row, h.col, h.ch]

/-- R189: PIX of a sample and RESD of its residual keep the two walks the same. -/
theorem SameWalk.reconstructed {s u : State} (h : SameWalk s u) (hch : s.ch.toNat < s.chans.toNat) (hs : s.left.wf = true)
    (hu : u.left.wf = true) (x : Byte) : SameWalk (s.afterPix x) (u.afterResd (sym9 (s.residual x))) := by
  obtain ⟨hrows, hcols, hchans, hrow, hcol, hpos, hcells⟩ := h.advanced hs hu x
  rw [State.afterResd, h.sample_residual hch x]
  exact ⟨hrows, hcols, hchans, hrow, hcol, hpos, hcells⟩

/-! ### The statements -/

/-- Settles O35: the sample, PIX_OUT, LEFT, the walker, STATE and the frame of the state after RESD. -/
theorem resdPushesTheSample : Obligations.ResdPushesTheSample := by
  refine ⟨fun p s hwf hcell => ⟨s.afterResd p, s.sample (int9 p), exec_resd hcell p, s.sample_value p, rfl, ?_⟩,
    fun p => decode_encode (.resd p)⟩
  have hsame : (s.afterResd p).left.read s.ch.toNat = s.sample (int9 p) := Memory.read_write_same _ _ hwf
  have hother : ∀ k, k ≠ s.ch.toNat → (s.afterResd p).left.read k = s.left.read k :=
    fun _ hk => Memory.read_write_other _ _ hk
  exact ⟨hsame, hother, advance_ch_eq s, advance_col_eq s, advance_row_eq s, finishDecode_state_eq _, rfl⟩

/-- Settles O36. -/
theorem reconstructorIsAnEightBitAdder : Obligations.ReconstructorIsAnEightBitAdder :=
  fun p s hcell => ⟨s.afterResd p, s.sampleItem p, exec_resd hcell p, afterResd_pixOut s p,
    (sampleItem_byte s p).trans (sample_eq_adder s p)⟩

/-- Settles O37: the residual fits its 9 bits, so RESD gets it whole, and the sample comes back at the same place. -/
theorem reconstructionInvertsPrediction : Obligations.ReconstructionInvertsPrediction := by
  intro x s u hs hu hch hrows hcols hchans hrow hcol hpos hcells
  have hwalk : SameWalk s u := ⟨hrows, hcols, hchans, hrow, hcol, hpos, hcells⟩
  have hcell : s.ch.toNat < 65535 := by
    have hchansLt := s.chans.isLt
    omega
  have hnext := hwalk.reconstructed hch hs hu x
  refine ⟨s.afterPix x, u.afterResd (sym9 (s.residual x)), s.residualItem x, u.sampleItem (sym9 (s.residual x)),
    exec_pix hcell x, afterPix_resE s x, ?_, afterResd_pixOut u _, ?_, ?_, hnext.row, hnext.col, hnext.ch, hnext.cells⟩
  · rw [residualItem_sym]
    exact exec_resd (by rwa [hpos]) _
  · rw [sampleItem_byte, hwalk.sample_residual hch x]
  · rw [sampleItem_last, residualItem_last, hwalk.atLast_eq]

end Sys2Proof.Machine
end

section
/-! PROOFS of the family 60_exceptions.md: fault entry (R200, R210), and what can happen in ERROR (R211, R216). -/

namespace Sys2Proof.Machine

/-! ### Fault entry, transaction by transaction -/

/-- R200: CTRL enters ERROR by a fault of its own, with no other effect. -/
theorem performItem_cmd_enters_error {v t : State} {w : CmdWord} (ht : performItem (.cmd w) v = .next t)
    (hv : v.state ≠ .error) (hentry : t.state = .error) : ∃ e, (e = .cmd ∨ e = .busy ∨ e = .cfg) ∧ t = v.raise e := by
  rcases performItem_cmd_cases ht with rfl | ⟨_, rfl⟩ | ⟨-, hraised⟩ | ⟨-, rfl⟩ | ⟨-, -, hwrote⟩
  · exact absurd hentry hv
  · exact absurd hentry hv
  · exact hraised
  · cases hentry
  · rcases hwrote with ⟨_, -, rfl⟩ | ⟨_, -, rfl⟩ | ⟨_, -, rfl⟩ | ⟨-, -, rfl⟩ | ⟨-, -, rfl⟩
    · exact absurd hentry hv
    · exact absurd hentry hv
    · exact absurd hentry hv
    · cases hentry
    · cases hentry

/-- R156: ENC enters ERROR by the reserved symbol only. -/
theorem execRes_enters_error {v t : State} {l : Bool} {p : Sym} (ht : execRes l p v = .next t) (hv : v.state = .enc)
    (hentry : t.state = .error) : t = v.raise .sym := by
  rcases execRes_cases ht with ⟨-, rfl⟩ | ⟨-, rfl⟩
  · rfl
  · rw [finishEncode_state, matchSymbol_state, hv] at hentry
    cases l <;> cases hentry

/-- R167, R173, R174: a code that is processed is refused by one of the two faults, or leaves STATE alone. -/
theorem processCode_raises_or_keeps_state {v t : State} {k : Code} (ht : v.processCode k = .next t) :
    (∃ e, (e = .badCode ∨ e = .overrun) ∧ t = v.raise e) ∨ t.state = v.state := by
  unfold State.processCode at ht
  split at ht
  · cases ht
    exact .inl ⟨.badCode, .inl rfl, rfl⟩
  · split at ht
    · cases ht
    · split at ht
      · cases ht
        exact .inl ⟨.overrun, .inr rfl, rfl⟩
      · split at ht
        · cases ht
        · rename_i hu
          obtain ⟨_, _, rfl⟩ := codeUpdate_writes hu
          split at ht <;> cases ht
          exact .inr rfl

theorem finishDecode_ne_error {s : State} (hs : s.state ≠ .error) : s.finishDecode.state ≠ .error := by
  rw [finishDecode_state_eq]
  split
  · exact nofun
  · exact hs

/-- R200: DEC enters ERROR by a fault of its own, with no other effect. -/
theorem performItem_codeIn_enters_error {v t : State} {w : FlagByte} (ht : performItem (.codeIn w) v = .next t)
    (hv : v.state ≠ .error) (hentry : t.state = .error) :
    ∃ e, (e = .badCode ∨ e = .short ∨ e = .overrun) ∧ t = v.raise e := by
  rcases performItem_codeIn_cases ht with rfl | ⟨-, n, rfl⟩ | ⟨-, k, hcode⟩ | ⟨-, rfl⟩ | rfl
  · exact absurd hentry hv
  · exact absurd hentry hv
  · rcases processCode_raises_or_keeps_state hcode with ⟨e, he, hraised⟩ | hkept
    · exact ⟨e, he.imp_right .inr, hraised⟩
    · exact absurd (hkept.symm.trans hentry) hv
  · exact absurd hentry (finishDecode_ne_error hv)
  · exact ⟨.short, .inr (.inl rfl), rfl⟩

/-! ### In ERROR -/

/-- R140, R150, R165, R185: the units work in a job only. -/
theorem running_of_unit_enabled {s : State} {a : Agent} (ha : a ≠ .ctrl) (he : a.enabled s = true) : s.Running := by
  cases a with
  | ctrl => exact absurd rfl ha
  | pred => exact .inl (pred_enabled he).1
  | enc => exact .inl (enc_enabled he).1
  | dec => exact .inr (dec_enabled he).1
  | recon => exact .inr (recon_enabled he).1

theorem ctrl_of_enabled_in_error {s : State} (hs : s.state = .error) {a : Agent} (he : a.enabled s = true) : a = .ctrl :=
  by_contra fun ha => not_error_of_running (running_of_unit_enabled ha he) hs

/-- R124, R216: in ERROR a command word is discarded, read by RD, or an ABORT. -/
theorem performItem_cmd_in_error {v t : State} {w : CmdWord} (ht : performItem (.cmd w) v = .next t) (hv : v.state = .error) :
    t = v ∨ (∃ x, t = v.respond x) ∨ (decode (.cmd w) = .ok .abort ∧ t = v.abortJob) := by
  rcases performItem_cmd_cases ht with hdiscarded | hread | ⟨herr, -⟩ | habort | ⟨herr, -⟩
  · exact .inl hdiscarded
  · exact .inr (.inl hread)
  · exact absurd hv herr
  · exact .inr (.inr habort)
  · exact absurd hv herr

/-! ### The statements -/

/-- Settles O44: each agent's item is popped; then the faults of its transactions. Only CTRL steps in ERROR, and it keeps ERR
there unless it leaves. -/
theorem faultEntryWritesStateAndErrOnly : Obligations.FaultEntryWritesStateAndErrOnly := by
  refine ⟨fun s t a he ht hs hentry => ?entry, fun s t a he ht hs hstay => ?stay⟩
  case entry =>
    cases a with
    | ctrl =>
      obtain ⟨w, rest, -, hf, hp⟩ := agentStep_ctrl he ht
      obtain ⟨e, hcode, rfl⟩ := performItem_cmd_enters_error hp hs hentry
      exact ⟨⟨_, _, hf, rfl⟩, .inl ⟨rfl, hcode⟩⟩
    | pred =>
      obtain ⟨-, -, x, rest, -, -, hp⟩ := agentStep_pred he ht
      rw [execPix_cases hp] at hentry
      exact absurd hentry hs
    | enc =>
      obtain ⟨henc, w, rest, -, hf, hp⟩ := agentStep_enc he ht
      cases execRes_enters_error hp henc hentry
      exact ⟨⟨_, _, hf, rfl⟩, .inr (.inl ⟨rfl, rfl⟩)⟩
    | dec =>
      obtain ⟨-, -, w, rest, -, hf, hp⟩ := agentStep_dec he ht
      obtain ⟨e, hcode, rfl⟩ := performItem_codeIn_enters_error hp hs hentry
      exact ⟨⟨_, _, hf, rfl⟩, .inr (.inr ⟨rfl, hcode⟩)⟩
    | recon =>
      obtain ⟨-, -, p, rest, -, -, hp⟩ := agentStep_recon he ht
      rw [execResd_cases hp] at hentry
      exact absurd hentry (finishDecode_ne_error hs)
  case stay =>
    cases ctrl_of_enabled_in_error hs he
    obtain ⟨w, rest, -, -, hp⟩ := agentStep_ctrl he ht
    rcases performItem_cmd_in_error hp hs with rfl | ⟨_, rfl⟩ | ⟨-, rfl⟩
    · rfl
    · rfl
    · cases hstay

/-- Settles O45: the step is nothing, or CTRL's at a word that is discarded, read by RD, or an ABORT. -/
theorem errorStateIsSticky : Obligations.ErrorStateIsSticky := by
  refine fun s hs => ⟨fun a ha => Bool.eq_false_iff.mpr fun he => ha (ctrl_of_enabled_in_error hs he), fun t ht => ?_⟩
  rcases step_ctrl_or_unit ht with rfl | ⟨w, rest, hq, hp⟩ | ⟨a, ha, he, -⟩
  · exact .inr rfl
  · rcases performItem_cmd_in_error hp hs with rfl | ⟨_, rfl⟩ | ⟨habort, rfl⟩
    · exact .inr rfl
    · exact .inr rfl
    · exact .inl ⟨w, rest, hq, habort, rfl⟩
  · exact absurd (ctrl_of_enabled_in_error hs he) ha

end Sys2Proof.Machine
end

section
/-! PROOFS of the family 70_reset_and_hazards.md, part 1: the reset event (R230) and the other moves of the host (R241, R251). -/

namespace Sys2Proof.Machine

/-- Settles O48: the two sides agree field by field. -/
theorem resetEventGivesTheResetValues : Obligations.ResetEventGivesTheResetValues := fun _ => rfl

/-- R230: after the reset event no job runs and the dictionary is the seeds. -/
theorem State.Inv.reset_event {s : State} (h : s.Inv) : s.resetEvent.Inv :=
  .of_not_running (not_running_of nofun nofun) (.of_seeds rfl rfl h.dictWf) (fun _ => rfl) ⟨(absurd rfl ·), nofun⟩
    ⟨Nat.le_refl 0, nofun, nofun⟩ nofun nofun nofun nofun h.leftWf

/-- R251: the host pushes, takes and removes at the ports, of which the invariant says nothing, or resets. -/
theorem State.Inv.host_moved {s : State} (h : s.Inv) (m : HostMove) : (s.hostMove m).Inv := by
  cases m with
  | reset => exact h.reset_event
  | dropPix =>
    simp only [State.hostMove, State.dropPix]
    split
    · exact h
    · exact h.with_ports ..
  | dropCode =>
    simp only [State.hostMove, State.dropCode]
    split
    · exact h
    · exact h.with_ports ..
  | _ => exact h.with_ports ..

/-- R241: outside an encode job each removal takes the oldest item of PIX_IN. -/
theorem iterate_dropPix {s : State} (hs : s.state ≠ .enc) (n : Nat) :
    (fun u : State => u.hostMove .dropPix)^[n] s = { s with pixIn := s.pixIn.drop n } := by
  induction n with
  | zero => rfl
  | succ n ih => rw [Function.iterate_succ_apply', ih, State.hostMove, State.dropPix, if_neg hs, List.tail_drop]

/-- R241: outside a decode job each removal takes the oldest item of CODE_IN. -/
theorem iterate_dropCode {s : State} (hs : s.state ≠ .dec) (n : Nat) :
    (fun u : State => u.hostMove .dropCode)^[n] s = { s with codeIn := s.codeIn.drop n } := by
  induction n with
  | zero => rfl
  | succ n ih => rw [Function.iterate_succ_apply', ih, State.hostMove, State.dropCode, if_neg hs, List.tail_drop]

/-- Settles O51: as many removals as the port has items take them all; during the job that reads the port a removal does nothing. -/
theorem hostMovesKeepTheInvariant : Obligations.HostMovesKeepTheInvariant := by
  refine ⟨fun s m h => h.host_moved m, fun s hs => ?_, fun s hs => ?_, fun _ => ⟨fun h => if_pos h, fun h => if_pos h⟩⟩
  · rw [iterate_dropPix hs, List.drop_length]
  · rw [iterate_dropCode hs, List.drop_length]

end Sys2Proof.Machine
end

section
/-! PROOFS of the family 70_reset_and_hazards.md, part 2: weak fairness (R249). A step uses up one entry of the schedule and counts one pick, a move of the host neither; so the schedule ends, and every turn after that is taken. -/

namespace Sys2Proof.Machine

/-- The picks that lead to the state `t` from `s`: `j` of them, each using up one entry of the schedule. -/
def PicksLater (s t : State) (j : Nat) : Prop := t.sched = s.sched.drop j ∧ t.pick = s.pick + j

theorem PicksLater.refl (s : State) : PicksLater s s 0 := ⟨rfl, rfl⟩

theorem PicksLater.trans {s t u : State} {i j : Nat} (hst : PicksLater s t i) (htu : PicksLater t u j) :
    PicksLater s u (i + j) := by
  refine ⟨?_, ?_⟩
  · rw [htu.1, hst.1, List.drop_drop]
  · rw [htu.2, hst.2, Nat.add_assoc]

theorem hostMove_picksLater (s : State) (m : HostMove) : PicksLater s (s.hostMove m) 0 := hostMove_pick s m

/-- A step with an agent enabled is one pick. -/
theorem step_picksLater {s t : State} (hen : ∃ a : Agent, a.enabled s = true) (ht : step s = .next t) : PicksLater s t 1 := by
  rcases step_cases ht with ⟨-, hnone⟩ | ⟨a, _, _, hc, he, -, -⟩
  · obtain ⟨a, ha⟩ := hen
    exact absurd ha (by simp [hnone a])
  · rw [step_of_chosen hc] at ht
    rw [PicksLater, List.drop_one]
    exact agentStep_pick he ht

section
variable {allowed : HostMove → Prop} {run : Nat → State}

theorem Run.mono {more : HostMove → Prop} (h : Run allowed run) (hmore : ∀ m, allowed m → more m) : Run more run where
  moves n := (h.moves n).imp_right fun ⟨m, hm, heq⟩ => ⟨m, hmore m hm, heq⟩
  goesOn := h.goesOn

/-- The next step of the run, after moves of the host that count no pick. -/
theorem Run.next_step (h : Run allowed run) (n : Nat) :
    ∃ m, n ≤ m ∧ PicksLater (run n) (run m) 0 ∧ step (run m) = .next (run (m + 1)) := by
  obtain ⟨m, hm, hstep⟩ := h.goesOn n
  obtain ⟨d, rfl⟩ := Nat.exists_eq_add_of_le hm
  clear hm
  induction d generalizing n with
  | zero => exact ⟨n, Nat.le_refl n, .refl _, hstep⟩
  | succ d ih =>
    rcases h.moves n with hnow | ⟨move, -, hhost⟩
    · exact ⟨n, Nat.le_refl n, .refl _, hnow⟩
    · obtain ⟨m, hm, hpicks, hlater⟩ := ih (n + 1) (by rwa [Nat.add_right_comm, Nat.add_assoc])
      rw [hhost] at hpicks
      exact ⟨m, by omega, (hostMove_picksLater _ _).trans hpicks, hlater⟩

/-- While an agent stays enabled, every later pick is made: the run steps there. -/
theorem Run.step_at_pick (h : Run allowed run) {n : Nat} (hen : ∀ m, n ≤ m → ∃ a : Agent, a.enabled (run m) = true) (j : Nat) :
    ∃ m, n ≤ m ∧ PicksLater (run n) (run m) j ∧ step (run m) = .next (run (m + 1)) := by
  induction j with
  | zero => exact h.next_step n
  | succ j ih =>
    obtain ⟨m, hm, hpicks, hstep⟩ := ih
    obtain ⟨m', hm', hpicks', hstep'⟩ := h.next_step (m + 1)
    exact ⟨m', by omega, (hpicks.trans (step_picksLater (hen m hm) hstep)).trans hpicks', hstep'⟩

end

/-- Settles O59: the step at a turn of the agent that comes after the end of the schedule is the agent's. -/
theorem enabledAgentEventuallySteps : Obligations.EnabledAgentEventuallySteps := by
  intro run a n h hen
  obtain ⟨turn, hturn, hwait, rfl⟩ := turnAt_comes ((run n).pick + (run n).sched.length) a
  obtain ⟨m, hm, ⟨hsched, hpick⟩, hstep⟩ := h.step_at_pick (fun m hm => ⟨_, hen m hm⟩) (turn - (run n).pick)
  have hused : (run m).sched = [] := by rw [hsched, List.drop_eq_nil_iff]; omega
  have hat : (run m).pick = turn := by omega
  subst hat
  exact ⟨m, hm, chosen_of_turn hused hwait (hen m hm), hstep⟩

end Sys2Proof.Machine
end

section
/-! PROOFS of the family 70_reset_and_hazards.md, part 3: a job whose input is supplied ends (R249, R131, R132). While it runs, CTRL and the host write at the ports only, and each step of a unit brings the job nearer to its end. -/

namespace Sys2Proof.Machine

/-! ### Writes at the ports -/

/-- `t` differs from `s` at the external channels only (and in the model's own two fields): no ABORT has come on CMD, and
nothing is gone from the port that the running job reads. -/
structure PortsOnly (s t : State) : Prop where
  rest : ({ s with
    cmd := t.cmd, rsp := t.rsp, pixIn := t.pixIn, codeOut := t.codeOut, codeIn := t.codeIn, pixOut := t.pixOut
    sched := t.sched, pick := t.pick } : State) = t
  cmd : ∀ w ∈ t.cmd, w ∈ s.cmd ∨ decode (.cmd w) ≠ .ok .abort
  pixIn : s.state = .enc → s.pixIn <+: t.pixIn
  codeIn : s.state = .dec → s.codeIn <+: t.codeIn

namespace PortsOnly

variable {s t : State}

theorem refl (s : State) : PortsOnly s s := ⟨rfl, fun _ => .inl, fun _ => List.prefix_rfl, fun _ => List.prefix_rfl⟩

/-- What looks at no port is the same in both states. -/
theorem agree {α : Type} (h : PortsOnly s t) (f : State → α)
    (hf : f { s with
      cmd := t.cmd, rsp := t.rsp, pixIn := t.pixIn, codeOut := t.codeOut, codeIn := t.codeIn, pixOut := t.pixOut
      sched := t.sched, pick := t.pick } = f s) : f t = f s :=
  (congrArg f h.rest).symm.trans hf

theorem inv (h : PortsOnly s t) (hs : s.Inv) : t.Inv := h.rest ▸ hs.with_ports ..

/-- A unit that is enabled stays enabled: its item stays the head of its channel. -/
theorem enabled (h : PortsOnly s t) {a : Agent} (ha : a ≠ .ctrl) (he : a.enabled s = true) : a.enabled t = true := by
  have hstate := h.agree State.state rfl
  have hrow := h.agree (fun u => u.row.toNat < u.rows.toNat) rfl
  cases a with
  | ctrl => exact absurd rfl ha
  | pred =>
    obtain ⟨hs, hlt, x, rest, hq⟩ := pred_enabled he
    exact enabled_pred_of (hstate.trans hs) (hrow.mpr hlt) ((h.pixIn hs).ne_nil (by simp [hq]))
  | enc =>
    obtain ⟨hs, w, rest, hq⟩ := enc_enabled he
    exact enabled_enc_of (hstate.trans hs) (by simp [h.agree State.resE rfl, hq])
  | dec =>
    obtain ⟨hs, hf, w, rest, hq⟩ := dec_enabled he
    exact enabled_dec_of (hstate.trans hs) ((h.agree State.dFin rfl).trans hf) ((h.codeIn hs).ne_nil (by simp [hq]))
  | recon =>
    obtain ⟨hs, hlt, p, rest, hq⟩ := recon_enabled he
    exact enabled_recon_of (hstate.trans hs) (hrow.mpr hlt) (by simp [h.agree State.resD rfl, hq])

end PortsOnly

/-- R251: the host moves at the ports. -/
theorem hostMove_portsOnly (s : State) {m : HostMove} (hm : m.StaysWithJob) : PortsOnly s (s.hostMove m) := by
  obtain ⟨cmd, rsp, pixIn, codeOut, codeIn, pixOut, heq, hcmd, hpix, hcode⟩ := hostMove_stays (s := s) hm
  rw [heq]
  refine ⟨rfl, fun w hw => (List.mem_append.mp hw).imp_right (hcmd w), fun hs => ?_, fun hs => ?_⟩
  · obtain ⟨more, rfl⟩ := hpix hs
    exact List.prefix_append _ _
  · obtain ⟨more, rfl⟩ := hcode hs
    exact List.prefix_append _ _

/-- R124: during a job every command but ABORT is a fault, or at most answers on RSP. -/
theorem command_portsOnly {s t : State} (hrun : s.Running) {w : CmdWord} {rest : List CmdWord} (hq : s.cmd = w :: rest)
    (hw : decode (.cmd w) ≠ .ok .abort) (ht : performItem (.cmd w) ({ s with cmd := rest } : State).nextPick = .next t)
    (herr : t.state ≠ .error) : PortsOnly s t := by
  have hpop : ∀ v ∈ rest, v ∈ s.cmd := fun v hv => by rw [hq]; exact List.mem_cons_of_mem _ hv
  rcases performItem_cmd_cases ht with rfl | ⟨x, rfl⟩ | ⟨-, e, -, rfl⟩ | ⟨habort, -⟩ | ⟨-, hb, -⟩
  · exact ⟨rfl, fun v hv => .inl (hpop v hv), fun _ => List.prefix_rfl, fun _ => List.prefix_rfl⟩
  · exact ⟨rfl, fun v hv => .inl (hpop v hv), fun _ => List.prefix_rfl, fun _ => List.prefix_rfl⟩
  · exact absurd rfl herr
  · exact absurd habort hw
  · exact absurd (busy_iff.mpr hrun) (Bool.eq_false_iff.mp hb)

/-! ### The steps of the units -/

/-- R75: only CTRL pops CMD. -/
theorem agentStep_cmd {s t : State} {a : Agent} (ha : a ≠ .ctrl) (he : a.enabled s = true) (ht : agentStep a s = .next t) :
    t.cmd = s.cmd := by
  obtain ⟨hpred, henc, hdec, hrecon⟩ := unitsWriteOnlyWhatTheyOwn s t
  cases a with
  | ctrl => exact absurd rfl ha
  | pred => exact (show WritesOnly .pred s t from hpred he ht).agree State.cmd rfl
  | enc => exact (show WritesOnly .enc s t from henc he ht).agree State.cmd rfl
  | dec => exact (show WritesOnly .dec s t from hdec he ht).agree State.cmd rfl
  | recon => exact (show WritesOnly .recon s t from hrecon he ht).agree State.cmd rfl

theorem finishDecode_state_or (s : State) : s.finishDecode.state = .done ∨ s.finishDecode.state = s.state := by
  rw [finishDecode_state_eq]
  split
  · exact .inl rfl
  · exact .inr rfl

/-- R130, R131: a unit goes on with the job, ends it, or faults. -/
theorem agentStep_state {s t : State} {a : Agent} (ha : a ≠ .ctrl) (he : a.enabled s = true) (ht : agentStep a s = .next t) :
    t.state = .done ∨ t.state = .error ∨ t.state = s.state := by
  cases a with
  | ctrl => exact absurd rfl ha
  | pred =>
    obtain ⟨-, -, x, rest, -, -, ht⟩ := agentStep_pred he ht
    rw [execPix_cases ht]
    exact .inr (.inr rfl)
  | enc =>
    obtain ⟨hs, w, rest, -, -, ht⟩ := agentStep_enc he ht
    rw [execRes_state ht hs, hs]
    split
    · exact .inr (.inl rfl)
    · split
      · exact .inl rfl
      · exact .inr (.inr rfl)
  | dec =>
    obtain ⟨-, -, w, rest, -, -, ht⟩ := agentStep_dec he ht
    rcases performItem_codeIn_cases ht with rfl | ⟨-, n, rfl⟩ | ⟨-, k, hk⟩ | ⟨-, rfl⟩ | rfl
    · exact .inr (.inr rfl)
    · exact .inr (.inr rfl)
    · rcases processCode_raises_or_keeps_state hk with ⟨e, -, rfl⟩ | hkept
      · exact .inr (.inl rfl)
      · exact .inr (.inr hkept)
    · exact (finishDecode_state_or _).imp_right .inr
    · exact .inr (.inl rfl)
  | recon =>
    obtain ⟨-, -, p, rest, -, -, ht⟩ := agentStep_recon he ht
    rw [execResd_cases ht]
    exact (finishDecode_state_or _).imp_right .inr

/-! ### A run during a job -/

/-- A job runs with STATE = `st`, and no ABORT is waiting on CMD. -/
structure State.AtWork (s : State) (st : JobState) : Prop where
  inv : s.Inv
  running : s.Running
  state : s.state = st
  noAbort : ∀ w ∈ s.cmd, decode (.cmd w) ≠ .ok .abort

theorem State.AtWork.ports {s t : State} {st : JobState} (h : s.AtWork st) (hp : PortsOnly s t) : t.AtWork st where
  inv := hp.inv h.inv
  running := (hp.agree State.Running rfl).mpr h.running
  state := (hp.agree State.state rfl).trans h.state
  noAbort w hw := (hp.cmd w hw).elim (h.noAbort w) id

theorem State.AtWork.unit {s t : State} {st : JobState} (h : s.AtWork st) {a : Agent} (ha : a ≠ .ctrl) (he : a.enabled s = true)
    (ht : agentStep a s = .next t) (hdone : t.state ≠ .done) (herr : t.state ≠ .error) : t.AtWork st := by
  have hstate : t.state = s.state := ((agentStep_state ha he ht).resolve_left hdone).resolve_left herr
  refine ⟨h.inv.agentStepped he ht, ?_, hstate.trans h.state, ?_⟩
  · rw [State.Running, hstate]
    exact h.running
  · rw [agentStep_cmd ha he ht]
    exact h.noAbort

/-- R11, R249, R251: while the job goes on, a point of the run is followed by a write at the ports, or by the step of a unit. -/
theorem Run.job_move {run : Nat → State} (hr : Run HostMove.StaysWithJob run) {n : Nat} {st : JobState}
    (h : (run n).AtWork st) (herr : (run (n + 1)).state ≠ .error) :
    PortsOnly (run n) (run (n + 1)) ∨
    ∃ a : Agent, a ≠ .ctrl ∧ a.enabled (run n) = true ∧ agentStep a (run n) = .next (run (n + 1)) := by
  rcases hr.moves n with hstep | ⟨m, hm, hhost⟩
  · rcases step_ctrl_or_unit hstep with heq | ⟨w, rest, hq, hp⟩ | hunit
    · rw [heq]
      exact .inl (.refl _)
    · exact .inl (command_portsOnly h.running hq (h.noAbort w (by rw [hq]; exact List.mem_cons_self)) hp herr)
    · exact .inr hunit
  · rw [hhost]
    exact .inl (hostMove_portsOnly _ hm)

/-- A job with STATE = `st` comes to an end from the states with `Supplied`: CTRL and the host keep the supply and the work
left, each step of a unit keeps the supply and leaves less work, and some unit is enabled. -/
structure ComesToAnEnd (st : JobState) (Supplied : State → Prop) (work : State → Nat) : Prop where
  ports : ∀ {s t : State}, s.AtWork st → Supplied s → PortsOnly s t → Supplied t ∧ work t = work s
  unit : ∀ {s t : State} {a : Agent}, s.AtWork st → Supplied s → a ≠ .ctrl → a.enabled s = true →
    agentStep a s = .next t → t.AtWork st → Supplied t ∧ work t < work s
  goesOn : ∀ {s : State}, s.AtWork st → Supplied s → ∃ a : Agent, a ≠ .ctrl ∧ a.enabled s = true

/-- One move of the run, while the job goes on. -/
theorem ComesToAnEnd.move {st : JobState} {Supplied : State → Prop} {work : State → Nat} (h : ComesToAnEnd st Supplied work)
    {run : Nat → State} (hr : Run HostMove.StaysWithJob run) {n : Nat} (hw : (run n).AtWork st) (hs : Supplied (run n))
    (hdone : (run (n + 1)).state ≠ .done) (herr : (run (n + 1)).state ≠ .error) :
    (run (n + 1)).AtWork st ∧ Supplied (run (n + 1)) ∧
    (work (run (n + 1)) < work (run n) ∨ PortsOnly (run n) (run (n + 1)) ∧ work (run (n + 1)) = work (run n)) := by
  rcases hr.job_move hw herr with hports | ⟨a, ha, he, ht⟩
  · obtain ⟨hs', hwork⟩ := h.ports hw hs hports
    exact ⟨hw.ports hports, hs', .inr ⟨hports, hwork⟩⟩
  · have hw' := hw.unit ha he ht hdone herr
    obtain ⟨hs', hwork⟩ := h.unit hw hs ha he ht hw'
    exact ⟨hw', hs', .inl hwork⟩

/-- R249: at a point with the least work left a unit is enabled, and would stay enabled without ever stepping. -/
theorem ComesToAnEnd.ends {st : JobState} {Supplied : State → Prop} {work : State → Nat} (h : ComesToAnEnd st Supplied work)
    {run : Nat → State} (hr : Run HostMove.StaysWithJob run) (hw : (run 0).AtWork st) (hs : Supplied (run 0)) :
    ∃ n, (run n).state = .done ∨ (run n).state = .error := by
  by_contra hno
  have hdone : ∀ n, (run n).state ≠ .done := fun n hn => hno ⟨n, .inl hn⟩
  have herr : ∀ n, (run n).state ≠ .error := fun n hn => hno ⟨n, .inr hn⟩
  have along : ∀ n, (run n).AtWork st ∧ Supplied (run n) := by
    intro n
    induction n with
    | zero => exact ⟨hw, hs⟩
    | succ n ih =>
      obtain ⟨hw', hs', -⟩ := h.move hr ih.1 ih.2 (hdone _) (herr _)
      exact ⟨hw', hs'⟩
  obtain ⟨n, hleast⟩ : ∃ n, ∀ m, work (run n) ≤ work (run m) := ⟨_, fun m => Function.argmin_le (fun n => work (run n)) m⟩
  obtain ⟨a, ha, he⟩ := h.goesOn (along n).1 (along n).2
  have stays : ∀ m, n ≤ m → work (run m) = work (run n) ∧ a.enabled (run m) = true := by
    intro m hm
    induction m, hm using Nat.le_induction with
    | base => exact ⟨rfl, he⟩
    | succ m _ ih =>
      obtain ⟨-, -, hless | ⟨hports, hsame⟩⟩ := h.move hr (along m).1 (along m).2 (hdone _) (herr _)
      · exact absurd (hleast (m + 1)) (by omega)
      · exact ⟨hsame.trans ih.1, hports.enabled ha ih.2⟩
  obtain ⟨m, hm, hchosen, hstep⟩ :=
    enabledAgentEventuallySteps run a n (hr.mono fun _ _ => trivial) fun m hm => (stays m hm).2
  rw [step_of_chosen hchosen] at hstep
  have hless := (h.unit (along m).1 (along m).2 ha (stays m hm).2 hstep (along (m + 1)).1).2
  have hsame := (stays m hm).1
  exact absurd (hleast (m + 1)) (by omega)

/-! ### The encode job -/

/-- While a sample is left to handle, the position is below COUNT. -/
theorem State.Inv.position_lt_count {s : State} (h : s.Inv) (hrun : s.Running) (hrow : s.row.toNat < s.rows.toNat) :
    s.position < s.count.toNat := by
  obtain ⟨-, -, -, hcount⟩ := h.jobDims hrun
  rw [hcount]
  exact position_lt (h.walker hrun) hrow

/-- The samples not yet handled are on PIX_IN. -/
def State.SamplesSupplied (s : State) : Prop := s.count.toNat ≤ s.position + s.pixIn.length

/-- The steps left of an encode job: PRED's and ENC's for each sample not yet handled, ENC's for each residual waiting. -/
def State.encodeWork (s : State) : Nat := 2 * (s.count.toNat - s.position) + s.resE.length

/-- R141: PRED handles one of the samples. -/
theorem State.AtWork.sample_handled {s t : State} (h : s.AtWork .enc) (hsup : s.SamplesSupplied)
    (he : Agent.pred.enabled s = true) (ht : agentStep .pred s = .next t) : t.SamplesSupplied ∧ t.encodeWork < s.encodeWork := by
  obtain ⟨-, hrow, x, rest, hq, -, ht⟩ := agentStep_pred he ht
  have hadvance := advance_position (h.inv.walker h.running) hrow
  have hpos : t.position = s.position + 1 := by rw [execPix_cases ht]; exact hadvance
  have hlt := h.inv.position_lt_count h.running hrow
  have hcount : t.count = s.count := by rw [execPix_cases ht]; rfl
  have hpix : t.pixIn.length + 1 = s.pixIn.length := by rw [execPix_cases ht, hq]; rfl
  have hres : t.resE.length = s.resE.length + 1 := by rw [execPix_cases ht, advance_resE, List.length_append]; rfl
  unfold State.SamplesSupplied State.encodeWork at *
  rw [hcount]
  omega

/-- R154: ENC takes one of the residuals. -/
theorem State.SamplesSupplied.residual_taken {s t : State} (hsup : s.SamplesSupplied) (he : Agent.enc.enabled s = true)
    (ht : agentStep .enc s = .next t) : t.SamplesSupplied ∧ t.encodeWork < s.encodeWork := by
  obtain ⟨-, w, rest, hq, -, ht⟩ := agentStep_enc he ht
  have hwrites := execRes_writes ht
  have hpos : t.position = s.position := hwrites.agree State.position rfl
  have hcount : t.count = s.count := hwrites.agree State.count rfl
  have hpix : t.pixIn = s.pixIn := hwrites.agree State.pixIn rfl
  have hres : t.resE = rest := by
    rcases execRes_cases ht with ⟨-, rfl⟩ | ⟨-, rfl⟩
    · rfl
    · obtain ⟨_, _, _, _, _, hm⟩ := State.matchSymbol_writes ({ s with resE := rest } : State).nextPick (int9 (w.extractLsb' 0 9))
      rw [hm]
      rfl
  have hlen : s.resE.length = t.resE.length + 1 := by rw [hres, hq, List.length_cons]
  unfold State.SamplesSupplied State.encodeWork at *
  rw [hpos, hcount, hpix]
  omega

/-- R131, R132: PRED is enabled while a sample is left, then ENC until the residual with last = 1. -/
theorem encode_comesToAnEnd : ComesToAnEnd .enc State.SamplesSupplied State.encodeWork where
  ports {s t} h hsup hp := by
    have hpos := hp.agree State.position rfl
    have hcount := hp.agree State.count rfl
    have hres := hp.agree State.resE rfl
    have hpix := (hp.pixIn h.state).length_le
    unfold State.SamplesSupplied State.encodeWork at *
    rw [hpos, hcount, hres]
    exact ⟨by omega, rfl⟩
  unit {s t a} h hsup ha he ht _ := by
    cases a with
    | ctrl => exact absurd rfl ha
    | pred => exact h.sample_handled hsup he ht
    | enc => exact hsup.residual_taken he ht
    | dec => cases h.state.symm.trans (dec_enabled he).1
    | recon => cases h.state.symm.trans (recon_enabled he).1
  goesOn {s} h hsup := by
    rcases h.inv.row_lt_or_end h.running with hrow | hrow
    · have hlt := h.inv.position_lt_count h.running hrow
      unfold State.SamplesSupplied at hsup
      exact ⟨.pred, nofun, enabled_pred_of h.state hrow (List.length_pos_iff.mp (by omega))⟩
    · obtain ⟨front, w, hq, -, -⟩ := h.inv.lastThere h.state hrow
      exact ⟨.enc, nofun, enabled_enc_of h.state (by simp [hq])⟩

/-! ### The decode job -/

/-- An EOS is on CODE_IN; or it is consumed, and REC has not finished. -/
def State.EosSupplied (s : State) : Prop :=
  (s.dFin = true ∧ s.row.toNat < s.rows.toNat) ∨ (s.dFin = false ∧ ∃ w ∈ s.codeIn, w.getLsbD 8 = true)

/-- The steps left of a decode job, or more: DEC's for the items of CODE_IN up to the first EOS, REC's for each position. -/
def State.decodeWork (s : State) : Nat :=
  (if s.dFin then 0 else s.codeIn.findIdx (fun w => w.getLsbD 8) + 1) + (s.count.toNat - s.position)

theorem decodeWork_of_consumed {s : State} (hf : s.dFin = true) : s.decodeWork = s.count.toNat - s.position := by
  rw [State.decodeWork, if_pos hf, Nat.zero_add]

theorem decodeWork_of_waiting {s : State} (hf : s.dFin = false) :
    s.decodeWork = s.codeIn.findIdx (fun w => w.getLsbD 8) + 1 + (s.count.toNat - s.position) := by
  rw [State.decodeWork, if_neg (Bool.eq_false_iff.mp hf)]

/-- R166: a byte changes neither D_FIN nor CODE_IN. -/
theorem execByte_keeps_stream {v t : State} {n : Byte} (ht : execByte n v = .next t) : t.dFin = v.dFin ∧ t.codeIn = v.codeIn := by
  unfold execByte at ht
  split at ht
  · cases ht
    exact ⟨rfl, rfl⟩
  · split at ht
    · obtain ⟨_, _, _, _, _, _, _, _, _, _, rfl⟩ := processCode_writes ht
      exact ⟨rfl, rfl⟩
    · cases ht
      exact ⟨rfl, rfl⟩

/-- R131: a decode job that goes on with its EOS consumed has not finished its walk. -/
theorem row_ne_of_finishDecode {u t : State} (ht : t = u.finishDecode) (hs : t.state = .dec) (hf : t.dFin = true) :
    t.row ≠ t.rows := by
  subst ht
  intro hend
  rw [finishDecode_state_eq, if_pos ⟨hend, hf⟩] at hs
  cases hs

/-- R176: a decode job that goes on after an EOS has consumed it, and has not finished its walk. -/
theorem execEos_goes_on {v t : State} (ht : execEos v = .next t) (hs : t.state = .dec) : t.dFin = true ∧ t.row ≠ t.rows := by
  cases hd : v.dDrain with
  | false =>
    cases (execEos_early hd).symm.trans ht
    cases hs
  | true =>
    rw [execEos_drained hd] at ht
    injection ht with ht
    have hf : t.dFin = true := by rw [← ht]; rfl
    exact ⟨hf, row_ne_of_finishDecode ht.symm hs hf⟩

theorem State.AtWork.row_lt {s : State} {st : JobState} (h : s.AtWork st) (hne : s.row ≠ s.rows) : s.row.toNat < s.rows.toNat :=
  (h.inv.row_lt_or_end h.running).resolve_right hne

/-- R166, R176: DEC takes an item, and is one nearer to the EOS. -/
theorem State.EosSupplied.item_taken {s t : State} (hsup : s.EosSupplied) (he : Agent.dec.enabled s = true)
    (ht : agentStep .dec s = .next t) (hw : t.AtWork .dec) : t.EosSupplied ∧ t.decodeWork < s.decodeWork := by
  obtain ⟨-, hf, w, rest, hq, -, ht⟩ := agentStep_dec he ht
  have hwrites := performItem_codeIn_writes ht
  have hpos : t.position = s.position := hwrites.agree State.position rfl
  have hcount : t.count = s.count := hwrites.agree State.count rfl
  cases hb : w.getLsbD 8 with
  | false =>
    rw [performItem_of_decode (decode_codeIn_byte hb)] at ht
    obtain ⟨hf', hc'⟩ : t.dFin = s.dFin ∧ t.codeIn = rest := execByte_keeps_stream ht
    rw [hf] at hf'
    have heos : ∃ v ∈ rest, v.getLsbD 8 = true := by
      obtain ⟨v, hv, hvb⟩ := (hsup.resolve_left (by simp [hf])).2
      rw [hq] at hv
      exact ⟨v, List.mem_of_ne_of_mem (fun heq => by cases (heq ▸ hb).symm.trans hvb) hv, hvb⟩
    refine ⟨.inr ⟨hf', by rwa [hc']⟩, ?_⟩
    have hindex : s.codeIn.findIdx (fun v => v.getLsbD 8) = rest.findIdx (fun v => v.getLsbD 8) + 1 := by
      rw [hq, List.findIdx_cons, hb]
      rfl
    rw [decodeWork_of_waiting hf, decodeWork_of_waiting hf', hindex, hc', hpos, hcount]
    omega
  | true =>
    rw [performItem_of_decode (decode_codeIn_eos hb)] at ht
    obtain ⟨hf', hne⟩ := execEos_goes_on ht hw.state
    refine ⟨.inl ⟨hf', hw.row_lt hne⟩, ?_⟩
    rw [decodeWork_of_waiting hf, decodeWork_of_consumed hf', hpos, hcount]
    omega

/-- R186: REC handles a position. -/
theorem State.AtWork.position_handled {s t : State} (h : s.AtWork .dec) (hsup : s.EosSupplied)
    (he : Agent.recon.enabled s = true) (ht : agentStep .recon s = .next t) (hw : t.AtWork .dec) :
    t.EosSupplied ∧ t.decodeWork < s.decodeWork := by
  obtain ⟨-, hrow, p, rest, hq, -, ht⟩ := agentStep_recon he ht
  have hadvance := advance_position (h.inv.walker h.running) hrow
  have hlt := h.inv.position_lt_count h.running hrow
  have ht := execResd_cases ht
  have hpos : t.position = s.position + 1 := by rw [ht]; exact hadvance
  have hcount : t.count = s.count := by rw [ht]; rfl
  have hfin : t.dFin = s.dFin := by rw [ht]; rfl
  have hcode : t.codeIn = s.codeIn := by rw [ht]; rfl
  refine ⟨?_, ?_⟩
  · rcases hsup with ⟨hf, -⟩ | ⟨hf, heos⟩
    · exact .inl ⟨hfin.trans hf, hw.row_lt (row_ne_of_finishDecode ht hw.state (hfin.trans hf))⟩
    · exact .inr ⟨hfin.trans hf, by rwa [hcode]⟩
  · rw [State.decodeWork, State.decodeWork, hfin, hcode, hpos, hcount]
    omega

/-- R131, R132: DEC is enabled until the EOS, then REC until the last position: every residual is on RES_D by then. -/
theorem decode_comesToAnEnd : ComesToAnEnd .dec State.EosSupplied State.decodeWork where
  ports {s t} h hsup hp := by
    have hfin := hp.agree State.dFin rfl
    have hrow := hp.agree (fun u => u.row.toNat < u.rows.toNat) rfl
    have hpos := hp.agree State.position rfl
    have hcount := hp.agree State.count rfl
    have hcode := hp.codeIn h.state
    rcases hsup with ⟨hf, hlt⟩ | ⟨hf, heos⟩
    · rw [decodeWork_of_consumed hf, decodeWork_of_consumed (hfin.trans hf), hpos, hcount]
      exact ⟨.inl ⟨hfin.trans hf, hrow.mpr hlt⟩, rfl⟩
    · have hsame := hcode.findIdx_eq_of_findIdx_lt_length (List.findIdx_lt_length.mpr heos)
      obtain ⟨w, hw, hb⟩ := heos
      rw [decodeWork_of_waiting hf, decodeWork_of_waiting (hfin.trans hf), hpos, hcount, hsame]
      exact ⟨.inr ⟨hfin.trans hf, w, hcode.subset hw, hb⟩, rfl⟩
  unit {s t a} h hsup ha he ht hw := by
    cases a with
    | ctrl => exact absurd rfl ha
    | pred => cases h.state.symm.trans (pred_enabled he).1
    | enc => cases h.state.symm.trans (enc_enabled he).1
    | dec => exact hsup.item_taken he ht hw
    | recon => exact h.position_handled hsup he ht hw
  goesOn {s} h hsup := by
    rcases hsup with ⟨hf, hlt⟩ | ⟨hf, w, hw, -⟩
    · have hpos := h.inv.position_lt_count h.running hlt
      have hout := h.inv.resDCount h.state
      rw [h.inv.outCount.2.1 (h.inv.outCount.2.2 hf)] at hout
      exact ⟨.recon, nofun, enabled_recon_of h.state hlt (List.length_pos_iff.mp (by omega))⟩
    · exact ⟨.dec, nofun, enabled_dec_of h.state hf (List.ne_nil_of_mem hw)⟩

/-- Settles O60: both jobs come to an end. -/
theorem suppliedJobEnds : Obligations.SuppliedJobEnds :=
  ⟨fun _ hr hinv hcmd hs hsup => encode_comesToAnEnd.ends hr ⟨hinv, .inl hs, hs, hcmd⟩ hsup,
    fun _ hr hinv hcmd hs hsup => decode_comesToAnEnd.ends hr ⟨hinv, .inr hs, hs, hcmd⟩ hsup⟩

end Sys2Proof.Machine
end
